-- ==== Sys2Proof/Word.lean ====
section
/-! DEFINITION. The machine's word types and notation-level arithmetic (00_scope.md R10, R12, R15). -/

namespace Sys2Proof

/-- A `u8`, one byte of local memory. -/
abbrev Byte := BitVec 8

/-- A `u32`: an X register, an address, `cp`, an immediate. -/
abbrev Word := BitVec 32

/-- A `u64`: one command word. -/
abbrev CmdWord := BitVec 64

/-- A number as a `u32`, reduced mod 2^32 (R11). -/
def word (n : Nat) : Word := BitVec.ofNat 32 n

end Sys2Proof
end

