-- ==== Sys2Proof/Machine/Flags.lean ====
section
/-! DEFINITION. The hardware has no flags (10_state.md R36). These are the results that take their place. -/

namespace Sys2Proof.Machine

/-- BN.CMP's result: -1, 0 or 1 as a `u32` (42_bignum.md R246). -/
def compareResult (u v : Nat) : Word := if u < v then 0xFFFFFFFF else if u = v then 0 else 1

/-- BN.PAR's result (R258). -/
def parityResult (u : Nat) : Word := word (u % 2)

/-- BNZ's condition (40_sequencer.md R155). -/
def branchTaken (v : Word) : Bool := v != 0

end Sys2Proof.Machine
end

