-- ==== Sys2Proof/Machine/Bytes.lean ====
section
/-! DEFINITION. Byte strings as numbers and back, lengths, rotation (00_scope.md R12, R15). -/

namespace Sys2Proof.Machine

/-- `LE(bytes)`: byte 0 is least significant (R12). -/
def leNat : List Byte → Nat
  | [] => 0
  | b :: bs => b.toNat + 256 * leNat bs

/-- `BE(bytes)`: byte 0 is most significant; `BE([]) = 0` (R12). -/
def beNat (bs : List Byte) : Nat := leNat bs.reverse

/-- `LE_bytes(v, n)`, the `n`-byte little-endian string of `v` (R12). -/
def leBytes (v : Nat) : Nat → List Byte
  | 0 => []
  | n + 1 => BitVec.ofNat 8 v :: leBytes (v / 256) n

/-- `BE_bytes(v, n)`, the `n`-byte big-endian string of `v` (R12). -/
def beBytes (v n : Nat) : List Byte := (leBytes v n).reverse

/-- `bitlen(v)`: the least `n` with `v < 2^n` (R12). -/
def bitlen (v : Nat) : Nat := if v = 0 then 0 else Nat.log2 v + 1

/-- `bytelen(v)`: the least `n` with `v < 256^n` (R12). -/
def bytelen (v : Nat) : Nat := (bitlen v + 7) / 8

/-- `rotl32(x, k)` (R15). -/
def rotl32 (x : Word) (k : Nat) : Word := x.rotateLeft k

/-- `LE` of at most four bytes as a `u32`. -/
def leWord (bs : List Byte) : Word := word (leNat bs)

/-- `BE` of at most four bytes as a `u32`. -/
def beWord (bs : List Byte) : Word := word (beNat bs)

end Sys2Proof.Machine
end

