-- ==== Sys2Proof/Config.lean ====
section
/-! DEFINITION. The implementation parameters (00_scope.md R8), the values the spec leaves open, and the fixed sizes. -/

namespace Sys2Proof

/-- `PK_LEN`, the modulus length in bytes (R8). -/
def pkLen : Nat := 40

/-- The ciphertext-block size, `N` bytes for an `N`-byte modulus (42_bignum.md R270). -/
def cryptBlockSize : Nat := pkLen

/-- The plaintext-block size, `N-1` bytes (R270). -/
def plainBlockSize : Nat := pkLen - 1

/-- `BF_MAX_KEY`, the longest cipher key in bytes (R8). -/
def bfMaxKey : Nat := 56

/-- `LZ_WINDOW`, the largest back-reference offset (R8). -/
def lzWindow : Nat := 4095

/-- `LZ_MAX_MATCH` (R8). -/
def lzMaxMatch : Nat := 10

/-- `LZ_MIN_MATCH` (R8). -/
def lzMinMatch : Nat := 3

/-- `LZ_ENC_MAX_RUN`, the longest literal run the encoder emits (R8, conflict C1). -/
def lzEncMaxRun : Nat := 63

/-- The parameters that differ between machines (R8). The model is parametric in them: every state carries its
machine's parameters (log 5), and no step changes them (70 R472). -/
structure Config where
  /-- `MEM_SIZE`, bytes of local memory. -/
  memSize : Nat
  /-- `BN_LIMBS`, capacity of a B register in 32-bit limbs. -/
  bnLimbs : Nat
  /-- `PK_MODULUS`, the key ROM's 40-byte big-endian modulus (10_state.md R40). -/
  pkModulus : Vector Byte 40
  /-- `PK_EXPONENT`, the key ROM's exponent. -/
  pkExponent : Word
deriving DecidableEq, Repr

/-- The capacity of a B register: values are below it (10_state.md R32). -/
def Config.bnCapacity (c : Config) : Nat := 2 ^ (32 * c.bnLimbs)

/-- The hardware's own `PK_MODULUS`. OPEN in the spec (R8, D20): no value is given here (log 4). -/
opaque Config.openModulus : Vector Byte 40

/-- The hardware's own `PK_EXPONENT`. OPEN in the spec (R8, D20): no value is given here (log 4). -/
opaque Config.openExponent : Word

/-- What `P[i]` holds after the `n`-th soft reset: any value (10_state.md R39, 70 R452; log 3). -/
opaque Config.freeP : Nat → Fin 18 → Word

/-- What `S[k][j]` holds after the `n`-th soft reset: any value (R39, R452; log 3). -/
opaque Config.freeS : Nat → Fin 4 → Fin 256 → Word

/-- What a 32-bit read of BNLIMBS returns on a machine of `n` limbs with `n` at least `2^32`, where R64 states no value
(log 23). -/
opaque Config.freeBnLimbs : Nat → Word

/-- This hardware: the spec's default sizes (R8; log 6) and the open key. -/
def Config.standard : Config :=
  { memSize := 65536, bnLimbs := 32, pkModulus := Config.openModulus, pkExponent := Config.openExponent }

end Sys2Proof
end

