-- ==== Sys2Proof/Machine/State.lean ====
section
/-! DEFINITION. The machine's state as plain data, its reset, and the reasons a step can stop (10_state.md). -/

namespace Sys2Proof.Machine

/-- Why `step` stops with a fault: NEVER. Every fault of this hardware is an architectural event whose entry the spec
describes (60_exceptions.md R410), so it is a NEXT state (see `raise` in Ops.lean), and the type has no constructor
(log 10). Safe: no behaviour is cut off. -/
inductive Fault where
deriving DecidableEq, Repr

/-- Why `step` gives no meaning. -/
inductive Refusal where
  /-- Raised by a refused arm of `exec` for a command that has no meaning yet. Safe: the model stops. -/
  | notModelled (mnemonic : String)
  /-- Raised by the host's turn, never by a command: a register-port access that is not 32 bits wide at a 4-aligned
  offset, which the spec refuses (10_state.md R50, 70 R472; log 11). Safe: the model stops. -/
  | hostAccessOutsideProtocol (offset : Word) (bytes : Nat)
deriving DecidableEq, Repr

/-- The thirteen fault causes (60_exceptions.md R400). -/
inductive FaultCause where
  | fetchMisaligned | fetchRange | illegal | memRange
  | bnOverflow | bnUnderflow | bnZeroModulus
  | bfKeylen | bfNokey | bfBlocklen
  | lzInvalidData | lzBufferTooSmall | lzOverlap
deriving DecidableEq, Repr

/-- Local memory (20_memory.md R80): the bytes that differ from what an unlisted address reads as, addresses strictly
rising (`Memory.wf` in Ops.lean). -/
abbrev Memory := List Host.Cell

/-- The cipher's derived tables (10_state.md R39). -/
structure CipherTables where
  /-- `P[0..17]`, the round subkeys. -/
  p : Vector Word 18
  /-- `S[0..3][0..255]`, the substitution tables. -/
  s : Vector (Vector Word 256) 4
deriving DecidableEq, Repr

/-- What the host can do between two sequencer steps (70 R470). Every access to the register block or to memory is one
of these four. -/
inductive HostAction where
  /-- Read the register at `offset`, `bytes` bytes wide. -/
  | readReg (offset : Word) (bytes : Nat)
  /-- Write `value` to the register at `offset`, `bytes` bytes wide. -/
  | writeReg (offset : Word) (bytes : Nat) (value : Word)
  /-- `HostRead(addr, n)` on the memory port (20 R90). -/
  | readMem (addr : Word) (n : Nat)
  /-- `HostWrite(addr, n, bs)` on the memory port (R90); `n` is the length of `bs`. -/
  | writeMem (addr : Word) (bs : List Byte)
deriving DecidableEq, Repr

/-- Whose turn the next step is (log 7). -/
inductive HostTurn where
  /-- The host performs this action. -/
  | act (action : HostAction)
  /-- The host lets the sequencer take one step. -/
  | letRun
deriving DecidableEq, Repr

/-- What a host read returned (log 8). -/
inductive HostReply where
  /-- A register's value. -/
  | reg (value : Word)
  /-- Bytes of memory. -/
  | mem (bytes : List Byte)
deriving DecidableEq, Repr

/-- The whole state of the block (10_state.md), the parameters of its machine, and the host's turns. -/
structure State where
  /-- The parameters (R8, R40, R65): read only. The model's own field (log 5). -/
  cfg : Config
  /-- `X[0..15]` (R31). -/
  x : Vector Word 16
  /-- `B[0..15]` (R32), modelled by value (R33; log 19). -/
  b : Vector Nat 16
  /-- The command pointer (R35). -/
  cp : Word
  /-- The sequencer steps while set (R37). -/
  busy : Bool
  /-- A HALT has completed (R37). -/
  done : Bool
  /-- A command has faulted (R37). -/
  faulted : Bool
  /-- The host broke the access protocol (R37). -/
  hostErr : Bool
  /-- `HACC` (R38). -/
  hacc : Word
  /-- `HPEND`, 0 to 3 folded bytes (R38). -/
  hpend : List Byte
  /-- `KEYED` (R39). -/
  keyed : Bool
  /-- `P` and `S` (R39). -/
  tables : CipherTables
  /-- `FAULT_CODE` (R42). -/
  faultCode : Word
  /-- `FAULT_CP` (R42). -/
  faultCp : Word
  /-- `FAULT_INFO` (R42). -/
  faultInfo : Word
  /-- `IRQ_EN` (R43). -/
  irqEn : Bool
  /-- Local memory (20_memory.md R80). -/
  mem : Memory
  /-- The turns to come; empty means the sequencer moves. The model's own field (log 7). -/
  hostTurns : List HostTurn
  /-- What the host's reads returned, oldest first. The model's own field (log 8). -/
  hostReplies : List HostReply
  /-- How many free values were drawn. The model's own field (log 3, log 20). -/
  freeDraws : Nat
deriving DecidableEq, Repr

/-- The value the model names for `P` and `S` at power-on, where the spec gives none: DESIGN CHOICE (log 2). -/
def CipherTables.zero : CipherTables :=
  { p := Vector.replicate 18 0, s := Vector.replicate 4 (Vector.replicate 256 0) }

/-- Power-on reset (10_state.md R66, 70 R450) of a machine with parameters `cfg`, whose local memory and cipher tables
come up with the drawn values `mem` and `tables`. -/
def State.powerOn (cfg : Config) (mem : Memory) (tables : CipherTables) : State :=
  { cfg := cfg
    x := Vector.replicate 16 0
    b := Vector.replicate 16 0
    cp := 0
    busy := false
    done := false
    faulted := false
    hostErr := false
    hacc := 0
    hpend := []
    keyed := false
    tables := tables
    faultCode := 0
    faultCp := 0
    faultInfo := 0
    irqEn := false
    mem := mem
    hostTurns := []
    hostReplies := []
    freeDraws := 0 }

/-- The machine right after reset: this hardware's parameters, and the values the log names for what the spec leaves
to a draw (memory: log 1; cipher tables: log 2). -/
def State.reset : State := State.powerOn Config.standard [] CipherTables.zero

end Sys2Proof.Machine
end

