-- ==== Sys2Proof/Machine/Ops.lean ====
section
/-! DEFINITION. The named operations over memory and the command pointer, and fault entry (20_memory.md, 60_exceptions.md). -/

namespace Sys2Proof.Machine

/-- What an address that memory does not list reads as. The spec leaves power-on memory open (20 R80); this is the
model's choice for it: DESIGN CHOICE, unsafe (log 1). -/
def unlistedByte : Byte := 0

/-- The canonical form: addresses strictly rise and no entry equals what an unlisted address reads as. -/
def Memory.wf : Memory → Bool
  | [] => true
  | [(_, v)] => v != unlistedByte
  | (a, v) :: (a', v') :: m => v != unlistedByte && decide (a < a') && Memory.wf ((a', v') :: m)

/-- Every listed address lies below `n`. -/
def Memory.below (n : Nat) (m : Memory) : Bool := m.all fun c => decide (c.1 < n)

/-- `mem[addr]`. -/
def Memory.read : Memory → Nat → Byte
  | [], _ => unlistedByte
  | (b, v) :: m, a => if a = b then v else Memory.read m a

/-- Every entry for `a` removed. -/
def Memory.erase (m : Memory) (a : Nat) : Memory := m.filter fun c => c.1 != a

/-- An entry put in its place by address. -/
def Memory.insert (a : Nat) (v : Byte) : Memory → Memory
  | [] => [(a, v)]
  | (b, w) :: m => if a < b then (a, v) :: (b, w) :: m else (b, w) :: Memory.insert a v m

/-- `mem[addr] <- v`; writing what an unlisted address reads as removes the entry. -/
def Memory.write (m : Memory) (a : Nat) (v : Byte) : Memory :=
  if v = unlistedByte then m.erase a else Memory.insert a v (m.erase a)

/-- `MemRead(addr, n)` (20 R82). -/
def Memory.readBytes (m : Memory) (a : Nat) : Nat → List Byte
  | 0 => []
  | n + 1 => m.read a :: Memory.readBytes m (a + 1) n

/-- `MemWrite(addr, n, bs)` with `n` the length of `bs`: ascending addresses (R82). -/
def Memory.writeBytes (m : Memory) (a : Nat) : List Byte → Memory
  | [] => m
  | v :: vs => Memory.writeBytes (m.write a v) (a + 1) vs

/-- `InRange(addr, n)`: in `nat`, so the sum cannot wrap (R84). -/
def State.inRange (s : State) (addr n : Nat) : Bool := decide (addr + n ≤ s.cfg.memSize)

/-- `MemRead` on the state. -/
def State.memRead (s : State) (addr n : Nat) : List Byte := s.mem.readBytes addr n

/-- `MemWrite` on the state. -/
def State.memWrite (s : State) (addr : Nat) (bs : List Byte) : State :=
  { s with mem := s.mem.writeBytes addr bs }

/-- One byte of local memory. -/
def State.byteAt (s : State) (a : Nat) : Byte := s.mem.read a

/-- `cp <- cp +32 8`, the end of every command that completes and is no taken branch (10_state.md R35). -/
def State.advance (s : State) : State := { s with cp := s.cp + 8 }

/-- The code of a fault cause (60_exceptions.md R400). -/
def FaultCause.code : FaultCause → Word
  | .fetchMisaligned => 1
  | .fetchRange => 2
  | .illegal => 3
  | .memRange => 4
  | .bnOverflow => 5
  | .bnUnderflow => 6
  | .bnZeroModulus => 7
  | .bfKeylen => 8
  | .bfNokey => 9
  | .bfBlocklen => 10
  | .lzInvalidData => 11
  | .lzBufferTooSmall => 12
  | .lzOverlap => 13

/-- Fault entry (60_exceptions.md R410): the record saves the cause, the faulting command's own `cp` and the info word,
the run stops; `cp` and everything else stay (R411). -/
def State.faultEntry (s : State) (cause : FaultCause) (info : Word) : State :=
  { s with faultCode := cause.code, faultCp := s.cp, faultInfo := info, faulted := true, busy := false }

/-- `raise CODE(info)` (00_scope.md R14): the command ends with fault entry from the state `s`, which holds no effect of
the command (but for partial LZ output). -/
def raise (cause : FaultCause) (info : Word) (s : State) : Host.Outcome State Fault Refusal :=
  .next (s.faultEntry cause info)

/-- Return from a fault, the host's acknowledgement (10_state.md R61 bit ACK, 60_exceptions.md R415): clears the run
state's sticky bits and the fault record. -/
def State.acknowledge (s : State) : State :=
  { s with done := false, faulted := false, hostErr := false, faultCode := 0, faultCp := 0, faultInfo := 0 }

/-- START (R61 bit START): refused while busy or faulted, else the sequencer runs from `cp`. -/
def State.start (s : State) : State :=
  if s.busy || s.faulted then { s with hostErr := true } else { s with done := false, busy := true }

end Sys2Proof.Machine
end

