-- ==== Sys2Proof/Syntax.lean ====
section
/-! DEFINITION. The commands: one constructor per row of the opcode map (30_encoding.md R116). -/

namespace Sys2Proof

/-- An X-register index (30_encoding.md R115): all sixteen are valid. -/
abbrev XReg := Fin 16

/-- A B-register index (R115). -/
abbrev BReg := Fin 16

/-- One command. Arguments stand in field order `a, b, c, d, e`, then `imm`, unused fields left out (R116). -/
inductive Instr where
  /-- HALT: ends the run (40 R152). -/
  | halt
  /-- NOP (R153). -/
  | nop
  /-- LI `Xa, imm` (R154). -/
  | li (a : XReg) (imm : Word)
  /-- ADDI `Xa, Xb, imm` (R157). -/
  | addi (a b : XReg) (imm : Word)
  /-- BNZ `Xa, offset` (R155). -/
  | bnz (a : XReg) (imm : Word)
  /-- JMP `offset` (R156). -/
  | jmp (imm : Word)
  /-- LDW `Xa, [Xb+imm]` (R158). -/
  | ldw (a b : XReg) (imm : Word)
  /-- STW `Xa, [Xb+imm]` (R159). -/
  | stw (a b : XReg) (imm : Word)
  /-- H.INIT (41 R204). -/
  | hInit
  /-- H.FEED `Xa, Xb` (R205). -/
  | hFeed (a b : XReg)
  /-- H.FINAL `Xa` (R206). -/
  | hFinal (a : XReg)
  /-- H.HASH `Xa, Xb, Xc` (R207). -/
  | hHash (a b c : XReg)
  /-- BN.LD `Ba, Xb, Xc` (42 R232). -/
  | bnLd (a : BReg) (b c : XReg)
  /-- BN.LDI `Ba, imm` (R235). -/
  | bnLdi (a : BReg) (imm : Word)
  /-- BN.LDK `Ba, sel` (R238). -/
  | bnLdk (a : BReg) (imm : Word)
  /-- BN.ST `Ba, Xb, Xc, Xd` (R242). -/
  | bnSt (a : BReg) (b c d : XReg)
  /-- BN.CMP `Xa, Bb, Bc` (R246). -/
  | bnCmp (a : XReg) (b c : BReg)
  /-- BN.SUB `Ba, Bb, Bc` (R250). -/
  | bnSub (a b c : BReg)
  /-- BN.MUL `Ba, Bb, Bc` (R254). -/
  | bnMul (a b c : BReg)
  /-- BN.SHL `Ba, Bb` (R256). -/
  | bnShl (a b : BReg)
  /-- BN.SHR `Ba, Bb` (R257). -/
  | bnShr (a b : BReg)
  /-- BN.PAR `Xa, Bb` (R258). -/
  | bnPar (a : XReg) (b : BReg)
  /-- BN.MOD `Ba, Bb, Bc` (R260). -/
  | bnMod (a b c : BReg)
  /-- BN.MODEXP `Ba, Bb, Bc, Bd` (R262). -/
  | bnModexp (a b c d : BReg)
  /-- BF.KEY `Xa, Xb` (43 R310). -/
  | bfKey (a b : XReg)
  /-- BF.ENC `Xa, Xb` (R312). -/
  | bfEnc (a b : XReg)
  /-- BF.DEC `Xa, Xb` (R314). -/
  | bfDec (a b : XReg)
  /-- LZ.DEC `Xa, Xb, Xc, Xd, Xe` (44 R345). -/
  | lzDec (a b c d e : XReg)
  /-- LZ.ENC `Xa, Xb, Xc, Xd, Xe` (R355). -/
  | lzEnc (a b c d e : XReg)
deriving DecidableEq, Repr

end Sys2Proof
end

