-- ==== Sys2Proof/Machine/Operands.lean ====
section
/-! DEFINITION. Operand access: the X and B register files, effective addresses, branch targets (10_state.md, 30_encoding.md). -/

namespace Sys2Proof.Machine

/-- `X[r]` (00_scope.md R11). -/
def State.getX (s : State) (r : XReg) : Word := s.x[r]

/-- `X[r] <- v` (R11). No X register is hardwired (10_state.md R31). -/
def State.setX (s : State) (r : XReg) (v : Word) : State := { s with x := s.x.set r.val v r.isLt }

/-- `B[r]` (R11). -/
def State.getB (s : State) (r : BReg) : Nat := s.b[r]

/-- `B[r] <- v` (R11); the caller has checked the capacity. -/
def State.setB (s : State) (r : BReg) (v : Nat) : State := { s with b := s.b.set r.val v r.isLt }

/-- `X[r]` as an address or a length, in `nat`. -/
def State.natX (s : State) (r : XReg) : Nat := (s.getX r).toNat

/-- LDW and STW: `ea = X[b] +32 imm` (30_encoding.md R113). -/
def State.effectiveAddress (s : State) (b : XReg) (imm : Word) : Word := s.getX b + imm

/-- BNZ and JMP: `target = cp +32 imm` (R113). -/
def State.branchTarget (s : State) (imm : Word) : Word := s.cp + imm

/-- `Fit(v)`, `v < 2^(32·BN_LIMBS)` (42_bignum.md R231), decided through the bit length so that no number of a thousand
bits has to be computed (`State.fits_iff` in Laws/Ops.lean). -/
def State.fits (s : State) (v : Nat) : Bool := decide (bitlen v ≤ 32 * s.cfg.bnLimbs)

end Sys2Proof.Machine
end

