-- ==== Sys2Proof/Machine/Bignum.lean ====
section
/-! DEFINITION. The big-integer and modular-exponentiation unit (42_bignum.md): exact arithmetic on `nat`. -/

namespace Sys2Proof.Machine

/-- A computed value goes to `B[a]` when it fits; else BN_OVERFLOW(0) and nothing is written (R231). -/
def writeFitting (a : BReg) (v : Nat) (s : State) : Host.Outcome State Fault Refusal :=
  if s.fits v then .next (s.setB a v).advance else raise .bnOverflow 0 s

/-- The square-and-multiply loop (R264), the exponent's bits from least to most significant. Each round halves `e`, so
`bitlen e` rounds reach 0 (70 R463; log 15). -/
def modExpLoop (m : Nat) : Nat → Nat → Nat → Nat → Nat
  | 0, acc, _, _ => acc % m
  | n + 1, acc, base, e =>
    if e = 0 then acc % m
    else modExpLoop m n (if e % 2 = 1 then acc * base % m else acc) (base * base % m) (e / 2)

/-- `ModExp(b, e, m)`, for `m > 0` (R264). -/
def modExp (b e m : Nat) : Nat := modExpLoop m (bitlen e) 1 b e

/-- BN.LD (R232). -/
def execBnLd (a : BReg) (b c : XReg) (s : State) : Host.Outcome State Fault Refusal :=
  if s.inRange (s.natX b) (s.natX c) then writeFitting a (beNat (s.memRead (s.natX b) (s.natX c))) s
  else raise .memRange (s.getX b) s

/-- BN.LDI (R235). -/
def execBnLdi (a : BReg) (imm : Word) (s : State) : Host.Outcome State Fault Refusal :=
  .next (s.setB a imm.toNat).advance

/-- BN.LDK (R238): selector 0 the modulus, 1 the exponent. Any other selector is ILLEGAL at decode (30_encoding.md
R118), so a run never brings one here; the meaning raises the same fault, with the low word of the command (log 13). -/
def execBnLdk (a : BReg) (imm : Word) (s : State) : Host.Outcome State Fault Refusal :=
  if imm = 0 then .next (s.setB a (beNat s.cfg.pkModulus.toList)).advance
  else if imm = 1 then .next (s.setB a s.cfg.pkExponent.toNat).advance
  else raise .illegal (word (0x22 + 0x100 * a.val)) s

/-- How many bytes BN.ST writes: `max(X[c], bytelen(v))` (R242). -/
def bnStoreLength (v minLen : Nat) : Nat := max minLen (bytelen v)

/-- BN.ST (R242): the check is against the actual length; `X[d]` is written last. -/
def execBnSt (a : BReg) (b c d : XReg) (s : State) : Host.Outcome State Fault Refusal :=
  let v := s.getB a
  let n := bnStoreLength v (s.natX c)
  if s.inRange (s.natX b) n then .next ((s.memWrite (s.natX b) (beBytes v n)).setX d (word n)).advance
  else raise .memRange (s.getX b) s

/-- BN.CMP (R246). -/
def execBnCmp (a : XReg) (b c : BReg) (s : State) : Host.Outcome State Fault Refusal :=
  .next (s.setX a (compareResult (s.getB b) (s.getB c))).advance

/-- BN.SUB (R250). -/
def execBnSub (a b c : BReg) (s : State) : Host.Outcome State Fault Refusal :=
  if s.getB b < s.getB c then raise .bnUnderflow 0 s
  else .next (s.setB a (s.getB b - s.getB c)).advance

/-- BN.MUL (R254). -/
def execBnMul (a b c : BReg) (s : State) : Host.Outcome State Fault Refusal :=
  writeFitting a (s.getB b * s.getB c) s

/-- BN.SHL (R256). -/
def execBnShl (a b : BReg) (s : State) : Host.Outcome State Fault Refusal :=
  writeFitting a (2 * s.getB b) s

/-- BN.SHR (R257). -/
def execBnShr (a b : BReg) (s : State) : Host.Outcome State Fault Refusal :=
  .next (s.setB a (s.getB b / 2)).advance

/-- BN.PAR (R258). -/
def execBnPar (a : XReg) (b : BReg) (s : State) : Host.Outcome State Fault Refusal :=
  .next (s.setX a (parityResult (s.getB b))).advance

/-- BN.MOD (R260). -/
def execBnMod (a b c : BReg) (s : State) : Host.Outcome State Fault Refusal :=
  if s.getB c = 0 then raise .bnZeroModulus 0 s
  else .next (s.setB a (s.getB b % s.getB c)).advance

/-- BN.MODEXP (R262). -/
def execBnModexp (a b c d : BReg) (s : State) : Host.Outcome State Fault Refusal :=
  if s.getB d = 0 then raise .bnZeroModulus 0 s
  else .next (s.setB a (modExp (s.getB b) (s.getB c) (s.getB d))).advance

end Sys2Proof.Machine
end

