-- ==== Sys2Proof/Machine/Cipher.lean ====
section
/-! DEFINITION. The Feistel block-cipher unit (43_cipher.md). -/

namespace Sys2Proof.Machine

/-- The round function `F(x)` over the current `S` (R301). -/
def cipherF (s : Vector (Vector Word 256) 4) (x : Word) : Word :=
  let a := x.extractLsb' 24 8
  let b := x.extractLsb' 16 8
  let c := x.extractLsb' 8 8
  let d := x.extractLsb' 0 8
  (((s[0][a.toNat]'a.isLt + s[1][b.toNat]'b.isLt) ^^^ s[2][c.toNat]'c.isLt) + s[3][d.toNat]'d.isLt)

/-- One Feistel round with its subkey, and the swap after it (R302). -/
def cipherRound (s : Vector (Vector Word 256) 4) (lr : Word × Word) (k : Word) : Word × Word :=
  let l := lr.1 ^^^ k
  let r := lr.2 ^^^ cipherF s l
  (r, l)

/-- The network over subkeys `p` in use order: 16 rounds with `p[0..15]`, the last swap undone, then the output
whitening with `p[16]` and `p[17]` (R302). -/
def cipherNetwork (p : Vector Word 18) (s : Vector (Vector Word 256) 4) (lr : Word × Word) : Word × Word :=
  let rounds := (p.toList.take 16).foldl (cipherRound s) lr
  (rounds.2 ^^^ p[17], rounds.1 ^^^ p[16])

/-- `EncWords(L, R)` (R302). -/
def encWords (t : CipherTables) (lr : Word × Word) : Word × Word := cipherNetwork t.p t.s lr

/-- `DecWords(L, R)`: the same network with the subkeys in reverse order (R303). -/
def decWords (t : CipherTables) (lr : Word × Word) : Word × Word := cipherNetwork t.p.reverse t.s lr

/-- A block's bytes as two big-endian halves (R304). -/
def blockHalves (blk : List Byte) : Word × Word := (beWord (blk.take 4), beWord (blk.drop 4))

/-- Two halves as a block's bytes (R304). -/
def halvesBlock (lr : Word × Word) : List Byte := beBytes lr.1.toNat 4 ++ beBytes lr.2.toNat 4

/-- `EncBlock(blk)` (R304). -/
def encBlock (t : CipherTables) (blk : List Byte) : List Byte := halvesBlock (encWords t (blockHalves blk))

/-- `DecBlock(blk)` (R304). -/
def decBlock (t : CipherTables) (blk : List Byte) : List Byte := halvesBlock (decWords t (blockHalves blk))

/-- The four key bytes of subkey `i`, assembled big-endian, the key cycling (R305). After `4i + u` bytes the schedule's
running index `j` is `(4i + u) mod n` (log 14). -/
def keyWord (key : List Byte) (i : Nat) : Word :=
  beWord ((List.range 4).map fun u => key.getD ((4 * i + u) % key.length) 0)

/-- The key XORed into the initial subkeys: the schedule's first loop (R305). -/
def keyedTables (key : List Byte) : CipherTables :=
  { initTables with p := Vector.ofFn fun i : Fin 18 => initTables.p[i] ^^^ keyWord key i.val }

/-- One encryption of the running block replaces `P[2k]` and `P[2k+1]` (R305, second loop). -/
def schedulePair (st : CipherTables × (Word × Word)) (k : Fin 9) : CipherTables × (Word × Word) :=
  let lr := encWords st.1 st.2
  ({ st.1 with p := (st.1.p.set (2 * k.val) lr.1 (by omega)).set (2 * k.val + 1) lr.2 (by omega) }, lr)

/-- One encryption of the running block replaces `S[j][2k]` and `S[j][2k+1]` (R305, third loop). -/
def scheduleSPair (j : Fin 4) (st : CipherTables × (Word × Word)) (k : Fin 128) : CipherTables × (Word × Word) :=
  let lr := encWords st.1 st.2
  let box := (st.1.s[j].set (2 * k.val) lr.1 (by omega)).set (2 * k.val + 1) lr.2 (by omega)
  ({ st.1 with s := st.1.s.set j.val box j.isLt }, lr)

/-- `KeySchedule(k)` (R305), for a key of 1 to 56 bytes. Each encryption reads the tables as they are by then. -/
def keySchedule (key : List Byte) : CipherTables :=
  let afterP := (List.finRange 9).foldl schedulePair (keyedTables key, (0, 0))
  ((List.finRange 4).foldl (fun st j => (List.finRange 128).foldl (scheduleSPair j) st) afterP).1

/-- `f` applied in place to `n` blocks of 8 bytes from `addr`, ascending (R312). -/
def cryptBlocks (f : List Byte → List Byte) : Nat → Nat → Memory → Memory
  | 0, _, m => m
  | n + 1, addr, m => cryptBlocks f n (addr + 8) (m.writeBytes addr (f (m.readBytes addr 8)))

/-- The checks and the block loop that BF.ENC and BF.DEC share (R312, R314). -/
def cryptBuffer (f : CipherTables → List Byte → List Byte) (a b : XReg) (s : State) :
    Host.Outcome State Fault Refusal :=
  if s.keyed = false then raise .bfNokey 0 s
  else if s.natX b % 8 ≠ 0 then raise .bfBlocklen (s.getX b) s
  else if s.inRange (s.natX a) (s.natX b) then
    .next { s.advance with mem := cryptBlocks (f s.tables) (s.natX b / 8) (s.natX a) s.mem }
  else raise .memRange (s.getX a) s

/-- BF.KEY (R310). -/
def execBfKey (a b : XReg) (s : State) : Host.Outcome State Fault Refusal :=
  if s.natX b < 1 ∨ bfMaxKey < s.natX b then raise .bfKeylen (s.getX b) s
  else if s.inRange (s.natX a) (s.natX b) then
    .next { s.advance with tables := keySchedule (s.memRead (s.natX a) (s.natX b)), keyed := true }
  else raise .memRange (s.getX a) s

/-- BF.ENC (R312). -/
def execBfEnc (a b : XReg) (s : State) : Host.Outcome State Fault Refusal := cryptBuffer encBlock a b s

/-- BF.DEC (R314). -/
def execBfDec (a b : XReg) (s : State) : Host.Outcome State Fault Refusal := cryptBuffer decBlock a b s

end Sys2Proof.Machine
end

