-- ==== Sys2Proof/Machine/Codec.lean ====
section
/-! DEFINITION. The LZ compression codec unit (44_codec.md). -/

namespace Sys2Proof.Machine

/-- How a codec function ends, with the output produced up to that point (R341, R354). -/
inductive LzResult where
  | ok (out : List Byte)
  | invalid (out : List Byte)
  | small (out : List Byte)
deriving DecidableEq, Repr

/-- `Put` of each byte in turn: `none` after the bytes that fit when one does not (R341). -/
def lzPutAll (cap : Nat) (out : List Byte) : List Byte → Bool × List Byte
  | [] => (true, out)
  | x :: xs => if out.length = cap then (false, out) else lzPutAll cap (out ++ [x]) xs

/-- The back-reference copy, one byte at a time, each taken from the output as it is by then (R343). -/
def lzCopy (cap offset : Nat) : Nat → List Byte → Bool × List Byte
  | 0, out => (true, out)
  | n + 1, out =>
    if out.length = cap then (false, out)
    else lzCopy cap offset n (out ++ [out.getD (out.length - offset) 0])

/-- What one token does to the rest of the input and the output (R341). -/
inductive LzToken where
  | stop (r : LzResult)
  | go (rest out : List Byte)
deriving DecidableEq, Repr

/-- A literal token's data: truncated data is INVALID and none of it is appended (R344). -/
def lzLiteral (cap count : Nat) (rest out : List Byte) : LzToken :=
  if rest.length < count then .stop (.invalid out)
  else
    let r := lzPutAll cap out (rest.take count)
    if r.1 then .go (rest.drop count) r.2 else .stop (.small r.2)

/-- A back-reference: the offset is checked before any byte is copied (R344). -/
def lzBackRef (cap count offset : Nat) (rest out : List Byte) : LzToken :=
  if offset = 0 ∨ out.length < offset then .stop (.invalid out)
  else
    let r := lzCopy cap offset count out
    if r.1 then .go rest r.2 else .stop (.small r.2)

/-- One token, from its command byte (R340, R341). -/
def lzToken (cap : Nat) (cmd : Byte) (rest out : List Byte) : LzToken :=
  let c := cmd.toNat
  if c = 0 then .stop (.ok out)
  else if 0xC0 ≤ c then
    match rest with
    | [] => .stop (.invalid out)
    | lo :: rest' => lzLiteral cap ((c % 64) * 256 + lo.toNat + 1) rest' out
  else if 0x80 ≤ c then lzLiteral cap (c % 64 + 1) rest out
  else
    match rest with
    | [] => .stop (.invalid out)
    | lo :: rest' => lzBackRef cap (c / 16 % 8 + 3) ((c % 16) * 256 + lo.toNat) rest' out

/-- The token loop. Every token takes at least one byte, so as many rounds as there are bytes reach the end of the
input (R363; log 15): the case that has run out of rounds with input left does not arise. -/
def lzDecodeLoop (cap : Nat) : Nat → List Byte → List Byte → LzResult
  | _, [], out => .ok out
  | 0, _ :: _, out => .invalid out
  | n + 1, cmd :: rest, out =>
    match lzToken cap cmd rest out with
    | .stop r => r
    | .go rest' out' => lzDecodeLoop cap n rest' out'

/-- `LzDecode(src, cap)` (R341). -/
def lzDecode (src : List Byte) (cap : Nat) : LzResult := lzDecodeLoop cap src.length src []

/-- How many bytes from `pos` and from `pos - off` agree, at most `n` (R351's inner loop). -/
def lzMatchLen (s : Array Byte) (pos off : Nat) : Nat → Nat → Nat
  | 0, l => l
  | n + 1, l => if s.getD (pos + l) 0 = s.getD (pos - off + l) 0 then lzMatchLen s pos off n (l + 1) else l

/-- R351's outer loop over `n` offsets from `off` up: only a strictly longer match replaces the best. -/
def lzSearch (s : Array Byte) (pos maxlen : Nat) : Nat → Nat → Nat × Nat → Nat × Nat
  | 0, _, best => best
  | n + 1, off, best =>
    let l := lzMatchLen s pos off maxlen 0
    lzSearch s pos maxlen n (off + 1) (if best.1 < l then (l, off) else best)

/-- `LongestMatch(s, pos)`: length and offset (R351). -/
def lzLongestMatch (s : Array Byte) (pos : Nat) : Nat × Nat :=
  let maxlen := min lzMaxMatch (s.size - pos)
  if lzMinMatch ≤ maxlen then lzSearch s pos maxlen (min lzWindow pos) 1 (0, 0) else (0, 0)

/-- A match the encoder takes: long enough, and its command byte is not 0x00 (R352). -/
def lzTakes (lo : Nat × Nat) : Bool := decide (lzMinMatch ≤ lo.1) && !(lo.1 == lzMinMatch && decide (lo.2 < 256))

/-- A back-reference token's two bytes (R352, R354). -/
def lzRefToken (len off : Nat) : List Byte :=
  [BitVec.ofNat 8 ((len - 3) * 16 + off / 256), BitVec.ofNat 8 (off % 256)]

/-- A pending run as one short-literal token; nothing for an empty run (R353, R354's `Flush`). -/
def lzRunToken : List Byte → List Byte
  | [] => []
  | run => BitVec.ofNat 8 (0x80 + (run.length - 1)) :: run

/-- `Emit(t)`: a token is appended whole or not at all (R354). -/
def lzEmit (cap : Nat) (out token : List Byte) : Option (List Byte) :=
  if cap < out.length + token.length then none else some (out ++ token)

/-- The end of R354: the pending run, then the end marker. -/
def lzFinish (cap : Nat) (out run : List Byte) : LzResult :=
  match lzEmit cap out (lzRunToken run) with
  | none => .small out
  | some out1 =>
    match lzEmit cap out1 [0x00] with
    | none => .small out1
    | some out2 => .ok out2

/-- R354's loop over positions. Every round takes at least one byte, so `s.size - pos` rounds reach the end (log 15). -/
def lzEncodeLoop (s : Array Byte) (cap : Nat) : Nat → Nat → List Byte → List Byte → LzResult
  | 0, _, run, out => lzFinish cap out run
  | n + 1, pos, run, out =>
    if s.size ≤ pos then lzFinish cap out run
    else
      let lo := lzLongestMatch s pos
      if lzTakes lo then
        match lzEmit cap out (lzRunToken run) with
        | none => .small out
        | some out1 =>
          match lzEmit cap out1 (lzRefToken lo.1 lo.2) with
          | none => .small out1
          | some out2 => lzEncodeLoop s cap n (pos + lo.1) [] out2
      else
        let run' := run ++ [s.getD pos 0]
        if run'.length = lzEncMaxRun then
          match lzEmit cap out (lzRunToken run') with
          | none => .small out
          | some out1 => lzEncodeLoop s cap n (pos + 1) [] out1
        else lzEncodeLoop s cap n (pos + 1) run' out

/-- `LzEncode(s, cap)` (R354). -/
def lzEncode (src : List Byte) (cap : Nat) : LzResult := lzEncodeLoop src.toArray cap src.length 0 [] []

/-- `max_compressed_size(n)` (R360, conflict C1). -/
def maxCompressedSize (n : Nat) : Nat := n + (n + 62) / 63 + 1

/-- The ranges `[a, a+m)` and `[b, b+n)` share a byte (R348). -/
def rangesOverlap (a m b n : Nat) : Bool :=
  decide (0 < m) && decide (0 < n) && decide (a < b + n) && decide (b < a + m)

/-- What LZ.DEC and LZ.ENC share: `LzCheck` (R348), then a codec function `f` on the source bytes, then the output,
which stays written on a fault (R346, R356); `X[a]` is written on success only, and last. -/
def codecCommand (f : List Byte → Nat → LzResult) (a b c d e : XReg) (s : State) :
    Host.Outcome State Fault Refusal :=
  if !s.inRange (s.natX b) (s.natX c) then raise .memRange (s.getX b) s
  else if !s.inRange (s.natX d) (s.natX e) then raise .memRange (s.getX d) s
  else if rangesOverlap (s.natX b) (s.natX c) (s.natX d) (s.natX e) then raise .lzOverlap 0 s
  else
    match f (s.memRead (s.natX b) (s.natX c)) (s.natX e) with
    | .ok out => .next ((s.memWrite (s.natX d) out).setX a (word out.length)).advance
    | .invalid out => raise .lzInvalidData (word out.length) (s.memWrite (s.natX d) out)
    | .small out => raise .lzBufferTooSmall (word out.length) (s.memWrite (s.natX d) out)

/-- LZ.DEC (R345). -/
def execLzDec (a b c d e : XReg) (s : State) : Host.Outcome State Fault Refusal :=
  codecCommand lzDecode a b c d e s

/-- LZ.ENC (R355). -/
def execLzEnc (a b c d e : XReg) (s : State) : Host.Outcome State Fault Refusal :=
  codecCommand lzEncode a b c d e s

end Sys2Proof.Machine
end

