-- ==== Sys2Proof/Machine/Hash.lean ====
section
/-! DEFINITION. The filename hash unit (41_hash.md). -/

namespace Sys2Proof.Machine

/-- `Fold(x)`: ASCII `a` to `z` become `A` to `Z`, no other byte changes (R201). -/
def foldByte (x : Byte) : Byte := if 0x61 ≤ x ∧ x ≤ 0x7A then x - 0x20 else x

/-- One rotate and add of a group of bytes read little-endian (R200). -/
def hashMix (acc : Word) (group : List Byte) : Word := rotl32 acc 1 + leWord group

/-- The chunk loop of R200 over bytes already folded: whole groups of four, then the rest of 1 to 3. -/
def hashChunks : Word → List Byte → Word
  | acc, u0 :: u1 :: u2 :: u3 :: us => hashChunks (hashMix acc [u0, u1, u2, u3]) us
  | acc, [] => acc
  | acc, us => hashMix acc us

/-- `Hash(s)` (R200). -/
def hashBytes (bs : List Byte) : Word := hashChunks 0 (bs.map foldByte)

/-- The hash read as the archive reader's signed key, `to_s32` (R210). -/
def hashSignedKey (bs : List Byte) : Int := (hashBytes bs).toInt

/-- `Absorb(x)` on `(HACC, HPEND)` (R202). -/
def hashAbsorb (st : Word × List Byte) (x : Byte) : Word × List Byte :=
  let pend := st.2 ++ [foldByte x]
  if pend.length = 4 then (hashMix st.1 pend, []) else (st.1, pend)

/-- `Finish(HACC, HPEND)` (R203). -/
def hashFinish (acc : Word) (pend : List Byte) : Word :=
  if pend.length = 0 then acc else hashMix acc pend

/-- The streaming state set. -/
def State.setHash (s : State) (st : Word × List Byte) : State := { s with hacc := st.1, hpend := st.2 }

/-- H.INIT (R204). -/
def execHInit (s : State) : Host.Outcome State Fault Refusal := .next (s.setHash (0, [])).advance

/-- H.FEED (R205). -/
def execHFeed (a b : XReg) (s : State) : Host.Outcome State Fault Refusal :=
  if s.inRange (s.natX a) (s.natX b) then
    .next (s.setHash ((s.memRead (s.natX a) (s.natX b)).foldl hashAbsorb (s.hacc, s.hpend))).advance
  else raise .memRange (s.getX a) s

/-- H.FINAL (R206): the hash state is not changed. -/
def execHFinal (a : XReg) (s : State) : Host.Outcome State Fault Refusal :=
  .next (s.setX a (hashFinish s.hacc s.hpend)).advance

/-- H.HASH (R207): the streaming state is neither read nor written. -/
def execHHash (a b c : XReg) (s : State) : Host.Outcome State Fault Refusal :=
  if s.inRange (s.natX b) (s.natX c) then
    .next (s.setX a (hashBytes (s.memRead (s.natX b) (s.natX c)))).advance
  else raise .memRange (s.getX b) s

end Sys2Proof.Machine
end

