-- ==== Sys2Proof/Machine/Sequencer.lean ====
section
/-! DEFINITION. The sequencer commands (40_sequencer.md R152 to R159). -/

namespace Sys2Proof.Machine

/-- HALT (R152). -/
def execHalt (s : State) : Host.Outcome State Fault Refusal :=
  .next { s.advance with busy := false, done := true }

/-- NOP (R153). -/
def execNop (s : State) : Host.Outcome State Fault Refusal := .next s.advance

/-- LI (R154). -/
def execLi (a : XReg) (imm : Word) (s : State) : Host.Outcome State Fault Refusal :=
  .next (s.setX a imm).advance

/-- ADDI (R157): wraps mod 2^32. -/
def execAddi (a b : XReg) (imm : Word) (s : State) : Host.Outcome State Fault Refusal :=
  .next (s.setX a (s.getX b + imm)).advance

/-- BNZ (R155): the target is not checked here. -/
def execBnz (a : XReg) (imm : Word) (s : State) : Host.Outcome State Fault Refusal :=
  if branchTaken (s.getX a) then .next { s with cp := s.branchTarget imm } else .next s.advance

/-- JMP (R156): the target is not checked here. -/
def execJmp (imm : Word) (s : State) : Host.Outcome State Fault Refusal :=
  .next { s with cp := s.branchTarget imm }

/-- LDW (R158). -/
def execLdw (a b : XReg) (imm : Word) (s : State) : Host.Outcome State Fault Refusal :=
  let ea := s.effectiveAddress b imm
  if s.inRange ea.toNat 4 then .next (s.setX a (leWord (s.memRead ea.toNat 4))).advance
  else raise .memRange ea s

/-- STW (R159). -/
def execStw (a b : XReg) (imm : Word) (s : State) : Host.Outcome State Fault Refusal :=
  let ea := s.effectiveAddress b imm
  if s.inRange ea.toNat 4 then .next (s.memWrite ea.toNat (leBytes (s.natX a) 4)).advance
  else raise .memRange ea s

end Sys2Proof.Machine
end

