-- ==== Sys2Proof/Machine/Dispatch.lean ====
section
/-! DEFINITION. One arm per command: the meaning of each (40_sequencer.md R150, `Execute`). -/

namespace Sys2Proof.Machine

def exec (i : Instr) (s : State) : Host.Outcome State Fault Refusal :=
  match i with
  -- the sequencer (40_sequencer.md)
  | .halt => Sys2Proof.Machine.execHalt s
  | .nop => Sys2Proof.Machine.execNop s
  | .li a imm => Sys2Proof.Machine.execLi a imm s
  | .addi a b imm => Sys2Proof.Machine.execAddi a b imm s
  | .bnz a imm => Sys2Proof.Machine.execBnz a imm s
  | .jmp imm => Sys2Proof.Machine.execJmp imm s
  | .ldw a b imm => Sys2Proof.Machine.execLdw a b imm s
  | .stw a b imm => Sys2Proof.Machine.execStw a b imm s
  -- the filename hash (41_hash.md)
  | .hInit => Sys2Proof.Machine.execHInit s
  | .hFeed a b => Sys2Proof.Machine.execHFeed a b s
  | .hFinal a => Sys2Proof.Machine.execHFinal a s
  | .hHash a b c => Sys2Proof.Machine.execHHash a b c s
  -- big integers (42_bignum.md)
  | .bnLd a b c => Sys2Proof.Machine.execBnLd a b c s
  | .bnLdi a imm => Sys2Proof.Machine.execBnLdi a imm s
  | .bnLdk a imm => Sys2Proof.Machine.execBnLdk a imm s
  | .bnSt a b c d => Sys2Proof.Machine.execBnSt a b c d s
  | .bnCmp a b c => Sys2Proof.Machine.execBnCmp a b c s
  | .bnSub a b c => Sys2Proof.Machine.execBnSub a b c s
  | .bnMul a b c => Sys2Proof.Machine.execBnMul a b c s
  | .bnShl a b => Sys2Proof.Machine.execBnShl a b s
  | .bnShr a b => Sys2Proof.Machine.execBnShr a b s
  | .bnPar a b => Sys2Proof.Machine.execBnPar a b s
  | .bnMod a b c => Sys2Proof.Machine.execBnMod a b c s
  | .bnModexp a b c d => Sys2Proof.Machine.execBnModexp a b c d s
  -- the block cipher (43_cipher.md)
  | .bfKey a b => Sys2Proof.Machine.execBfKey a b s
  | .bfEnc a b => Sys2Proof.Machine.execBfEnc a b s
  | .bfDec a b => Sys2Proof.Machine.execBfDec a b s
  -- the codec (44_codec.md)
  | .lzDec a b c d e => Sys2Proof.Machine.execLzDec a b c d e s
  | .lzEnc a b c d e => Sys2Proof.Machine.execLzEnc a b c d e s

end Sys2Proof.Machine
end

