-- ==== Sys2Proof/Decode.lean ====
section
/-! DEFINITION. Decoding, total on any bytes and rejecting by name, and the encoder (30_encoding.md R110 to R121). -/

namespace Sys2Proof

open Sys2Proof.Machine (leNat leBytes)

/-- Why a word is no command (R114, R117, R118). Each raises the same fault, ILLEGAL(w[31:0]). -/
inductive DecodeError where
  /-- Fewer than 8 bytes were given; a fetch never gives fewer. -/
  | tooFewBytes
  /-- `op` is not in the opcode map (R117). -/
  | unknownOpcode
  /-- `z` is not 0 (R114). -/
  | reservedBits
  /-- A register field the opcode does not use is not 0 (R114). -/
  | unusedField
  /-- The opcode does not use `imm` and it is not 0 (R114). -/
  | unusedImmediate
  /-- BN.LDK with a selector other than 0 or 1 (R118). -/
  | badSelector
deriving DecidableEq, Repr

/-- The fields of a command word (R111). -/
structure CmdFields where
  op : Byte
  a : BitVec 4
  b : BitVec 4
  c : BitVec 4
  d : BitVec 4
  e : BitVec 4
  z : BitVec 4
  imm : Word
deriving DecidableEq, Repr

/-- The field layout of R111. -/
def cmdFields (w : CmdWord) : CmdFields :=
  { op := w.extractLsb' 0 8
    a := w.extractLsb' 8 4
    b := w.extractLsb' 12 4
    c := w.extractLsb' 16 4
    d := w.extractLsb' 20 4
    e := w.extractLsb' 24 4
    z := w.extractLsb' 28 4
    imm := w.extractLsb' 32 32 }

/-- The command word with these fields (R111): `imm` is the most significant, `op` the least. -/
def packCmd (f : CmdFields) : CmdWord :=
  f.imm ++ f.z ++ f.e ++ f.d ++ f.c ++ f.b ++ f.a ++ f.op

/-- Which fields an opcode uses (the columns of R116). -/
structure FieldUse where
  a : Bool := false
  b : Bool := false
  c : Bool := false
  d : Bool := false
  e : Bool := false
  imm : Bool := false
deriving DecidableEq, Repr

/-- One row of the opcode map. -/
structure OpRow where
  uses : FieldUse
  make : CmdFields → Instr

/-- A used register field selects a register (R115). -/
def fieldReg (f : BitVec 4) : Fin 16 := f.toFin

/-- The opcode map (R116); an opcode outside it is illegal (R117). -/
def opcodeMap (op : Byte) : Option OpRow :=
  match op.toNat with
  | 0x01 => some { uses := {}, make := fun _ => .halt }
  | 0x02 => some { uses := {}, make := fun _ => .nop }
  | 0x03 => some { uses := { a := true, imm := true }, make := fun f => .li (fieldReg f.a) f.imm }
  | 0x04 => some { uses := { a := true, b := true, imm := true }, make := fun f => .addi (fieldReg f.a) (fieldReg f.b) f.imm }
  | 0x05 => some { uses := { a := true, imm := true }, make := fun f => .bnz (fieldReg f.a) f.imm }
  | 0x06 => some { uses := { imm := true }, make := fun f => .jmp f.imm }
  | 0x07 => some { uses := { a := true, b := true, imm := true }, make := fun f => .ldw (fieldReg f.a) (fieldReg f.b) f.imm }
  | 0x08 => some { uses := { a := true, b := true, imm := true }, make := fun f => .stw (fieldReg f.a) (fieldReg f.b) f.imm }
  | 0x10 => some { uses := {}, make := fun _ => .hInit }
  | 0x11 => some { uses := { a := true, b := true }, make := fun f => .hFeed (fieldReg f.a) (fieldReg f.b) }
  | 0x12 => some { uses := { a := true }, make := fun f => .hFinal (fieldReg f.a) }
  | 0x13 => some { uses := { a := true, b := true, c := true }, make := fun f => .hHash (fieldReg f.a) (fieldReg f.b) (fieldReg f.c) }
  | 0x20 => some { uses := { a := true, b := true, c := true }, make := fun f => .bnLd (fieldReg f.a) (fieldReg f.b) (fieldReg f.c) }
  | 0x21 => some { uses := { a := true, imm := true }, make := fun f => .bnLdi (fieldReg f.a) f.imm }
  | 0x22 => some { uses := { a := true, imm := true }, make := fun f => .bnLdk (fieldReg f.a) f.imm }
  | 0x23 => some { uses := { a := true, b := true, c := true, d := true },
                   make := fun f => .bnSt (fieldReg f.a) (fieldReg f.b) (fieldReg f.c) (fieldReg f.d) }
  | 0x24 => some { uses := { a := true, b := true, c := true }, make := fun f => .bnCmp (fieldReg f.a) (fieldReg f.b) (fieldReg f.c) }
  | 0x25 => some { uses := { a := true, b := true, c := true }, make := fun f => .bnSub (fieldReg f.a) (fieldReg f.b) (fieldReg f.c) }
  | 0x26 => some { uses := { a := true, b := true, c := true }, make := fun f => .bnMul (fieldReg f.a) (fieldReg f.b) (fieldReg f.c) }
  | 0x27 => some { uses := { a := true, b := true }, make := fun f => .bnShl (fieldReg f.a) (fieldReg f.b) }
  | 0x28 => some { uses := { a := true, b := true }, make := fun f => .bnShr (fieldReg f.a) (fieldReg f.b) }
  | 0x29 => some { uses := { a := true, b := true }, make := fun f => .bnPar (fieldReg f.a) (fieldReg f.b) }
  | 0x2A => some { uses := { a := true, b := true, c := true }, make := fun f => .bnMod (fieldReg f.a) (fieldReg f.b) (fieldReg f.c) }
  | 0x2B => some { uses := { a := true, b := true, c := true, d := true },
                   make := fun f => .bnModexp (fieldReg f.a) (fieldReg f.b) (fieldReg f.c) (fieldReg f.d) }
  | 0x30 => some { uses := { a := true, b := true }, make := fun f => .bfKey (fieldReg f.a) (fieldReg f.b) }
  | 0x31 => some { uses := { a := true, b := true }, make := fun f => .bfEnc (fieldReg f.a) (fieldReg f.b) }
  | 0x32 => some { uses := { a := true, b := true }, make := fun f => .bfDec (fieldReg f.a) (fieldReg f.b) }
  | 0x40 => some { uses := { a := true, b := true, c := true, d := true, e := true },
                   make := fun f => .lzDec (fieldReg f.a) (fieldReg f.b) (fieldReg f.c) (fieldReg f.d) (fieldReg f.e) }
  | 0x41 => some { uses := { a := true, b := true, c := true, d := true, e := true },
                   make := fun f => .lzEnc (fieldReg f.a) (fieldReg f.b) (fieldReg f.c) (fieldReg f.d) (fieldReg f.e) }
  | _ => none

/-- A register field the opcode does not use is not 0 (R114). -/
def strayField (u : FieldUse) (f : CmdFields) : Bool :=
  (!u.a && f.a != 0) || (!u.b && f.b != 0) || (!u.c && f.c != 0) || (!u.d && f.d != 0) || (!u.e && f.e != 0)

/-- BN.LDK's opcode (R116). -/
def opBnLdk : Byte := 0x22

/-- The decoding procedure, in the order of R121. -/
def decodeWord (w : CmdWord) : Except DecodeError Instr :=
  let f := cmdFields w
  match opcodeMap f.op with
  | none => .error .unknownOpcode
  | some row =>
    if f.z ≠ 0 then .error .reservedBits
    else if strayField row.uses f then .error .unusedField
    else if !row.uses.imm && f.imm != 0 then .error .unusedImmediate
    else if f.op = opBnLdk ∧ ¬(f.imm = 0 ∨ f.imm = 1) then .error .badSelector
    else .ok (row.make f)

/-- The command word the first eight bytes make, `LE` (R110). -/
def wordOfBytes (bs : List Byte) : CmdWord := BitVec.ofNat 64 (leNat (bs.take 8))

/-- Decoding bytes in memory order: the first eight are the command (R110), the rest is left. -/
def decodeBytes (bs : List Byte) : Except DecodeError (Instr × List Byte) :=
  if bs.length < 8 then .error .tooFewBytes
  else match decodeWord (wordOfBytes bs) with
    | .error e => .error e
    | .ok i => .ok (i, bs.drop 8)

/-- The register field that selects `r`. -/
def regField (r : Fin 16) : BitVec 4 := BitVec.ofFin r

/-- The fields of a command (R116): unused ones are 0. -/
def instrFields : Instr → CmdFields
  | .halt => ⟨0x01, 0, 0, 0, 0, 0, 0, 0⟩
  | .nop => ⟨0x02, 0, 0, 0, 0, 0, 0, 0⟩
  | .li a imm => ⟨0x03, regField a, 0, 0, 0, 0, 0, imm⟩
  | .addi a b imm => ⟨0x04, regField a, regField b, 0, 0, 0, 0, imm⟩
  | .bnz a imm => ⟨0x05, regField a, 0, 0, 0, 0, 0, imm⟩
  | .jmp imm => ⟨0x06, 0, 0, 0, 0, 0, 0, imm⟩
  | .ldw a b imm => ⟨0x07, regField a, regField b, 0, 0, 0, 0, imm⟩
  | .stw a b imm => ⟨0x08, regField a, regField b, 0, 0, 0, 0, imm⟩
  | .hInit => ⟨0x10, 0, 0, 0, 0, 0, 0, 0⟩
  | .hFeed a b => ⟨0x11, regField a, regField b, 0, 0, 0, 0, 0⟩
  | .hFinal a => ⟨0x12, regField a, 0, 0, 0, 0, 0, 0⟩
  | .hHash a b c => ⟨0x13, regField a, regField b, regField c, 0, 0, 0, 0⟩
  | .bnLd a b c => ⟨0x20, regField a, regField b, regField c, 0, 0, 0, 0⟩
  | .bnLdi a imm => ⟨0x21, regField a, 0, 0, 0, 0, 0, imm⟩
  | .bnLdk a imm => ⟨0x22, regField a, 0, 0, 0, 0, 0, imm⟩
  | .bnSt a b c d => ⟨0x23, regField a, regField b, regField c, regField d, 0, 0, 0⟩
  | .bnCmp a b c => ⟨0x24, regField a, regField b, regField c, 0, 0, 0, 0⟩
  | .bnSub a b c => ⟨0x25, regField a, regField b, regField c, 0, 0, 0, 0⟩
  | .bnMul a b c => ⟨0x26, regField a, regField b, regField c, 0, 0, 0, 0⟩
  | .bnShl a b => ⟨0x27, regField a, regField b, 0, 0, 0, 0, 0⟩
  | .bnShr a b => ⟨0x28, regField a, regField b, 0, 0, 0, 0, 0⟩
  | .bnPar a b => ⟨0x29, regField a, regField b, 0, 0, 0, 0, 0⟩
  | .bnMod a b c => ⟨0x2A, regField a, regField b, regField c, 0, 0, 0, 0⟩
  | .bnModexp a b c d => ⟨0x2B, regField a, regField b, regField c, regField d, 0, 0, 0⟩
  | .bfKey a b => ⟨0x30, regField a, regField b, 0, 0, 0, 0, 0⟩
  | .bfEnc a b => ⟨0x31, regField a, regField b, 0, 0, 0, 0, 0⟩
  | .bfDec a b => ⟨0x32, regField a, regField b, 0, 0, 0, 0, 0⟩
  | .lzDec a b c d e => ⟨0x40, regField a, regField b, regField c, regField d, regField e, 0, 0⟩
  | .lzEnc a b c d e => ⟨0x41, regField a, regField b, regField c, regField d, regField e, 0, 0⟩

/-- The command word of an instruction. -/
def encode (i : Instr) : CmdWord := packCmd (instrFields i)

/-- The eight bytes of an instruction in memory order (R110, R111). -/
def encodeBytes (i : Instr) : List Byte := leBytes (encode i).toNat 8

/-- One row's `match` and `mask` (R116, spec/opcode_table.json). -/
structure MatchMask where
  mnemonic : String
  pattern : CmdWord
  mask : CmdWord
deriving DecidableEq, Repr

/-- The opcode table's rows with the sequencer's and the hash unit's commands. -/
def matchMaskSeqHash : List MatchMask :=
  [ ⟨"HALT", 0x01, 0xFFFFFFFFFFFFFFFF⟩
  , ⟨"NOP", 0x02, 0xFFFFFFFFFFFFFFFF⟩
  , ⟨"LI", 0x03, 0x00000000FFFFF0FF⟩
  , ⟨"ADDI", 0x04, 0x00000000FFFF00FF⟩
  , ⟨"BNZ", 0x05, 0x00000000FFFFF0FF⟩
  , ⟨"JMP", 0x06, 0x00000000FFFFFFFF⟩
  , ⟨"LDW", 0x07, 0x00000000FFFF00FF⟩
  , ⟨"STW", 0x08, 0x00000000FFFF00FF⟩
  , ⟨"H.INIT", 0x10, 0xFFFFFFFFFFFFFFFF⟩
  , ⟨"H.FEED", 0x11, 0xFFFFFFFFFFFF00FF⟩
  , ⟨"H.FINAL", 0x12, 0xFFFFFFFFFFFFF0FF⟩
  , ⟨"H.HASH", 0x13, 0xFFFFFFFFFFF000FF⟩ ]

/-- The opcode table's rows of the big-integer, cipher and codec units. -/
def matchMaskBnBfLz : List MatchMask :=
  [ ⟨"BN.LD", 0x20, 0xFFFFFFFFFFF000FF⟩
  , ⟨"BN.LDI", 0x21, 0x00000000FFFFF0FF⟩
  , ⟨"BN.LDK", 0x22, 0x00000000FFFFF0FF⟩
  , ⟨"BN.ST", 0x23, 0xFFFFFFFFFF0000FF⟩
  , ⟨"BN.CMP", 0x24, 0xFFFFFFFFFFF000FF⟩
  , ⟨"BN.SUB", 0x25, 0xFFFFFFFFFFF000FF⟩
  , ⟨"BN.MUL", 0x26, 0xFFFFFFFFFFF000FF⟩
  , ⟨"BN.SHL", 0x27, 0xFFFFFFFFFFFF00FF⟩
  , ⟨"BN.SHR", 0x28, 0xFFFFFFFFFFFF00FF⟩
  , ⟨"BN.PAR", 0x29, 0xFFFFFFFFFFFF00FF⟩
  , ⟨"BN.MOD", 0x2A, 0xFFFFFFFFFFF000FF⟩
  , ⟨"BN.MODEXP", 0x2B, 0xFFFFFFFFFF0000FF⟩
  , ⟨"BF.KEY", 0x30, 0xFFFFFFFFFFFF00FF⟩
  , ⟨"BF.ENC", 0x31, 0xFFFFFFFFFFFF00FF⟩
  , ⟨"BF.DEC", 0x32, 0xFFFFFFFFFFFF00FF⟩
  , ⟨"LZ.DEC", 0x40, 0xFFFFFFFFF00000FF⟩
  , ⟨"LZ.ENC", 0x41, 0xFFFFFFFFF00000FF⟩ ]

/-- The `match` and `mask` of every row of the opcode table. -/
def matchMaskTable : List MatchMask := matchMaskSeqHash ++ matchMaskBnBfLz

/-- What the host asks of the decoder: the instruction read from an instruction whose low `nbits` bits are `w`'s and
whose other bits are 0, laid out as the hardware stores it (R110). -/
def decodeTableWord (nbits w : Nat) : Option Instr :=
  match decodeBytes (leBytes (w % 2 ^ nbits) 8) with
  | .ok (i, _) => some i
  | .error _ => none

end Sys2Proof
end

