-- ==== Sys2Proof/Machine/Fetch.lean ====
section
/-! DEFINITION. Fetching a command (40_sequencer.md R151), and how a command comes to stand where the next step fetches. -/

namespace Sys2Proof.Machine

/-- `Fetch(cp)` and `Decode` (R150, R151): the command, or the fault and its info word, in the order of
60_exceptions.md R402. -/
def State.fetchInstr (s : State) : Except (FaultCause × Word) Instr :=
  if s.cp.toNat % 8 ≠ 0 then .error (.fetchMisaligned, s.cp)
  else if !s.inRange s.cp.toNat 8 then .error (.fetchRange, s.cp)
  else
    let bytes := s.memRead s.cp.toNat 8
    match decodeBytes bytes with
    | .ok (i, _) => .ok i
    | .error _ => .error (.illegal, (wordOfBytes bytes).extractLsb' 0 32)

/-- `cp` names a place a command can be fetched from (R151). -/
def State.fetchable (s : State) : Bool := s.cp.toNat % 8 == 0 && s.inRange s.cp.toNat 8

/-- A program loaded from outside and launched, as far as the next step needs it (70 R455, R456; log 12): the bytes
`bs` at `cp` (at the reset entry point 0 if nothing can be fetched at `cp`), nothing recorded from an earlier run, the
sequencer running, and the turn its own. -/
def State.launchWith (s : State) (bs : List Byte) : State :=
  let cp := if s.fetchable then s.cp else 0
  { s with
    cp := cp
    mem := s.mem.writeBytes cp.toNat bs
    busy := true
    done := false
    faulted := false
    faultCode := 0
    faultCp := 0
    faultInfo := 0
    hostTurns := [] }

end Sys2Proof.Machine
end

