-- ==== Sys2Proof/Machine/HostPort.lean ====
section
/-! DEFINITION. The host's register port and memory port, and soft reset (10_state.md R50 to R64, 20_memory.md R90, R91,
70_reset_and_hazards.md R452, R470). -/

namespace Sys2Proof.Machine

/-- The interrupt line, a level (10_state.md R43, 60_exceptions.md R420). -/
def State.irq (s : State) : Bool := s.irqEn && (s.done || s.faulted)

/-- `SoftReset()` (70 R452): everything but local memory; `P` and `S` take any value, drawn free (log 3). The
parameters and the host's own turns and replies are not the block's to reset. -/
def State.softReset (s : State) : State :=
  { State.powerOn s.cfg s.mem
      { p := Vector.ofFn fun i => Config.freeP s.freeDraws i
        s := Vector.ofFn fun k => Vector.ofFn fun j => Config.freeS s.freeDraws k j } with
    hostTurns := s.hostTurns
    hostReplies := s.hostReplies
    freeDraws := s.freeDraws + 1 }

/-- VERSION (R60). -/
def versionWord : Word := 1

/-- What a read of CTRL returns (R61). -/
def State.ctrlWord (s : State) : Word := word (s.irqEn.toNat * 2 ^ 8)

/-- What a read of STATUS returns (R62). -/
def State.statusWord (s : State) : Word :=
  word (s.busy.toNat + s.done.toNat * 2 + s.faulted.toNat * 2 ^ 2 + s.hostErr.toNat * 2 ^ 3 + s.keyed.toNat * 2 ^ 4
    + s.hpend.length % 4 * 2 ^ 5 + s.irq.toNat * 2 ^ 8)

/-- A host write of `w` to CTRL (R61): SRST first and alone; else IRQ_EN, then ACK, then START. -/
def State.writeCtrl (s : State) (w : Word) : State :=
  if w.getLsbD 2 then s.softReset
  else
    let s1 := { s with irqEn := w.getLsbD 8 }
    let s2 := if w.getLsbD 1 then s1.acknowledge else s1
    if w.getLsbD 0 then s2.start else s2

/-- The registers of the register block (R51). -/
inductive HostReg where
  | version | ctrl | status | cp | faultCode | faultCp | faultInfo | memSize | bnLimbs
  | x (r : XReg)
  | reserved
deriving DecidableEq, Repr

/-- The register map (R51), for a 4-aligned offset. -/
def hostRegAt (offset : Word) : HostReg :=
  match offset.toNat with
  | 0x000 => .version
  | 0x004 => .ctrl
  | 0x008 => .status
  | 0x00C => .cp
  | 0x010 => .faultCode
  | 0x014 => .faultCp
  | 0x018 => .faultInfo
  | 0x01C => .memSize
  | 0x020 => .bnLimbs
  | n => if 0x040 ≤ n ∧ n < 0x080 then .x (Fin.ofNat 16 ((n - 0x040) / 4)) else .reserved

/-- BNLIMBS (10_state.md R64): `BN_LIMBS`. R8 sets no upper bound, and R64 states no value for a `BN_LIMBS` that 32 bits
do not hold: there the value is free, DESIGN CHOICE (log 23). -/
def State.bnLimbsWord (s : State) : Word :=
  if s.cfg.bnLimbs < 2 ^ 32 then word s.cfg.bnLimbs else Config.freeBnLimbs s.cfg.bnLimbs

/-- The value read when the busy rule lets it through (R51, R60 to R64). -/
def State.hostRegValue (s : State) : HostReg → Word
  | .version => versionWord
  | .ctrl => s.ctrlWord
  | .status => s.statusWord
  | .cp => s.cp
  | .faultCode => s.faultCode
  | .faultCp => s.faultCp
  | .faultInfo => s.faultInfo
  | .memSize => word s.cfg.memSize
  | .bnLimbs => s.bnLimbsWord
  | .x r => s.getX r
  | .reserved => 0

/-- The registers the busy rule guards (R51's last column). -/
def HostReg.busyRule : HostReg → Bool
  | .cp | .x _ => true
  | .version | .ctrl | .status | .faultCode | .faultCp | .faultInfo | .memSize | .bnLimbs | .reserved => false

/-- A host read of a register: the value and the state after (R63). -/
def State.hostReadReg (s : State) (reg : HostReg) : Word × State :=
  if s.busy && reg.busyRule then (0, { s with hostErr := true }) else (s.hostRegValue reg, s)

/-- A host write of a register (R51, R61, R63): read-only registers and reserved offsets ignore it. -/
def State.hostWriteReg (s : State) (reg : HostReg) (w : Word) : State :=
  if s.busy && reg.busyRule then { s with hostErr := true }
  else
    match reg with
    | .ctrl => s.writeCtrl w
    | .cp => { s with cp := w }
    | .x r => s.setX r w
    | .version | .status | .faultCode | .faultCp | .faultInfo | .memSize | .bnLimbs | .reserved => s

/-- One byte as the memory port reads it: addresses past the end read as 0 (20 R90). -/
def State.portByte (s : State) (a : Nat) : Byte := if a < s.cfg.memSize then s.byteAt a else 0

/-- `HostRead(addr, n)` (R90, R91). -/
def State.hostReadMem (s : State) (addr n : Nat) : List Byte × State :=
  if s.busy then (List.replicate n 0, { s with hostErr := true })
  else
    ((List.range n).map fun k => s.portByte (addr + k), if s.inRange addr n then s else { s with hostErr := true })

/-- `HostWrite(addr, n, bs)` (R90, R91): the bytes that fall past the end are dropped. -/
def State.hostWriteMem (s : State) (addr : Nat) (bs : List Byte) : State :=
  if s.busy then { s with hostErr := true }
  else if s.inRange addr bs.length then s.memWrite addr bs
  else { s.memWrite addr (bs.take (s.cfg.memSize - addr)) with hostErr := true }

/-- The register port takes only 32-bit accesses at 4-aligned offsets (10_state.md R50). -/
def portAccessOk (offset : Word) (bytes : Nat) : Bool := bytes == 4 && offset.toNat % 4 == 0

/-- A reply recorded for the host (log 8). -/
def State.reply (s : State) (r : HostReply) : State := { s with hostReplies := s.hostReplies ++ [r] }

/-- One host action, one atomic transition (70 R470). A register access of another width or alignment is refused
(10_state.md R50, 70 R472; log 11). -/
def hostAct (action : HostAction) (s : State) : Host.Outcome State Fault Refusal :=
  match action with
  | .readReg offset bytes =>
    if portAccessOk offset bytes then
      let r := s.hostReadReg (hostRegAt offset)
      .next (r.2.reply (.reg r.1))
    else .refused (.hostAccessOutsideProtocol offset bytes)
  | .writeReg offset bytes value =>
    if portAccessOk offset bytes then .next (s.hostWriteReg (hostRegAt offset) value)
    else .refused (.hostAccessOutsideProtocol offset bytes)
  | .readMem addr n =>
    let r := s.hostReadMem addr.toNat n
    .next (r.2.reply (.mem r.1))
  | .writeMem addr bs => .next (s.hostWriteMem addr.toNat bs)

end Sys2Proof.Machine
end

