-- ==== Sys2Proof/Machine/SequencerStep.lean ====
section
/-! DEFINITION. The sequencer's step, and whose turn it is (40_sequencer.md R150, 70_reset_and_hazards.md R470). -/

namespace Sys2Proof.Machine

/-- `Step()` (R150): while busy, fetch, decode, execute; a raise in fetch or decode is fault entry. While idle, nothing
(log 9). -/
def sequencerStep (s : State) : Host.Outcome State Fault Refusal :=
  if s.busy then
    match s.fetchInstr with
    | .ok i => exec i s
    | .error (cause, info) => raise cause info s
  else .next s

/-- One transition: the host's action if the next turn is the host's, else the sequencer's step (log 7). -/
def turnStep (s : State) : Host.Outcome State Fault Refusal :=
  match s.hostTurns with
  | [] => sequencerStep s
  | .letRun :: rest => sequencerStep { s with hostTurns := rest }
  | .act action :: rest => hostAct action { s with hostTurns := rest }

end Sys2Proof.Machine
end

