-- ==== Sys2Proof/Machine/Step.lean ====
section
/-! DEFINITION. The machine's step, and the placing of one command where it fetches next. -/

namespace Sys2Proof.Machine

/-- One step of the machine: one sequencer step or one host action (70_reset_and_hazards.md R470). -/
def step (s : State) : Host.Outcome State Fault Refusal := turnStep s

/-- `s` with the command whose low `nbits` bits are `w`'s, the rest 0, loaded and launched so that the next step runs
exactly it (log 12). -/
def State.withFetchWord (s : State) (nbits w : Nat) : State := s.launchWith (leBytes (w % 2 ^ nbits) 8)

end Sys2Proof.Machine
end

