-- ==== Sys2Proof/WellFormed.lean ====
section
/-! DEFINITION. Which commands an encoding can stand for, and which configurations the spec allows. -/

namespace Sys2Proof

/-- The only check a command's operands need: BN.LDK's selector is 0 or 1 (30_encoding.md R118). Every other operand
value of the syntax is encodable (R113, R115). -/
def Instr.wellFormed : Instr → Bool
  | .bnLdk _ imm => imm == 0 || imm == 1
  | .halt | .nop | .li .. | .addi .. | .bnz .. | .jmp .. | .ldw .. | .stw .. => true
  | .hInit | .hFeed .. | .hFinal .. | .hHash .. => true
  | .bnLd .. | .bnLdi .. | .bnSt .. | .bnCmp .. | .bnSub .. | .bnMul .. | .bnShl .. | .bnShr .. => true
  | .bnPar .. | .bnMod .. | .bnModexp .. | .bfKey .. | .bfEnc .. | .bfDec .. | .lzDec .. | .lzEnc .. => true

/-- The configurations 00_scope.md R8 allows: `MEM_SIZE` a multiple of 8 from 8 to 2^32, `BN_LIMBS` at least 20. -/
def Config.valid (c : Config) : Bool :=
  c.memSize % 8 == 0 && decide (8 ≤ c.memSize) && decide (c.memSize ≤ 2 ^ 32) && decide (20 ≤ c.bnLimbs)

end Sys2Proof
end

