-- ==== Sys2Proof/Safety.lean ====
section
/-! DEFINITION. The words claims are made in: the machine's invariant, frames, how a run ends. -/

namespace Sys2Proof.Machine

/-- What holds of every state the hardware can be in. -/
structure State.Inv (s : State) : Prop where
  /-- The parameters are ones the spec allows (00_scope.md R8). -/
  config : s.cfg.valid = true
  /-- Every B register is below its capacity (10_state.md R32). -/
  capacity : ∀ r, s.getB r < s.cfg.bnCapacity
  /-- `HPEND` holds 0 to 3 bytes (R38). -/
  pendLength : s.hpend.length ≤ 3
  /-- The bytes of `HPEND` are case-folded (R38). -/
  pendFolded : ∀ x ∈ s.hpend, foldByte x = x
  /-- `busy`, `done` and `faulted` are never 1 together (R37). -/
  notBusyDone : ¬(s.busy = true ∧ s.done = true)
  notBusyFaulted : ¬(s.busy = true ∧ s.faulted = true)
  notDoneFaulted : ¬(s.done = true ∧ s.faulted = true)
  /-- A fault is recorded exactly while `faulted` (R42): the codes are 1 to 13 (60_exceptions.md R400). -/
  recorded : s.faulted = true → 1 ≤ s.faultCode.toNat ∧ s.faultCode.toNat ≤ 13
  unrecorded : s.faulted = false → s.faultCode = 0 ∧ s.faultCp = 0 ∧ s.faultInfo = 0
  /-- Memory is in its canonical form. -/
  canonical : s.mem.wf = true
  /-- Memory lists no address past its end (20_memory.md R80). -/
  inMemory : s.mem.below s.cfg.memSize = true

/-! Frames: what a command leaves as it was, said through the reads a program has. -/

/-- Every X register keeps its value. -/
def keepsX (s t : State) : Prop := ∀ r, t.getX r = s.getX r

/-- `X[a]` takes the value `v` and every other X register keeps its own. -/
def writesX (a : XReg) (v : Word) (s t : State) : Prop := ∀ r, t.getX r = if r = a then v else s.getX r

/-- Every B register keeps its value. -/
def keepsB (s t : State) : Prop := ∀ r, t.getB r = s.getB r

/-- `B[a]` takes the value `v` and every other B register keeps its own. -/
def writesB (a : BReg) (v : Nat) (s t : State) : Prop := ∀ r, t.getB r = if r = a then v else s.getB r

/-- Every byte of memory keeps its value. -/
def keepsMem (s t : State) : Prop := ∀ n, t.byteAt n = s.byteAt n

/-- The bytes `bs` stand at `addr` and every byte outside them keeps its value. -/
def writesMem (addr : Nat) (bs : List Byte) (s t : State) : Prop :=
  (∀ k, k < bs.length → t.byteAt (addr + k) = bs.getD k 0) ∧
    ∀ n, n < addr ∨ addr + bs.length ≤ n → t.byteAt n = s.byteAt n

/-- The hash unit's state keeps its value (10_state.md R38). -/
def keepsHash (s t : State) : Prop := t.hacc = s.hacc ∧ t.hpend = s.hpend

/-- The cipher unit's state keeps its value (R39). -/
def keepsCipher (s t : State) : Prop := t.keyed = s.keyed ∧ t.tables = s.tables

/-- The run state keeps its value (R37). -/
def keepsRun (s t : State) : Prop :=
  t.busy = s.busy ∧ t.done = s.done ∧ t.faulted = s.faulted ∧ t.hostErr = s.hostErr

/-- The fault record keeps its value (R42). -/
def keepsRecord (s t : State) : Prop :=
  t.faultCode = s.faultCode ∧ t.faultCp = s.faultCp ∧ t.faultInfo = s.faultInfo

/-- What is the host's keeps its value: the interrupt enable (R43), the parameters, the turns to come, the replies, the
count of free values drawn. -/
def keepsHost (s t : State) : Prop :=
  t.irqEn = s.irqEn ∧ t.cfg = s.cfg ∧ t.hostTurns = s.hostTurns ∧ t.hostReplies = s.hostReplies ∧
    t.freeDraws = s.freeDraws

/-- The run goes on with `cp` at `target`: run state, fault record and the host's part keep their values. -/
def continuesAt (target : Word) (s t : State) : Prop :=
  t.cp = target ∧ keepsRun s t ∧ keepsRecord s t ∧ keepsHost s t

/-- Only `cp` changes, to `target`. -/
def onlyCp (target : Word) (s t : State) : Prop :=
  keepsX s t ∧ keepsB s t ∧ keepsMem s t ∧ keepsHash s t ∧ keepsCipher s t ∧ continuesAt target s t

/-- Only `X[a]` changes, to `v`, and the run goes on with the next command. -/
def onlyX (a : XReg) (v : Word) (s t : State) : Prop :=
  writesX a v s t ∧ keepsB s t ∧ keepsMem s t ∧ keepsHash s t ∧ keepsCipher s t ∧ continuesAt (s.cp + 8) s t

/-- Only `B[a]` changes, to `v`, and the run goes on with the next command. -/
def onlyB (a : BReg) (v : Nat) (s t : State) : Prop :=
  keepsX s t ∧ writesB a v s t ∧ keepsMem s t ∧ keepsHash s t ∧ keepsCipher s t ∧ continuesAt (s.cp + 8) s t

/-- Only the bytes `bs` at `addr` change, and the run goes on with the next command. -/
def onlyMem (addr : Nat) (bs : List Byte) (s t : State) : Prop :=
  keepsX s t ∧ keepsB s t ∧ writesMem addr bs s t ∧ keepsHash s t ∧ keepsCipher s t ∧ continuesAt (s.cp + 8) s t

/-- Only the bytes `bs` at `addr` and `X[a]`, to `v`, change, and the run goes on with the next command. -/
def onlyMemX (addr : Nat) (bs : List Byte) (a : XReg) (v : Word) (s t : State) : Prop :=
  writesX a v s t ∧ keepsB s t ∧ writesMem addr bs s t ∧ keepsHash s t ∧ keepsCipher s t ∧ continuesAt (s.cp + 8) s t

/-- Only the hash unit's state changes, to `acc` and `pend`, and the run goes on with the next command. -/
def onlyHash (acc : Word) (pend : List Byte) (s t : State) : Prop :=
  keepsX s t ∧ keepsB s t ∧ keepsMem s t ∧ t.hacc = acc ∧ t.hpend = pend ∧ keepsCipher s t ∧
    continuesAt (s.cp + 8) s t

/-- Only the cipher unit's state changes, to keyed with `tables`, and the run goes on with the next command. -/
def onlyCipher (tables : CipherTables) (s t : State) : Prop :=
  keepsX s t ∧ keepsB s t ∧ keepsMem s t ∧ keepsHash s t ∧ t.keyed = true ∧ t.tables = tables ∧
    continuesAt (s.cp + 8) s t

/-- Fault entry's record and run state (60_exceptions.md R410): the code, the command's own `cp`, the info word;
`faulted` set, `busy` cleared, `cp` unchanged; everything outside memory as it was. -/
def entersFault (code : Nat) (info : Word) (s t : State) : Prop :=
  keepsX s t ∧ keepsB s t ∧ keepsHash s t ∧ keepsCipher s t ∧ keepsHost s t ∧
    t.faultCode = BitVec.ofNat 32 code ∧ t.faultCp = s.cp ∧ t.faultInfo = info ∧
    t.faulted = true ∧ t.busy = false ∧ t.done = s.done ∧ t.hostErr = s.hostErr ∧ t.cp = s.cp

/-- A precise fault with no effect of the command visible (R410). -/
def onlyFault (code : Nat) (info : Word) (s t : State) : Prop := entersFault code info s t ∧ keepsMem s t

/-- The number of the command word with these fields and `z = 0` (30_encoding.md R111). -/
def cmdNumber (op a b c d e imm : Nat) : Nat :=
  op + 2 ^ 8 * a + 2 ^ 12 * b + 2 ^ 16 * c + 2 ^ 20 * d + 2 ^ 24 * e + 2 ^ 32 * imm

/-- Commands executed one after another, stopping at the first that does not answer a next state. -/
def execSeq : List Instr → State → Host.Outcome State Fault Refusal
  | [], s => .next s
  | i :: is, s =>
    match exec i s with
    | .next t => execSeq is t
    | .fault r => .fault r
    | .refused r => .refused r

/-- The start of a clean launch (70_reset_and_hazards.md R456): nothing recorded, nothing running. -/
def cleanLaunch (s : State) : Prop :=
  s.busy = false ∧ s.faulted = false ∧ s.done = false ∧ s.hostErr = false

/-- What a soft reset leaves (R452): everything as after power-on reset but local memory, which stays. -/
def softlyReset (s t : State) : Prop :=
  t.busy = false ∧ t.done = false ∧ t.faulted = false ∧ t.hostErr = false ∧ (∀ r, t.getX r = 0) ∧ (∀ r, t.getB r = 0) ∧
    t.cp = 0 ∧ t.hacc = 0 ∧ t.hpend = [] ∧ t.keyed = false ∧ t.faultCode = 0 ∧ t.faultCp = 0 ∧ t.faultInfo = 0 ∧
    t.irqEn = false ∧ keepsMem s t ∧ t.cfg = s.cfg

/-- A run's end by HALT (R471). -/
def endedDone (s : State) : Prop := s.busy = false ∧ s.done = true ∧ s.faulted = false

/-- A run's end by a fault (R471): not a successful end. -/
def endedFaulted (s : State) : Prop := s.busy = false ∧ s.done = false ∧ s.faulted = true

/-- The sequencer goes on. -/
def running (s : State) : Prop := s.busy = true ∧ s.done = false ∧ s.faulted = false

/-- Two bytes equal but for the case of an ASCII letter (41_hash.md R209). -/
def sameButCase (x y : Byte) : Prop :=
  x = y ∨ (0x41 ≤ x.toNat ∧ x.toNat ≤ 0x5A ∧ y.toNat = x.toNat + 0x20) ∨
    (0x41 ≤ y.toNat ∧ y.toNat ≤ 0x5A ∧ x.toNat = y.toNat + 0x20)

/-! Which state a command may write (10_state.md R32, R38, R39; 20_memory.md R98). -/

/-- The commands with a B register as destination, and which. -/
def destB : Instr → Option BReg
  | .bnLd a _ _ | .bnLdi a _ | .bnLdk a _ | .bnSub a _ _ | .bnMul a _ _ | .bnShl a _ | .bnShr a _ | .bnMod a _ _
  | .bnModexp a _ _ _ => some a
  | .halt | .nop | .li .. | .addi .. | .bnz .. | .jmp .. | .ldw .. | .stw .. | .hInit | .hFeed .. | .hFinal ..
  | .hHash .. | .bnSt .. | .bnCmp .. | .bnPar .. | .bfKey .. | .bfEnc .. | .bfDec .. | .lzDec .. | .lzEnc .. => none

/-- The commands with an X register as destination, and which. -/
def destX : Instr → Option XReg
  | .li a _ | .addi a _ _ | .ldw a _ _ | .hFinal a | .hHash a _ _ | .bnCmp a _ _ | .bnPar a _ => some a
  | .bnSt _ _ _ d => some d
  | .lzDec a _ _ _ _ | .lzEnc a _ _ _ _ => some a
  | .halt | .nop | .bnz .. | .jmp .. | .stw .. | .hInit | .hFeed .. | .bnLd .. | .bnLdi .. | .bnLdk ..
  | .bnSub .. | .bnMul .. | .bnShl .. | .bnShr .. | .bnMod .. | .bnModexp .. | .bfKey .. | .bfEnc ..
  | .bfDec .. => none

/-- The commands that change the streaming hash. -/
def writesHashState : Instr → Bool
  | .hInit | .hFeed .. => true
  | .halt | .nop | .li .. | .addi .. | .bnz .. | .jmp .. | .ldw .. | .stw .. | .hFinal .. | .hHash ..
  | .bnLd .. | .bnLdi .. | .bnLdk .. | .bnSt .. | .bnCmp .. | .bnSub .. | .bnMul .. | .bnShl .. | .bnShr ..
  | .bnPar .. | .bnMod .. | .bnModexp .. | .bfKey .. | .bfEnc .. | .bfDec .. | .lzDec .. | .lzEnc .. => false

/-- The command that changes the cipher state. -/
def writesCipherState : Instr → Bool
  | .bfKey .. => true
  | .halt | .nop | .li .. | .addi .. | .bnz .. | .jmp .. | .ldw .. | .stw .. | .hInit | .hFeed .. | .hFinal ..
  | .hHash .. | .bnLd .. | .bnLdi .. | .bnLdk .. | .bnSt .. | .bnCmp .. | .bnSub .. | .bnMul .. | .bnShl ..
  | .bnShr .. | .bnPar .. | .bnMod .. | .bnModexp .. | .bfEnc .. | .bfDec .. | .lzDec .. | .lzEnc .. => false

/-- The commands that store to memory, and the range they may store to: address and length. What the codec writes lies
in its destination buffer. -/
def storeRange (s : State) : Instr → Option (Nat × Nat)
  | .stw _ b imm => some ((s.effectiveAddress b imm).toNat, 4)
  | .bnSt a b c _ => some (s.natX b, bnStoreLength (s.getB a) (s.natX c))
  | .bfEnc a b | .bfDec a b => some (s.natX a, s.natX b)
  | .lzDec _ _ _ d e | .lzEnc _ _ _ d e => some (s.natX d, s.natX e)
  | .halt | .nop | .li .. | .addi .. | .bnz .. | .jmp .. | .ldw .. | .hInit | .hFeed .. | .hFinal ..
  | .hHash .. | .bnLd .. | .bnLdi .. | .bnLdk .. | .bnCmp .. | .bnSub .. | .bnMul .. | .bnShl .. | .bnShr ..
  | .bnPar .. | .bnMod .. | .bnModexp .. | .bfKey .. => none

/-! Which fault a step raises: the checks in the order the step makes them (60_exceptions.md R402, R405), each with the
code and the info word R400 gives it. -/

/-- One check: whether it finds its fault, and that fault's code and info word. -/
structure FaultCheck where
  /-- The cause of R400 is there. -/
  found : Bool
  /-- `FAULT_CODE`. -/
  code : Nat
  /-- `FAULT_INFO`. -/
  info : Word
deriving DecidableEq, Repr

/-- MEM_RANGE of the `n` bytes at `addr`; the info word is the range's start. -/
def rangeCheck (s : State) (addr : Word) (n : Nat) : FaultCheck :=
  ⟨decide (s.cfg.memSize < addr.toNat + n), 4, addr⟩

/-- BN_OVERFLOW of a result. -/
def overflowCheck (s : State) (v : Nat) : FaultCheck := ⟨decide (2 ^ (32 * s.cfg.bnLimbs) ≤ v), 5, 0⟩

/-- The two ranges of an LZ command, LZ_OVERLAP, and the error of its codec function `f`, if any, with the count of bytes
produced before it. -/
def codecChecks (s : State) (f : List Byte → Nat → LzResult) (b c d e : XReg) : List FaultCheck :=
  [rangeCheck s (s.getX b) (s.natX c), rangeCheck s (s.getX d) (s.natX e),
    ⟨rangesOverlap (s.natX b) (s.natX c) (s.natX d) (s.natX e), 13, 0⟩] ++
  match f (s.memRead (s.natX b) (s.natX c)) (s.natX e) with
  | .ok _ => []
  | .invalid out => [⟨true, 11, word out.length⟩]
  | .small out => [⟨true, 12, word out.length⟩]

/-- The checks of each command (R402's table). -/
def commandChecks (s : State) : Instr → List FaultCheck
  | .halt | .nop | .li .. | .addi .. | .bnz .. | .jmp .. | .hInit | .hFinal .. | .bnLdi .. | .bnLdk .. | .bnCmp ..
  | .bnShr .. | .bnPar .. => []
  | .ldw _ b imm | .stw _ b imm => [rangeCheck s (s.effectiveAddress b imm) 4]
  | .hFeed a b => [rangeCheck s (s.getX a) (s.natX b)]
  | .hHash _ b c => [rangeCheck s (s.getX b) (s.natX c)]
  | .bnLd _ b c => [rangeCheck s (s.getX b) (s.natX c), overflowCheck s (beNat (s.memRead (s.natX b) (s.natX c)))]
  | .bnSt a b c _ => [rangeCheck s (s.getX b) (bnStoreLength (s.getB a) (s.natX c))]
  | .bnSub _ b c => [⟨decide (s.getB b < s.getB c), 6, 0⟩]
  | .bnMul _ b c => [overflowCheck s (s.getB b * s.getB c)]
  | .bnShl _ b => [overflowCheck s (2 * s.getB b)]
  | .bnMod _ _ c => [⟨decide (s.getB c = 0), 7, 0⟩]
  | .bnModexp _ _ _ d => [⟨decide (s.getB d = 0), 7, 0⟩]
  | .bfKey a b => [⟨decide (s.natX b < 1 ∨ 56 < s.natX b), 8, s.getX b⟩, rangeCheck s (s.getX a) (s.natX b)]
  | .bfEnc a b | .bfDec a b =>
    [⟨!s.keyed, 9, 0⟩, ⟨decide (s.natX b % 8 ≠ 0), 10, s.getX b⟩, rangeCheck s (s.getX a) (s.natX b)]
  | .lzDec _ b c d e => codecChecks s lzDecode b c d e
  | .lzEnc _ b c d e => codecChecks s lzEncode b c d e

/-- The checks of a step: fetch alignment, fetch range, decode, then the command's own. -/
def stepChecks (s : State) : List FaultCheck :=
  [⟨decide (s.cp.toNat % 8 ≠ 0), 1, s.cp⟩, ⟨decide (s.cfg.memSize < s.cp.toNat + 8), 2, s.cp⟩] ++
  match decodeBytes (s.memRead s.cp.toNat 8) with
  | .error _ => [⟨true, 3, leWord (s.memRead s.cp.toNat 4)⟩]
  | .ok (i, _) => commandChecks s i

/-- The first check of a step that finds its fault. -/
def firstFault (s : State) : Option FaultCheck := (stepChecks s).find? (·.found)

/-! The cipher's rules, said by relations between the words of one round and the next (43_cipher.md). -/

/-- `F(x)` (R301): the four bytes of `x` index the four tables, the most significant byte the first. -/
def roundFunction (t : CipherTables) (x : Word) : Word :=
  ((t.s[0][Fin.ofNat 256 (x.toNat / 2 ^ 24)] + t.s[1][Fin.ofNat 256 (x.toNat / 2 ^ 16)]) ^^^
    t.s[2][Fin.ofNat 256 (x.toNat / 2 ^ 8)]) + t.s[3][Fin.ofNat 256 x.toNat]

/-- The network of R302 with the subkeys `key` in their order of use: sixteen rounds, each ending in a swap (`l i`, `r i`
are the halves before round `i`), the last swap undone, and the last two subkeys. -/
def feistel (t : CipherTables) (key : Fin 18 → Word) (lr out : Word × Word) : Prop :=
  ∃ l r : Nat → Word, lr = (l 0, r 0) ∧
    (∀ i : Fin 18, i.val < 16 →
      r (i.val + 1) = l i.val ^^^ key i ∧
      l (i.val + 1) = r i.val ^^^ roundFunction t (l i.val ^^^ key i)) ∧
    out = (r 16 ^^^ key 17, l 16 ^^^ key 16)

/-- `lr` are the big-endian halves of the block `blk` (R304). -/
def halvesOf (blk : List Byte) (lr : Word × Word) : Prop :=
  lr.1.toNat = ∑ k ∈ Finset.range 4, (blk.getD k 0).toNat * 256 ^ (3 - k) ∧
  lr.2.toNat = ∑ k ∈ Finset.range 4, (blk.getD (4 + k) 0).toNat * 256 ^ (3 - k)

/-- The block `out` is the block `blk` taken through the network (R304). -/
def blockThrough (t : CipherTables) (key : Fin 18 → Word) (blk out : List Byte) : Prop :=
  ∃ lr lr' : Word × Word, halvesOf blk lr ∧ feistel t key lr lr' ∧ halvesOf out lr'

/-- What encryption `m` of the key schedule does to the tables (R305): its two words replace pair `m` of the 9 pairs of `P`
and the 512 pairs of `S`, in that order. -/
def replacesPair (m : Nat) (lr : Word × Word) (t t' : CipherTables) : Prop :=
  (∀ i : Fin 18, t'.p[i] = if i.val / 2 = m then (if i.val % 2 = 0 then lr.1 else lr.2) else t.p[i]) ∧
  ∀ (k : Fin 4) (i : Fin 256), t'.s[k][i] =
    if 9 + 128 * k.val + i.val / 2 = m then (if i.val % 2 = 0 then lr.1 else lr.2) else t.s[k][i]

/-! The encoder's choice (44_codec.md R351). -/

/-- The `len` bytes from `pos` equal those from `off` before it. -/
def matchesAt (src : List Byte) (pos off len : Nat) : Prop :=
  ∀ k, k < len → src.getD (pos + k) 0 = src.getD (pos - off + k) 0

/-- `(len, off)` is the longest match at `pos` with an offset of at most 4095 and a length of at most 10 and of at most what
is left of the input, of those the one with the smallest offset; `(0, 0)` where there is none or less than 3 bytes are
left. -/
def longestMatch (src : List Byte) (pos len off : Nat) : Prop :=
  (src.length < pos + 3 → len = 0) ∧ (len = 0 → off = 0) ∧
  (0 < len → 1 ≤ off ∧ off ≤ 4095 ∧ off ≤ pos ∧ len ≤ 10 ∧ pos + len ≤ src.length ∧ matchesAt src pos off len) ∧
  ∀ off' len', pos + 3 ≤ src.length → 1 ≤ off' → off' ≤ 4095 → off' ≤ pos → len' ≤ 10 → pos + len' ≤ src.length →
    matchesAt src pos off' len' → len' ≤ len ∧ (0 < len → len' = len → off ≤ off')

end Sys2Proof.Machine
end

