-- ==== Sys2Proof/Certificates/Slice0/Obligations.lean ====
section
/-! DEFINITION. The statements for the provers, each from a rule of the spec. -/

open Sys2Proof Sys2Proof.Machine

/-! Encoding (30_encoding.md). -/

/-- Every well-formed command is what its own word decodes to, and what its own eight bytes decode to whatever follows
them. -/
def Obligations.DecodeInvertsEncode : Prop :=
  ∀ i : Instr, i.wellFormed = true →
    decodeWord (encode i) = .ok i ∧ ∀ rest, decodeBytes (encodeBytes i ++ rest) = .ok (i, rest)

/-- A word that decodes is the encoding of the well-formed command it decodes to; the words that decode are those that
match a row of the opcode table (with BN.LDK's selector 0 or 1); and no word matches two rows. -/
def Obligations.DecodedWordsAreTheTablesRows : Prop :=
  ∀ w : CmdWord,
    (∀ i, decodeWord w = .ok i → encode i = w ∧ i.wellFormed = true) ∧
    ((∃ i, decodeWord w = .ok i) ↔
      ∃ row ∈ matchMaskTable, w &&& row.mask = row.pattern ∧ (row.mnemonic = "BN.LDK" → w.toNat / 2 ^ 32 ≤ 1)) ∧
    ∀ r1 ∈ matchMaskTable, ∀ r2 ∈ matchMaskTable,
      w &&& r1.mask = r1.pattern → w &&& r2.mask = r2.pattern → r1 = r2

/-- R114, R117 and R118: a fetched word with an opcode outside the map, with a bit that its opcode's row fixes at another
value, or a BN.LDK with a selector above 1, raises ILLEGAL with the word's low half, and nothing else happens. -/
def Obligations.IllegalWordsFault : Prop :=
  ∀ (s : State) (w : CmdWord), s.hostTurns = [] → s.busy = true → s.cp.toNat % 8 = 0 →
    s.cp.toNat + 8 ≤ s.cfg.memSize → (∀ k, k < 8 → (s.byteAt (s.cp.toNat + k)).toNat = w.toNat / 256 ^ k % 256) →
    (let op := w.toNat % 256
     op = 0x00 ∨ (0x09 ≤ op ∧ op ≤ 0x0F) ∨ (0x14 ≤ op ∧ op ≤ 0x1F) ∨ (0x2C ≤ op ∧ op ≤ 0x2F) ∨
       (0x33 ≤ op ∧ op ≤ 0x3F) ∨ 0x42 ≤ op ∨
       (∃ row ∈ matchMaskTable, row.pattern.toNat = op ∧ w &&& row.mask ≠ row.pattern) ∨
       (op = 0x22 ∧ 2 ≤ w.toNat / 2 ^ 32)) →
    ∃ t, step s = .next t ∧ onlyFault 3 (w.setWidth 32) s t

/-- Command words of the spec's own programs, one of each unit, decode to the commands they stand for. -/
def Obligations.KnownCommandWordsDecode : Prop :=
  decodeWord 0x0000100000000103 = .ok (.li 1 0x1000) ∧
  decodeWord 0xFFFFFFE800000B05 = .ok (.bnz 11 0xFFFFFFE8) ∧
  decodeWord 0x0000000400008708 = .ok (.stw 7 8 4) ∧
  decodeWord 0x0000000000021313 = .ok (.hHash 3 1 2) ∧
  decodeWord 0x000000000032142B = .ok (.bnModexp 4 1 2 3) ∧
  decodeWord 0x000000000000CA31 = .ok (.bfEnc 10 12) ∧
  decodeWord 0x0000000004321540 = .ok (.lzDec 5 1 2 3 4) ∧
  decodeWord 0x0000000200000122 = .error .badSelector

/-! The step (40_sequencer.md). -/

/-- From R150, R151 and R121: on the sequencer's turn an idle machine's step leaves the state as it was (that there is such
a step is the model's, DEDUCED, log 9); a busy one faults on a misaligned or an out-of-range `cp`, in that order, and else
reads eight bytes little-endian, raises ILLEGAL if they are no command, and executes the command they are. -/
def Obligations.SequencerStepFetchesDecodesExecutes : Prop :=
  ∀ s : State, s.hostTurns = [] →
    (s.busy = false → step s = .next s) ∧
    (s.busy = true →
      (s.cp.toNat % 8 ≠ 0 → ∃ t, step s = .next t ∧ onlyFault 1 s.cp s t) ∧
      (s.cp.toNat % 8 = 0 → s.cfg.memSize < s.cp.toNat + 8 → ∃ t, step s = .next t ∧ onlyFault 2 s.cp s t) ∧
      (s.cp.toNat % 8 = 0 → s.cp.toNat + 8 ≤ s.cfg.memSize → ∀ w : CmdWord,
        w.toNat = ∑ k ∈ Finset.range 8, (s.byteAt (s.cp.toNat + k)).toNat * 256 ^ k →
        (∀ i, decodeWord w = .ok i → step s = exec i s) ∧
        (∀ e, decodeWord w = .error e → ∃ t, step s = .next t ∧ onlyFault 3 (w.setWidth 32) s t)))

/-- A step runs the decoded command: when it is the sequencer's turn on a busy machine and the eight bytes at an aligned
`cp` inside memory decode to `i`, the step is `exec i`, of the state itself or, where the host gave the turn, of the
state with that turn taken. -/
def Obligations.StepRunsTheDecodedCommand : Prop :=
  ∀ (s : State) (i : Instr), s.busy = true → s.cp.toNat % 8 = 0 → s.cp.toNat + 8 ≤ s.cfg.memSize →
    decodeBytes (s.memRead s.cp.toNat 8) = .ok (i, []) →
    (s.hostTurns = [] → step s = exec i s) ∧
    (∀ rest, s.hostTurns = .letRun :: rest → step s = exec i { s with hostTurns := rest })

/-! The sequencer commands (40_sequencer.md). Each statement gives the encoding, the result with everything it leaves
unchanged, and the faults in their order. -/

/-- R152. -/
def Obligations.HaltEndsTheRun : Prop :=
  (encode .halt).toNat = cmdNumber 0x01 0 0 0 0 0 0 ∧
  ∀ s : State, ∃ t, exec .halt s = .next t ∧
    t.cp = s.cp + 8 ∧ t.busy = false ∧ t.done = true ∧ t.faulted = s.faulted ∧ t.hostErr = s.hostErr ∧
    keepsX s t ∧ keepsB s t ∧ keepsMem s t ∧ keepsHash s t ∧ keepsCipher s t ∧ keepsRecord s t ∧ keepsHost s t

/-- R153: NOP only advances `cp`; a fetched word with NOP's opcode and any other bit set raises ILLEGAL with the word's low
half, as its corner case `0x102` does. -/
def Obligations.NopOnlyAdvances : Prop :=
  (encode .nop).toNat = cmdNumber 0x02 0 0 0 0 0 0 ∧ (∃ e, decodeWord 0x0000000000000102 = .error e) ∧
  (∀ s : State, ∃ t, exec .nop s = .next t ∧ onlyCp (s.cp + 8) s t) ∧
  ∀ (s : State) (w : CmdWord), s.hostTurns = [] → s.busy = true → s.cp.toNat % 8 = 0 →
    s.cp.toNat + 8 ≤ s.cfg.memSize → (∀ k, k < 8 → (s.byteAt (s.cp.toNat + k)).toNat = w.toNat / 256 ^ k % 256) →
    w.toNat % 256 = 0x02 → w ≠ 0x02 → ∃ t, step s = .next t ∧ onlyFault 3 (w.setWidth 32) s t

/-- R154. -/
def Obligations.LiLoadsItsImmediate : Prop :=
  ∀ (a : XReg) (imm : Word),
    (encode (.li a imm)).toNat = cmdNumber 0x03 a 0 0 0 0 imm.toNat ∧
    ∀ s : State, ∃ t, exec (.li a imm) s = .next t ∧ onlyX a imm s t

/-- R155. -/
def Obligations.BnzBranchesIfNonzero : Prop :=
  ∀ (a : XReg) (imm : Word),
    (encode (.bnz a imm)).toNat = cmdNumber 0x05 a 0 0 0 0 imm.toNat ∧
    ∀ s : State,
      (s.getX a ≠ 0 → ∃ t, exec (.bnz a imm) s = .next t ∧
        onlyCp (BitVec.ofNat 32 (s.cp.toNat + imm.toNat)) s t) ∧
      (s.getX a = 0 → ∃ t, exec (.bnz a imm) s = .next t ∧ onlyCp (s.cp + 8) s t)

/-- From R156's encoding and pseudocode, `cp <- cp +32 imm`. What the next fetch makes of a bad target is not said here:
`Obligations.SequencerStepFetchesDecodesExecutes` states the fetch. -/
def Obligations.JmpJumpsRelative : Prop :=
  ∀ imm : Word,
    (encode (.jmp imm)).toNat = cmdNumber 0x06 0 0 0 0 0 imm.toNat ∧
    ∀ s : State, ∃ t, exec (.jmp imm) s = .next t ∧ onlyCp (BitVec.ofNat 32 (s.cp.toNat + imm.toNat)) s t

/-- R157. -/
def Obligations.AddiAddsAndWraps : Prop :=
  ∀ (a b : XReg) (imm : Word),
    (encode (.addi a b imm)).toNat = cmdNumber 0x04 a b 0 0 0 imm.toNat ∧
    ∀ s : State, ∃ t, exec (.addi a b imm) s = .next t ∧
      onlyX a (BitVec.ofNat 32 ((s.getX b).toNat + imm.toNat)) s t

/-- R158. -/
def Obligations.LdwLoadsLittleEndian : Prop :=
  ∀ (a b : XReg) (imm : Word),
    (encode (.ldw a b imm)).toNat = cmdNumber 0x07 a b 0 0 0 imm.toNat ∧
    ∀ s : State,
      let ea := s.effectiveAddress b imm
      ea.toNat = ((s.getX b).toNat + imm.toNat) % 2 ^ 32 ∧
      (ea.toNat + 4 ≤ s.cfg.memSize → ∃ t, exec (.ldw a b imm) s = .next t ∧
        onlyX a (BitVec.ofNat 32 (∑ k ∈ Finset.range 4, (s.byteAt (ea.toNat + k)).toNat * 256 ^ k)) s t) ∧
      (s.cfg.memSize < ea.toNat + 4 → ∃ t, exec (.ldw a b imm) s = .next t ∧ onlyFault 4 ea s t)

/-- R159. -/
def Obligations.StwStoresLittleEndian : Prop :=
  ∀ (a b : XReg) (imm : Word),
    (encode (.stw a b imm)).toNat = cmdNumber 0x08 a b 0 0 0 imm.toNat ∧
    ∀ s : State,
      let ea := s.effectiveAddress b imm
      ea.toNat = ((s.getX b).toNat + imm.toNat) % 2 ^ 32 ∧
      (ea.toNat + 4 ≤ s.cfg.memSize → ∃ t, exec (.stw a b imm) s = .next t ∧
        onlyMem ea.toNat [(s.getX a).extractLsb' 0 8, (s.getX a).extractLsb' 8 8, (s.getX a).extractLsb' 16 8,
          (s.getX a).extractLsb' 24 8] s t) ∧
      (s.cfg.memSize < ea.toNat + 4 → ∃ t, exec (.stw a b imm) s = .next t ∧ onlyFault 4 ea s t)

/-! The hash unit (41_hash.md). -/

/-- R204. -/
def Obligations.HInitStartsAStream : Prop :=
  (encode .hInit).toNat = cmdNumber 0x10 0 0 0 0 0 0 ∧
  ∀ s : State, ∃ t, exec .hInit s = .next t ∧ onlyHash 0 [] s t

/-- R205. -/
def Obligations.HFeedAbsorbsMemory : Prop :=
  ∀ a b : XReg,
    (encode (.hFeed a b)).toNat = cmdNumber 0x11 a b 0 0 0 0 ∧
    ∀ s : State,
      (s.natX a + s.natX b ≤ s.cfg.memSize → ∃ t, exec (.hFeed a b) s = .next t ∧
        let st := (List.range (s.natX b)).foldl (fun st k => hashAbsorb st (s.byteAt (s.natX a + k))) (s.hacc, s.hpend)
        onlyHash st.1 st.2 s t) ∧
      (s.cfg.memSize < s.natX a + s.natX b → ∃ t, exec (.hFeed a b) s = .next t ∧ onlyFault 4 (s.getX a) s t)

/-- R206 and R203: the finishing value of the stream, which stays as it is. -/
def Obligations.HFinalReadsTheStream : Prop :=
  ∀ a : XReg,
    (encode (.hFinal a)).toNat = cmdNumber 0x12 a 0 0 0 0 0 ∧
    ∀ s : State, ∃ t, exec (.hFinal a) s = .next t ∧
      onlyX a (if s.hpend = [] then s.hacc
        else s.hacc.rotateLeft 1 +
          BitVec.ofNat 32 (∑ k ∈ Finset.range s.hpend.length, (s.hpend.getD k 0).toNat * 256 ^ k)) s t

/-- R207. -/
def Obligations.HHashHashesMemory : Prop :=
  ∀ a b c : XReg,
    (encode (.hHash a b c)).toNat = cmdNumber 0x13 a b c 0 0 0 ∧
    ∀ s : State,
      (s.natX b + s.natX c ≤ s.cfg.memSize → ∃ t, exec (.hHash a b c) s = .next t ∧
        onlyX a (hashBytes ((List.range (s.natX c)).map fun k => s.byteAt (s.natX b + k))) s t) ∧
      (s.cfg.memSize < s.natX b + s.natX c → ∃ t, exec (.hHash a b c) s = .next t ∧ onlyFault 4 (s.getX b) s t)

/-! The big-integer unit (42_bignum.md). -/

/-- R232. -/
def Obligations.BnLdLoadsBigEndian : Prop :=
  ∀ (a : BReg) (b c : XReg),
    (encode (.bnLd a b c)).toNat = cmdNumber 0x20 a b c 0 0 0 ∧
    ∀ s : State,
      let n := s.natX c
      let v := ∑ k ∈ Finset.range n, (s.byteAt (s.natX b + k)).toNat * 256 ^ (n - 1 - k)
      (s.cfg.memSize < s.natX b + n → ∃ t, exec (.bnLd a b c) s = .next t ∧ onlyFault 4 (s.getX b) s t) ∧
      (s.natX b + n ≤ s.cfg.memSize → v < 2 ^ (32 * s.cfg.bnLimbs) →
        ∃ t, exec (.bnLd a b c) s = .next t ∧ onlyB a v s t) ∧
      (s.natX b + n ≤ s.cfg.memSize → 2 ^ (32 * s.cfg.bnLimbs) ≤ v →
        ∃ t, exec (.bnLd a b c) s = .next t ∧ onlyFault 5 0 s t)

/-- R235. -/
def Obligations.BnLdiLoadsASmallInteger : Prop :=
  ∀ (a : BReg) (imm : Word),
    (encode (.bnLdi a imm)).toNat = cmdNumber 0x21 a 0 0 0 0 imm.toNat ∧
    ∀ s : State, (20 ≤ s.cfg.bnLimbs → imm.toNat < 2 ^ (32 * s.cfg.bnLimbs)) ∧
      ∃ t, exec (.bnLdi a imm) s = .next t ∧ onlyB a imm.toNat s t

/-- R238: selector 0 loads the modulus, read big-endian, and 1 the exponent; a word with any other selector does not
decode; both values fit. -/
def Obligations.BnLdkLoadsTheKey : Prop :=
  ∀ a : BReg,
    (∀ imm : Word, (encode (.bnLdk a imm)).toNat = cmdNumber 0x22 a 0 0 0 0 imm.toNat ∧
      (imm ≠ 0 → imm ≠ 1 → ∃ e, decodeWord (encode (.bnLdk a imm)) = .error e)) ∧
    ∀ s : State,
      let m := ∑ k : Fin 40, (s.cfg.pkModulus[k]).toNat * 256 ^ (39 - k.val)
      (∃ t, exec (.bnLdk a 0) s = .next t ∧ onlyB a m s t) ∧
      (∃ t, exec (.bnLdk a 1) s = .next t ∧ onlyB a s.cfg.pkExponent.toNat s t) ∧
      (20 ≤ s.cfg.bnLimbs →
        m < 2 ^ (32 * s.cfg.bnLimbs) ∧ s.cfg.pkExponent.toNat < 2 ^ (32 * s.cfg.bnLimbs))

/-- R242: the length is the larger of `X[c]` and the least `n` with `v < 256^n`; the string is big-endian, padded with
leading zero bytes; the count goes to `X[d]`. -/
def Obligations.BnStStoresBigEndian : Prop :=
  ∀ (a : BReg) (b c d : XReg),
    (encode (.bnSt a b c d)).toNat = cmdNumber 0x23 a b c d 0 0 ∧
    ∀ s : State,
      let v := s.getB a
      let n := bnStoreLength v (s.natX c)
      (s.natX c ≤ n ∧ v < 256 ^ n ∧ ∀ m, s.natX c ≤ m → v < 256 ^ m → n ≤ m) ∧
      (s.natX b + n ≤ s.cfg.memSize → ∃ t, exec (.bnSt a b c d) s = .next t ∧
        onlyMemX (s.natX b) ((List.range n).map fun k => BitVec.ofNat 8 (v / 256 ^ (n - 1 - k))) d
          (BitVec.ofNat 32 n) s t) ∧
      (s.cfg.memSize < s.natX b + n → ∃ t, exec (.bnSt a b c d) s = .next t ∧ onlyFault 4 (s.getX b) s t)

/-- R246. -/
def Obligations.BnCmpComparesThreeWays : Prop :=
  ∀ (a : XReg) (b c : BReg),
    (encode (.bnCmp a b c)).toNat = cmdNumber 0x24 a b c 0 0 0 ∧
    ∀ s : State,
      (s.getB b < s.getB c → ∃ t, exec (.bnCmp a b c) s = .next t ∧ onlyX a 0xFFFFFFFF s t) ∧
      (s.getB b = s.getB c → ∃ t, exec (.bnCmp a b c) s = .next t ∧ onlyX a 0 s t) ∧
      (s.getB c < s.getB b → ∃ t, exec (.bnCmp a b c) s = .next t ∧ onlyX a 1 s t)

/-- R250. -/
def Obligations.BnSubSubtractsOrUnderflows : Prop :=
  ∀ a b c : BReg,
    (encode (.bnSub a b c)).toNat = cmdNumber 0x25 a b c 0 0 0 ∧
    ∀ s : State,
      (s.getB c ≤ s.getB b → ∃ t v, exec (.bnSub a b c) s = .next t ∧ onlyB a v s t ∧ v + s.getB c = s.getB b) ∧
      (s.getB b < s.getB c → ∃ t, exec (.bnSub a b c) s = .next t ∧ onlyFault 6 0 s t)

/-- R254. -/
def Obligations.BnMulMultipliesOrOverflows : Prop :=
  ∀ a b c : BReg,
    (encode (.bnMul a b c)).toNat = cmdNumber 0x26 a b c 0 0 0 ∧
    ∀ s : State,
      let v := s.getB b * s.getB c
      (v < 2 ^ (32 * s.cfg.bnLimbs) → ∃ t, exec (.bnMul a b c) s = .next t ∧ onlyB a v s t) ∧
      (2 ^ (32 * s.cfg.bnLimbs) ≤ v → ∃ t, exec (.bnMul a b c) s = .next t ∧ onlyFault 5 0 s t)

/-- R256: for a register below its capacity, the overflow is the top bit's. -/
def Obligations.BnShlDoublesOrOverflows : Prop :=
  ∀ a b : BReg,
    (encode (.bnShl a b)).toNat = cmdNumber 0x27 a b 0 0 0 0 ∧
    ∀ s : State, 1 ≤ s.cfg.bnLimbs → s.getB b < 2 ^ (32 * s.cfg.bnLimbs) →
      ((s.getB b).testBit (32 * s.cfg.bnLimbs - 1) = false →
        ∃ t, exec (.bnShl a b) s = .next t ∧ onlyB a (s.getB b + s.getB b) s t) ∧
      ((s.getB b).testBit (32 * s.cfg.bnLimbs - 1) = true →
        ∃ t, exec (.bnShl a b) s = .next t ∧ onlyFault 5 0 s t)

/-- R257. -/
def Obligations.BnShrHalves : Prop :=
  ∀ a b : BReg,
    (encode (.bnShr a b)).toNat = cmdNumber 0x28 a b 0 0 0 0 ∧
    ∀ s : State, ∃ t v, exec (.bnShr a b) s = .next t ∧ onlyB a v s t ∧ 2 * v ≤ s.getB b ∧ s.getB b < 2 * v + 2

/-- R258. -/
def Obligations.BnParTestsParity : Prop :=
  ∀ (a : XReg) (b : BReg),
    (encode (.bnPar a b)).toNat = cmdNumber 0x29 a b 0 0 0 0 ∧
    ∀ s : State,
      (Even (s.getB b) → ∃ t, exec (.bnPar a b) s = .next t ∧ onlyX a 0 s t) ∧
      (Odd (s.getB b) → ∃ t, exec (.bnPar a b) s = .next t ∧ onlyX a 1 s t)

/-- R260. -/
def Obligations.BnModGivesTheRemainder : Prop :=
  ∀ a b c : BReg,
    (encode (.bnMod a b c)).toNat = cmdNumber 0x2A a b c 0 0 0 ∧
    ∀ s : State,
      (s.getB c ≠ 0 → ∃ t q r, exec (.bnMod a b c) s = .next t ∧ onlyB a r s t ∧
        s.getB b = q * s.getB c + r ∧ r < s.getB c) ∧
      (s.getB c = 0 → ∃ t, exec (.bnMod a b c) s = .next t ∧ onlyFault 7 0 s t)

/-- R262: the power modulo the modulus, `0^0 = 1`, never BN_OVERFLOW. -/
def Obligations.BnModexpGivesThePower : Prop :=
  ∀ a b c d : BReg,
    (encode (.bnModexp a b c d)).toNat = cmdNumber 0x2B a b c d 0 0 ∧
    ∀ s : State,
      (s.getB d ≠ 0 → ∃ t, exec (.bnModexp a b c d) s = .next t ∧
        onlyB a (s.getB b ^ s.getB c % s.getB d) s t) ∧
      (s.getB d = 0 → ∃ t, exec (.bnModexp a b c d) s = .next t ∧ onlyFault 7 0 s t)

/-! The cipher unit (43_cipher.md). -/

/-- R310. -/
def Obligations.BfKeyKeysTheCipher : Prop :=
  ∀ a b : XReg,
    (encode (.bfKey a b)).toNat = cmdNumber 0x30 a b 0 0 0 0 ∧
    ∀ s : State,
      (s.natX b < 1 ∨ 56 < s.natX b → ∃ t, exec (.bfKey a b) s = .next t ∧ onlyFault 8 (s.getX b) s t) ∧
      (1 ≤ s.natX b → s.natX b ≤ 56 → s.cfg.memSize < s.natX a + s.natX b →
        ∃ t, exec (.bfKey a b) s = .next t ∧ onlyFault 4 (s.getX a) s t) ∧
      (1 ≤ s.natX b → s.natX b ≤ 56 → s.natX a + s.natX b ≤ s.cfg.memSize →
        ∃ t, exec (.bfKey a b) s = .next t ∧
          onlyCipher (keySchedule ((List.range (s.natX b)).map fun k => s.byteAt (s.natX a + k))) s t)

/-- R312, with R301 and R302: the faults in their order; else every block of the buffer becomes its own encryption under the
current tables, its big-endian halves taken through the sixteen rounds with `P[0]` to `P[17]` in that order; and no byte
outside the buffer, no register and no table changes. -/
def Obligations.BfEncEncryptsInPlace : Prop :=
  ∀ a b : XReg,
    (encode (.bfEnc a b)).toNat = cmdNumber 0x31 a b 0 0 0 0 ∧
    ∀ s : State,
      (s.keyed = false → ∃ t, exec (.bfEnc a b) s = .next t ∧ onlyFault 9 0 s t) ∧
      (s.keyed = true → s.natX b % 8 ≠ 0 →
        ∃ t, exec (.bfEnc a b) s = .next t ∧ onlyFault 10 (s.getX b) s t) ∧
      (s.keyed = true → s.natX b % 8 = 0 → s.cfg.memSize < s.natX a + s.natX b →
        ∃ t, exec (.bfEnc a b) s = .next t ∧ onlyFault 4 (s.getX a) s t) ∧
      (s.keyed = true → s.natX b % 8 = 0 → s.natX a + s.natX b ≤ s.cfg.memSize →
        ∃ t, exec (.bfEnc a b) s = .next t ∧
          keepsX s t ∧ keepsB s t ∧ keepsHash s t ∧ keepsCipher s t ∧ continuesAt (s.cp + 8) s t ∧
          (∀ k, k < s.natX b / 8 →
            t.memRead (s.natX a + 8 * k) 8 = encBlock s.tables (s.memRead (s.natX a + 8 * k) 8) ∧
            blockThrough s.tables (fun i => s.tables.p[i]) (s.memRead (s.natX a + 8 * k) 8)
              (t.memRead (s.natX a + 8 * k) 8)) ∧
          ∀ n, n < s.natX a ∨ s.natX a + s.natX b ≤ n → t.byteAt n = s.byteAt n)

/-- R314: as BF.ENC, with decryption: the same network with `P[17]` to `P[0]` in that order (from R303). -/
def Obligations.BfDecDecryptsInPlace : Prop :=
  ∀ a b : XReg,
    (encode (.bfDec a b)).toNat = cmdNumber 0x32 a b 0 0 0 0 ∧
    ∀ s : State,
      (s.keyed = false → ∃ t, exec (.bfDec a b) s = .next t ∧ onlyFault 9 0 s t) ∧
      (s.keyed = true → s.natX b % 8 ≠ 0 →
        ∃ t, exec (.bfDec a b) s = .next t ∧ onlyFault 10 (s.getX b) s t) ∧
      (s.keyed = true → s.natX b % 8 = 0 → s.cfg.memSize < s.natX a + s.natX b →
        ∃ t, exec (.bfDec a b) s = .next t ∧ onlyFault 4 (s.getX a) s t) ∧
      (s.keyed = true → s.natX b % 8 = 0 → s.natX a + s.natX b ≤ s.cfg.memSize →
        ∃ t, exec (.bfDec a b) s = .next t ∧
          keepsX s t ∧ keepsB s t ∧ keepsHash s t ∧ keepsCipher s t ∧ continuesAt (s.cp + 8) s t ∧
          (∀ k, k < s.natX b / 8 →
            t.memRead (s.natX a + 8 * k) 8 = decBlock s.tables (s.memRead (s.natX a + 8 * k) 8) ∧
            blockThrough s.tables (fun i => s.tables.p[i.rev]) (s.memRead (s.natX a + 8 * k) 8)
              (t.memRead (s.natX a + 8 * k) 8)) ∧
          ∀ n, n < s.natX a ∨ s.natX a + s.natX b ≤ n → t.byteAt n = s.byteAt n)

/-- R305: from `P_INIT` (R300, in full here) and `S_INIT` (R300's spot checks here), the subkeys take the key's bytes, four
big-endian for each, taken by an index `j` that starts at 0 and wraps at the key's length; then 521 encryptions, from the
zero block, each of the result of the one before under the tables as they are by then, replace `P` and `S` pair by pair.
So keys that agree byte for byte when cycled have one schedule, a key written twice in a row and the key itself among
them. -/
def Obligations.KeyScheduleCyclesTheKey : Prop :=
  (initTables.p.toList =
      [0x243F6A88, 0x85A308D3, 0x13198A2E, 0x03707344, 0xA4093822, 0x299F31D0, 0x082EFA98, 0xEC4E6C89, 0x452821E6,
        0x38D01377, 0xBE5466CF, 0x34E90C6C, 0xC0AC29B7, 0xC97C50DD, 0x3F84D5B5, 0xB5470917, 0x9216D5D9, 0x8979FB1B] ∧
    initTables.s[0][0] = 0xD1310BA6 ∧ initTables.s[1][0] = 0x4B7A70E9 ∧ initTables.s[2][0] = 0xE93D5A68 ∧
    initTables.s[3][0] = 0x3A39CE37 ∧ initTables.s[3][255] = 0x3AC372E6) ∧
  (∀ key : List Byte, 1 ≤ key.length → key.length ≤ 56 →
    ∃ (j : Nat → Nat) (t : Nat → CipherTables) (lr : Nat → Word × Word),
      j 0 = 0 ∧ (∀ m, j (m + 1) = (j m + 1) % key.length) ∧
      (∀ i : Fin 18, (t 0).p[i] = initTables.p[i] ^^^
        BitVec.ofNat 32 (∑ u ∈ Finset.range 4, (key.getD (j (4 * i.val + u)) 0).toNat * 256 ^ (3 - u))) ∧
      (t 0).s = initTables.s ∧ lr 0 = (0, 0) ∧
      (∀ m, m < 521 → feistel (t m) (fun i => (t m).p[i]) (lr m) (lr (m + 1)) ∧
        replacesPair m (lr (m + 1)) (t m) (t (m + 1))) ∧
      keySchedule key = t 521) ∧
  (∀ key key' : List Byte, 1 ≤ key.length → key.length ≤ 56 → 1 ≤ key'.length → key'.length ≤ 56 →
    (∀ m, m < 72 → key.getD (m % key.length) 0 = key'.getD (m % key'.length) 0) → keySchedule key = keySchedule key') ∧
  ∀ key : List Byte, 1 ≤ key.length → 2 * key.length ≤ 56 → keySchedule (key ++ key) = keySchedule key

/-! The codec unit (44_codec.md). -/

/-- R345 and R346: the checks in their order with nothing written; then the decoder's result, whose
output is written on success and on both errors, while `X[a]` is written on success only. -/
def Obligations.LzDecDecompresses : Prop :=
  ∀ a b c d e : XReg,
    (encode (.lzDec a b c d e)).toNat = cmdNumber 0x40 a b c d e 0 ∧
    ∀ s : State,
      let srcA := s.natX b; let n := s.natX c; let dst := s.natX d; let cap := s.natX e
      let src := (List.range n).map fun k => s.byteAt (srcA + k)
      let overlap := ∃ i, (srcA ≤ i ∧ i < srcA + n) ∧ (dst ≤ i ∧ i < dst + cap)
      (s.cfg.memSize < srcA + n → ∃ t, exec (.lzDec a b c d e) s = .next t ∧ onlyFault 4 (s.getX b) s t) ∧
      (srcA + n ≤ s.cfg.memSize → s.cfg.memSize < dst + cap →
        ∃ t, exec (.lzDec a b c d e) s = .next t ∧ onlyFault 4 (s.getX d) s t) ∧
      (srcA + n ≤ s.cfg.memSize → dst + cap ≤ s.cfg.memSize → overlap →
        ∃ t, exec (.lzDec a b c d e) s = .next t ∧ onlyFault 13 0 s t) ∧
      (srcA + n ≤ s.cfg.memSize → dst + cap ≤ s.cfg.memSize → ¬overlap → ∀ out,
        (lzDecode src cap = .ok out → ∃ t, exec (.lzDec a b c d e) s = .next t ∧
          onlyMemX dst out a (BitVec.ofNat 32 out.length) s t) ∧
        (lzDecode src cap = .invalid out → ∃ t, exec (.lzDec a b c d e) s = .next t ∧
          entersFault 11 (BitVec.ofNat 32 out.length) s t ∧ writesMem dst out s t) ∧
        (lzDecode src cap = .small out → ∃ t, exec (.lzDec a b c d e) s = .next t ∧
          entersFault 12 (BitVec.ofNat 32 out.length) s t ∧ writesMem dst out s t))

/-- R355, with R351 and R354: as LZ.DEC, with the encoder, which has one error. The encoder goes from position to position
(`go pos run out`, with the pending run and the output so far): where the longest match has three bytes or more and its
token's first byte is not 0x00, the run and the match's token are emitted; else the byte joins the run, which is emitted
when it has 63 bytes; at the end the run and the end marker are emitted; and a token that the capacity does not hold is
not emitted at all. -/
def Obligations.LzEncCompresses : Prop :=
  (∀ (src : List Byte) (cap : Nat),
    let go := fun pos run out => lzEncodeLoop src.toArray cap (src.length - pos) pos run out
    let flush := fun run out : List Byte =>
      if run = [] then out else out ++ BitVec.ofNat 8 (0x80 ||| (run.length - 1)) :: run
    lzEncode src cap = go 0 [] [] ∧
    ∀ (pos : Nat) (run out : List Byte), run.length ≤ 62 → out.length ≤ cap →
      (src.length ≤ pos →
        (cap < (flush run out).length → go pos run out = .small out) ∧
        ((flush run out).length = cap → go pos run out = .small (flush run out)) ∧
        ((flush run out).length < cap → go pos run out = .ok (flush run out ++ [0x00]))) ∧
      (pos < src.length → ∃ len off, longestMatch src pos len off ∧
        (3 ≤ len → ¬(len = 3 ∧ off < 256) →
          (cap < (flush run out).length → go pos run out = .small out) ∧
          ((flush run out).length ≤ cap → cap < (flush run out).length + 2 →
            go pos run out = .small (flush run out)) ∧
          ((flush run out).length + 2 ≤ cap → go pos run out = go (pos + len) [] (flush run out ++
            [BitVec.ofNat 8 (((len - 3) <<< 4) ||| (off >>> 8)), BitVec.ofNat 8 (off &&& 0xFF)]))) ∧
        (len < 3 ∨ (len = 3 ∧ off < 256) →
          let run' := run ++ [src.getD pos 0]
          (run'.length < 63 → go pos run out = go (pos + 1) run' out) ∧
          (run'.length = 63 → cap < (flush run' out).length → go pos run out = .small out) ∧
          (run'.length = 63 → (flush run' out).length ≤ cap → go pos run out = go (pos + 1) [] (flush run' out))))) ∧
  ∀ a b c d e : XReg,
    (encode (.lzEnc a b c d e)).toNat = cmdNumber 0x41 a b c d e 0 ∧
    ∀ s : State,
      let srcA := s.natX b; let n := s.natX c; let dst := s.natX d; let cap := s.natX e
      let src := (List.range n).map fun k => s.byteAt (srcA + k)
      let overlap := ∃ i, (srcA ≤ i ∧ i < srcA + n) ∧ (dst ≤ i ∧ i < dst + cap)
      (s.cfg.memSize < srcA + n → ∃ t, exec (.lzEnc a b c d e) s = .next t ∧ onlyFault 4 (s.getX b) s t) ∧
      (srcA + n ≤ s.cfg.memSize → s.cfg.memSize < dst + cap →
        ∃ t, exec (.lzEnc a b c d e) s = .next t ∧ onlyFault 4 (s.getX d) s t) ∧
      (srcA + n ≤ s.cfg.memSize → dst + cap ≤ s.cfg.memSize → overlap →
        ∃ t, exec (.lzEnc a b c d e) s = .next t ∧ onlyFault 13 0 s t) ∧
      (srcA + n ≤ s.cfg.memSize → dst + cap ≤ s.cfg.memSize → ¬overlap → ∀ out,
        (lzEncode src cap = .ok out → ∃ t, exec (.lzEnc a b c d e) s = .next t ∧
          onlyMemX dst out a (BitVec.ofNat 32 out.length) s t) ∧
        (lzEncode src cap = .small out → ∃ t, exec (.lzEnc a b c d e) s = .next t ∧
          entersFault 12 (BitVec.ofNat 32 out.length) s t ∧ writesMem dst out s t) ∧
        lzEncode src cap ≠ .invalid out)

/-- R340 and R343, token by token, with the spec's own formulas: the end marker stops; a short and a long literal append
their data bytes; a back-reference appends `count` bytes each equal to the byte `offset` before it, bytes of the same
copy included. -/
def Obligations.LzTokensFollowTheFormat : Prop :=
  ∀ (cap : Nat) (cmd lo : Byte) (rest out : List Byte),
    let k := cmd.toNat
    (k = 0 → lzToken cap cmd rest out = .stop (.ok out)) ∧
    (0x80 ≤ k → k ≤ 0xBF → let count := (k &&& 0x3F) + 1
      count ≤ rest.length → out.length + count ≤ cap →
        lzToken cap cmd rest out = .go (rest.drop count) (out ++ rest.take count)) ∧
    (0xC0 ≤ k → let count := (((k &&& 0x3F) <<< 8) ||| lo.toNat) + 1
      count ≤ rest.length → out.length + count ≤ cap →
        lzToken cap cmd (lo :: rest) out = .go (rest.drop count) (out ++ rest.take count)) ∧
    (1 ≤ k → k ≤ 0x7F →
      let count := ((k >>> 4) &&& 0x07) + 3
      let offset := ((k &&& 0x0F) <<< 8) ||| lo.toNat
      (offset = 0 ∨ out.length < offset → lzToken cap cmd (lo :: rest) out = .stop (.invalid out)) ∧
      (1 ≤ offset → offset ≤ out.length → out.length + count ≤ cap →
        ∃ ext, lzToken cap cmd (lo :: rest) out = .go rest (out ++ ext) ∧ ext.length = count ∧
          ∀ j, j < count → (out ++ ext).getD (out.length + j) 0 = (out ++ ext).getD (out.length + j - offset) 0))

/-- R344, error by error: a back-reference with a bad offset, a token whose `lo` or data bytes are missing (none of them
copied), and a byte that meets a full output, which then holds exactly `cap` bytes. -/
def Obligations.LzTokenErrors : Prop :=
  ∀ (cap : Nat) (cmd lo : Byte) (rest out : List Byte), out.length ≤ cap →
    let k := cmd.toNat
    ((1 ≤ k ∧ k ≤ 0x7F) ∨ 0xC0 ≤ k → lzToken cap cmd [] out = .stop (.invalid out)) ∧
    (0x80 ≤ k → k ≤ 0xBF → let count := (k &&& 0x3F) + 1
      (rest.length < count → lzToken cap cmd rest out = .stop (.invalid out)) ∧
      (count ≤ rest.length → cap < out.length + count →
        lzToken cap cmd rest out = .stop (.small (out ++ rest.take (cap - out.length))))) ∧
    (0xC0 ≤ k → let count := (((k &&& 0x3F) <<< 8) ||| lo.toNat) + 1
      (rest.length < count → lzToken cap cmd (lo :: rest) out = .stop (.invalid out)) ∧
      (count ≤ rest.length → cap < out.length + count →
        lzToken cap cmd (lo :: rest) out = .stop (.small (out ++ rest.take (cap - out.length))))) ∧
    (1 ≤ k → k ≤ 0x7F →
      let count := ((k >>> 4) &&& 0x07) + 3
      let offset := ((k &&& 0x0F) <<< 8) ||| lo.toNat
      (offset = 0 ∨ out.length < offset → lzToken cap cmd (lo :: rest) out = .stop (.invalid out)) ∧
      (1 ≤ offset → offset ≤ out.length → cap < out.length + count →
        ∃ ext, lzToken cap cmd (lo :: rest) out = .stop (.small (out ++ ext)) ∧ (out ++ ext).length = cap ∧
          ∀ j, j < ext.length → (out ++ ext).getD (out.length + j) 0 = (out ++ ext).getD (out.length + j - offset) 0))

/-- R342, with R341's loop: the decoder (`go src out`, with the rest of the input and the output so far) ends normally where
the input runs out at a token boundary and at an end marker, whatever follows it; else the first token's result is the
result, or decoding goes on with what the token leaves of the input and the output. So empty input decodes to empty
output, and a stream that decodes goes on decoding to the same bytes with an end marker and anything after it. -/
def Obligations.LzDecoderStops : Prop :=
  ∀ cap : Nat, lzDecode [] cap = .ok [] ∧ (∀ tail, lzDecode (0x00 :: tail) cap = .ok []) ∧
    (∀ (src out : List Byte), lzDecode src cap = .ok out → ∀ tail, lzDecode (src ++ 0x00 :: tail) cap = .ok out) ∧
    let go := fun src out => lzDecodeLoop cap src.length src out
    (∀ src, lzDecode src cap = go src []) ∧
    ∀ out : List Byte, go [] out = .ok out ∧ (∀ tail, go (0x00 :: tail) out = .ok out) ∧
      ∀ (cmd : Byte) (rest : List Byte),
        (∀ r, lzToken cap cmd rest out = .stop r → go (cmd :: rest) out = r) ∧
        ∀ rest' out', lzToken cap cmd rest out = .go rest' out' → go (cmd :: rest) out = go rest' out'

/-- Derived (the spec marks R363 as its own inference): whatever the input and the capacity, the output is at most five bytes for each input byte and never more than
the capacity. -/
def Obligations.LzDecoderOutputIsBounded : Prop :=
  ∀ (src : List Byte) (cap : Nat) (out : List Byte),
    lzDecode src cap = .ok out ∨ lzDecode src cap = .invalid out ∨ lzDecode src cap = .small out →
      out.length ≤ 5 * src.length ∧ out.length ≤ cap

/-- Derived (the spec marks R360's claim as its own inference): a capacity of `n + ceil(n/63) + 1` is always enough for the encoder, and its output never exceeds it. -/
def Obligations.LzEncoderFitsTheBound : Prop :=
  ∀ (src : List Byte) (cap : Nat), src.length + (src.length + 62) / 63 + 1 ≤ cap →
    ∃ out, lzEncode src cap = .ok out ∧ out.length ≤ src.length + (src.length + 62) / 63 + 1

/-- Derived (the spec marks R362 as its own inference): what the encoder makes of a byte string decodes to that string. -/
def Obligations.LzRoundTrips : Prop :=
  ∀ src : List Byte, src.length < 2 ^ 32 →
    ∃ out, lzEncode src (maxCompressedSize src.length) = .ok out ∧ lzDecode out src.length = .ok src

/-! Laws of the other units. -/

/-- R200 and R201: the empty string hashes to 0; a whole number of groups followed by one group of 1 to 4 bytes adds one
rotate and add of that group, folded and read little-endian; and only `a` to `z` fold. -/
def Obligations.HashIsRotateAndAdd : Prop :=
  hashBytes [] = 0 ∧
  (∀ s w : List Byte, s.length % 4 = 0 → 1 ≤ w.length → w.length ≤ 4 →
    hashBytes (s ++ w) = (hashBytes s).rotateLeft 1 +
      BitVec.ofNat 32 (∑ k ∈ Finset.range w.length, (foldByte (w.getD k 0)).toNat * 256 ^ k)) ∧
  ∀ x : Byte, (foldByte x).toNat = if 0x61 ≤ x.toNat ∧ x.toNat ≤ 0x7A then x.toNat - 0x20 else x.toNat

/-- Derived (the spec marks R208 as its own inference): feeding a string in any pieces gives the hash of the whole string, for the streaming functions and for the
commands H.INIT, H.FEED of each piece, H.FINAL. -/
def Obligations.StreamingHashIsOneShotHash : Prop :=
  (∀ pieces : List (List Byte),
    let st := pieces.foldl (fun st piece => piece.foldl hashAbsorb st) (0, [])
    hashFinish st.1 st.2 = hashBytes pieces.flatten) ∧
  ∀ (s : State) (pieces : List (XReg × XReg)) (dest : XReg),
    (∀ p ∈ pieces, s.natX p.1 + s.natX p.2 ≤ s.cfg.memSize) →
    ∃ t, execSeq ([.hInit] ++ pieces.map (fun p => .hFeed p.1 p.2) ++ [.hFinal dest]) s = .next t ∧
      t.getX dest = hashBytes (pieces.map fun p => s.memRead (s.natX p.1) (s.natX p.2)).flatten

/-- Derived (the spec marks R209 as its own inference): strings that differ only in the case of ASCII letters have the same hash. -/
def Obligations.HashIgnoresAsciiCase : Prop :=
  ∀ s t : List Byte, List.Forall₂ sameButCase s t → hashBytes s = hashBytes t

/-- Derived (the spec marks R264's value as its own inference): square-and-multiply gives the mathematical power modulo `m`. -/
def Obligations.ModExpIsThePower : Prop :=
  ∀ b e m : Nat, 0 < m → modExp b e m = b ^ e % m

/-- Derived (the spec marks R268 as its own inference): its laws, law by law, through the commands. -/
def Obligations.BigIntegerLaws : Prop :=
  (∀ (s t : State) (x : XReg) (a b c : BReg), exec (.bnCmp x b c) s = .next t → t.getX x = 1 ∨ t.getX x = 0 →
    ∃ u, exec (.bnSub a b c) t = .next u ∧ u.faulted = t.faulted ∧ u.getB a + s.getB c = s.getB b) ∧
  (∀ b e m : Nat, 0 < m → modExp b e m = modExp (b % m) e m) ∧
  (∀ b e1 e2 m : Nat, 0 < m → modExp b (e1 + e2) m = modExp b e1 m * modExp b e2 m % m) ∧
  (∀ (s : State) (a b : BReg), 2 * s.getB b < 2 ^ (32 * s.cfg.bnLimbs) →
    ∃ t, execSeq [.bnShl a b, .bnShr a a] s = .next t ∧ t.getB a = s.getB b) ∧
  (∀ (s : State) (x : XReg) (a b : BReg), ∃ t u, exec (.bnShr a b) s = .next t ∧ exec (.bnPar x b) s = .next u ∧
    2 * t.getB a + (u.getX x).toNat = s.getB b)

/-- Derived (the spec marks R316 as its own inference): under any tables, and so after BF.KEY of any key, encrypting and decrypting a buffer in either order leaves
every byte of memory as it was. -/
def Obligations.DecryptionUndoesEncryption : Prop :=
  (∀ (s : State) (a b : XReg), s.keyed = true → s.natX b % 8 = 0 → s.natX a + s.natX b ≤ s.cfg.memSize →
    (∃ t, execSeq [.bfEnc a b, .bfDec a b] s = .next t ∧ t.faulted = s.faulted ∧ keepsMem s t) ∧
    (∃ t, execSeq [.bfDec a b, .bfEnc a b] s = .next t ∧ t.faulted = s.faulted ∧ keepsMem s t)) ∧
  (∀ (s : State) (k n a b : XReg), 1 ≤ s.natX n → s.natX n ≤ 56 → s.natX k + s.natX n ≤ s.cfg.memSize →
    s.natX b % 8 = 0 → s.natX a + s.natX b ≤ s.cfg.memSize →
    (∃ t, execSeq [.bfKey k n, .bfEnc a b, .bfDec a b] s = .next t ∧ t.faulted = s.faulted ∧ keepsMem s t) ∧
    (∃ t, execSeq [.bfKey k n, .bfDec a b, .bfEnc a b] s = .next t ∧ t.faulted = s.faulted ∧ keepsMem s t))

/-! Faults and whole-machine rules (60_exceptions.md). -/

/-- R410 and R411: whatever step of a running sequencer ends in a fault, that fault is the first the step's checks meet; the
record holds its code, from 1 to 13, the command's own `cp` and its info word; the run stops; `cp`, every register, both
unit states and IRQ_EN stay, and the interrupt line equals IRQ_EN; memory stays too, but for the output of LZ.DEC or
LZ.ENC, which lies in the `info` bytes from `X[d]`. -/
def Obligations.FaultsArePrecise : Prop :=
  ∀ s t : State, s.hostTurns = [] → running s → step s = .next t → t.faulted = true →
    ∃ check, firstFault s = some check ∧ 1 ≤ check.code ∧ check.code ≤ 13 ∧
      entersFault check.code check.info s t ∧ t.irq = s.irqEn ∧
      (check.code ≠ 11 → check.code ≠ 12 → keepsMem s t) ∧
      (check.code = 11 ∨ check.code = 12 → ∃ a b c d e,
        (s.fetchInstr = .ok (.lzDec a b c d e) ∨ s.fetchInstr = .ok (.lzEnc a b c d e)) ∧
        ∀ n, n < s.natX d ∨ s.natX d + check.info.toNat ≤ n → t.byteAt n = s.byteAt n)

/-- From R406's first half: a step of a running sequencer answers a next state, which is still running, ended by HALT, or ended by a
fault; ended by HALT exactly when the command was HALT. -/
def Obligations.StepEndsInOneWay : Prop :=
  ∀ s : State, s.hostTurns = [] → running s →
    ∃ t, step s = .next t ∧ (running t ∨ endedDone t ∨ endedFaulted t) ∧
      (endedDone t ↔ s.fetchInstr = .ok .halt)

/-- From R31, R32, R38, R39, R86 and R425: no command writes state that is not its own: another X or B register than its
destination, the streaming hash, the cipher state, a byte of memory outside the range it stores to, and never the host's
part or `host_err`. -/
def Obligations.CommandsWriteOnlyTheirOwnState : Prop :=
  ∀ (i : Instr) (s t : State), exec i s = .next t →
    (∀ r, destX i ≠ some r → t.getX r = s.getX r) ∧
    (∀ r, destB i ≠ some r → t.getB r = s.getB r) ∧ (writesHashState i = false → keepsHash s t) ∧
    (writesCipherState i = false → keepsCipher s t) ∧ (storeRange s i = none → keepsMem s t) ∧
    (∀ addr len, storeRange s i = some (addr, len) → ∀ n, n < addr ∨ addr + len ≤ n → t.byteAt n = s.byteAt n) ∧
    keepsHost s t ∧ t.hostErr = s.hostErr

/-! The host (10_state.md, 20_memory.md, 70_reset_and_hazards.md). -/

/-- R61: a write of `w` to CTRL without SRST sets IRQ_EN, then acknowledges if told to, then starts the sequencer if
told to, which is refused while busy or (still) faulted; nothing else changes. With SRST it is a soft reset, whatever its
other bits. A read returns IRQ_EN in bit 8. -/
def Obligations.CtrlWritesAckThenStart : Prop :=
  ∀ (s : State) (w : Word) (rest : List HostTurn),
    (s.hostTurns = .act (.writeReg 4 4 w) :: rest → w.getLsbD 2 = false → ∃ t, step s = .next t ∧
      let ack := w.getLsbD 1
      let start := w.getLsbD 0
      let faulted1 := !ack && s.faulted
      let accepted := start && !s.busy && !faulted1
      t.irqEn = w.getLsbD 8 ∧
      t.faulted = faulted1 ∧ t.busy = (s.busy || accepted) ∧ t.done = (!ack && s.done && !accepted) ∧
      t.hostErr = ((!ack && s.hostErr) || (start && !accepted)) ∧
      t.faultCode = (if ack then 0 else s.faultCode) ∧ t.faultCp = (if ack then 0 else s.faultCp) ∧
      t.faultInfo = (if ack then 0 else s.faultInfo) ∧
      t.cp = s.cp ∧ keepsX s t ∧ keepsB s t ∧ keepsMem s t ∧ keepsHash s t ∧ keepsCipher s t ∧
      t.cfg = s.cfg ∧ t.hostTurns = rest ∧ t.hostReplies = s.hostReplies ∧ t.freeDraws = s.freeDraws) ∧
    (s.hostTurns = .act (.writeReg 4 4 w) :: rest → w.getLsbD 2 = true → ∃ t, step s = .next t ∧ softlyReset s t) ∧
    (s.hostTurns = .act (.readReg 4 4) :: rest → ∃ t, step s = .next t ∧
      t.hostReplies = s.hostReplies ++ [.reg (if s.irqEn then 0x100 else 0)])

/-- R452: a write to CTRL with SRST, at any time and whatever its other bits, resets everything but local memory. -/
def Obligations.SoftResetKeepsOnlyMemory : Prop :=
  ∀ (s : State) (w : Word) (rest : List HostTurn),
    s.hostTurns = .act (.writeReg 4 4 w) :: rest → w.getLsbD 2 = true → ∃ t, step s = .next t ∧
      softlyReset s t ∧ t.hostTurns = rest

/-- R60, R62 and R64, with the busy rule for CP and X[i]: what a host read of each register returns, and that it changes
nothing but `host_err`, and that only for CP and X[i] while busy; and what a host write to a register other than CTRL
does: CP and X[i] take the value while idle, are left alone with `host_err` set while busy; every other register and
every reserved offset ignores it. What BNLIMBS reads as where 32 bits do not hold `BN_LIMBS`, R64 does not say, and neither
does the statement (log 23). -/
def Obligations.HostRegisterBlock : Prop :=
  (∀ (s : State) (off : Word) (rest : List HostTurn),
      s.hostTurns = .act (.readReg off 4) :: rest → off.toNat % 4 = 0 → ∃ t v, step s = .next t ∧
        t.hostReplies = s.hostReplies ++ [.reg v] ∧ t.hostTurns = rest ∧ t.cp = s.cp ∧ t.busy = s.busy ∧
        t.done = s.done ∧ t.faulted = s.faulted ∧ t.irqEn = s.irqEn ∧ t.cfg = s.cfg ∧ keepsRecord s t ∧
        keepsX s t ∧ keepsB s t ∧ keepsMem s t ∧ keepsHash s t ∧ keepsCipher s t ∧
        let o := off.toNat
        let guarded := o = 0x00C ∨ (0x040 ≤ o ∧ o < 0x080)
        (guarded → s.busy = true → v = 0 ∧ t.hostErr = true) ∧
        (¬guarded ∨ s.busy = false → t.hostErr = s.hostErr) ∧
        (o = 0x000 → v = 1) ∧
        (o = 0x008 → v.getLsbD 0 = s.busy ∧ v.getLsbD 1 = s.done ∧ v.getLsbD 2 = s.faulted ∧
          v.getLsbD 3 = s.hostErr ∧ v.getLsbD 4 = s.keyed ∧
          (s.hpend.length ≤ 3 → (v.extractLsb' 5 2).toNat = s.hpend.length) ∧ v.getLsbD 7 = false ∧
          v.getLsbD 8 = (s.irqEn && (s.done || s.faulted)) ∧ ∀ i, 9 ≤ i → v.getLsbD i = false) ∧
        (o = 0x00C → s.busy = false → v = s.cp) ∧
        (o = 0x010 → v = s.faultCode) ∧ (o = 0x014 → v = s.faultCp) ∧ (o = 0x018 → v = s.faultInfo) ∧
        (o = 0x01C → v = BitVec.ofNat 32 s.cfg.memSize) ∧ 
        (o = 0x020 → s.cfg.bnLimbs < 2 ^ 32 → v.toNat = s.cfg.bnLimbs) ∧
        (∀ r : XReg, o = 0x040 + 4 * r.val → s.busy = false → v = s.getX r) ∧
        ((0x024 ≤ o ∧ o ≤ 0x03C) ∨ 0x080 ≤ o → v = 0)) ∧
  (∀ (s : State) (off w : Word) (rest : List HostTurn),
      s.hostTurns = .act (.writeReg off 4 w) :: rest → off.toNat % 4 = 0 → off.toNat ≠ 4 → ∃ t, step s = .next t ∧
        t.hostReplies = s.hostReplies ∧ t.hostTurns = rest ∧ t.busy = s.busy ∧ t.done = s.done ∧
        t.faulted = s.faulted ∧ t.irqEn = s.irqEn ∧ t.cfg = s.cfg ∧ keepsRecord s t ∧
        keepsB s t ∧ keepsMem s t ∧ keepsHash s t ∧ keepsCipher s t ∧
        let o := off.toNat
        let guarded := o = 0x00C ∨ (0x040 ≤ o ∧ o < 0x080)
        (guarded → s.busy = true → t.hostErr = true ∧ t.cp = s.cp ∧ keepsX s t) ∧
        (o = 0x00C → s.busy = false → t.hostErr = s.hostErr ∧ t.cp = w ∧ keepsX s t) ∧
        (∀ r : XReg, o = 0x040 + 4 * r.val → s.busy = false → t.hostErr = s.hostErr ∧ t.cp = s.cp ∧ writesX r w s t) ∧
        (¬guarded → t.hostErr = s.hostErr ∧ t.cp = s.cp ∧ keepsX s t))

/-- R90, R91: the memory port. While idle, bytes inside memory are read and written, bytes past the end read as 0 and are
dropped, and then `host_err` is set; while busy, reads give zeros, writes are dropped, and `host_err` is set. Nothing
else changes. -/
def Obligations.HostMemoryPort : Prop :=
  ∀ (s : State) (addr : Word) (rest : List HostTurn),
    (∀ n, s.hostTurns = .act (.readMem addr n) :: rest → ∃ t bs, step s = .next t ∧
      t.hostReplies = s.hostReplies ++ [.mem bs] ∧ bs.length = n ∧ keepsMem s t ∧
      t.hostTurns = rest ∧ t.freeDraws = s.freeDraws ∧ t.cp = s.cp ∧ t.busy = s.busy ∧ t.done = s.done ∧
      t.faulted = s.faulted ∧ t.irqEn = s.irqEn ∧ t.cfg = s.cfg ∧ keepsRecord s t ∧ keepsX s t ∧ keepsB s t ∧
      keepsHash s t ∧ keepsCipher s t ∧
      (∀ k, k < n → bs.getD k 0 =
        if s.busy = true ∨ s.cfg.memSize ≤ addr.toNat + k then 0 else s.byteAt (addr.toNat + k)) ∧
      t.hostErr = (s.hostErr || s.busy || decide (s.cfg.memSize < addr.toNat + n))) ∧
    (∀ bs, s.hostTurns = .act (.writeMem addr bs) :: rest → ∃ t, step s = .next t ∧
      t.hostReplies = s.hostReplies ∧
      t.hostTurns = rest ∧ t.freeDraws = s.freeDraws ∧ t.cp = s.cp ∧ t.busy = s.busy ∧ t.done = s.done ∧
      t.faulted = s.faulted ∧ t.irqEn = s.irqEn ∧ t.cfg = s.cfg ∧ keepsRecord s t ∧ keepsX s t ∧ keepsB s t ∧
      keepsHash s t ∧ keepsCipher s t ∧
      (∀ n, t.byteAt n =
        if s.busy = false ∧ addr.toNat ≤ n ∧ n < addr.toNat + bs.length ∧ n < s.cfg.memSize
          then bs.getD (n - addr.toNat) 0 else s.byteAt n) ∧
      t.hostErr = (s.hostErr || s.busy || decide (s.cfg.memSize < addr.toNat + bs.length)))

/-- From R50 and R472 (log 11): a step refuses exactly a host access to the register port that is not 32 bits wide at a 4-aligned offset,
under that access's own name. No command is refused. -/
def Obligations.OnlyMalformedHostAccessesAreRefused : Prop :=
  ∀ (s : State) (r : Refusal), step s = .refused r ↔
    ∃ off bytes rest, r = .hostAccessOutsideProtocol off bytes ∧ (bytes ≠ 4 ∨ off.toNat % 4 ≠ 0) ∧
      (s.hostTurns = .act (.readReg off bytes) :: rest ∨
        ∃ w, s.hostTurns = .act (.writeReg off bytes w) :: rest)

/-- From R415: after a fault, ACK and START written together clear the record and run the sequencer from the unchanged `cp`
with every register and memory as the fault left them; START alone is refused, sets `host_err`, and loses nothing of
the record. -/
def Obligations.HostResumesAfterAFault : Prop :=
  ∀ (s : State) (w : Word) (rest : List HostTurn), endedFaulted s →
    s.hostTurns = .act (.writeReg 4 4 w) :: rest → w.getLsbD 2 = false → w.getLsbD 0 = true →
    ∃ t, step s = .next t ∧ t.cp = s.cp ∧ keepsX s t ∧ keepsB s t ∧ keepsMem s t ∧ keepsHash s t ∧
      keepsCipher s t ∧ t.hostTurns = rest ∧
      (w.getLsbD 1 = true → running t ∧ t.hostErr = false ∧ t.faultCode = 0 ∧ t.faultCp = 0 ∧ t.faultInfo = 0) ∧
      (w.getLsbD 1 = false → endedFaulted t ∧ t.hostErr = true ∧ keepsRecord s t)

/-- R66 and R450: power-on reset, for any parameters, any drawn memory and any drawn cipher tables, leaves the block
idle at the entry point with everything else zero; `State.reset` is one such reset (the draws it names are the model's
choice, log 1 and log 2, and no clause here speaks of them). -/
def Obligations.PowerOnResetState : Prop :=
  (∀ (cfg : Config) (mem : Memory) (tables : CipherTables),
    let s := State.powerOn cfg mem tables
    (∀ r, s.getX r = 0) ∧ (∀ r, s.getB r = 0) ∧ s.cp = 0 ∧ cleanLaunch s ∧ s.hacc = 0 ∧ s.hpend = [] ∧
      s.keyed = false ∧ s.faultCode = 0 ∧ s.faultCp = 0 ∧ s.faultInfo = 0 ∧ s.irqEn = false ∧
      s.mem = mem ∧ s.tables = tables) ∧
  ∃ mem tables, State.reset = State.powerOn Config.standard mem tables

/-! The invariant. -/

/-- The state after reset has the invariant. -/
def Obligations.ResetHasTheInvariant : Prop := State.reset.Inv

/-- Every step, the sequencer's or the host's, from any state that has the invariant gives a state that has it: B
registers stay below their capacity, at most three folded bytes are pending, at most one of the run bits is set, the
fault record is there exactly while `faulted`, and memory stays canonical and inside its size. -/
def Obligations.EveryStepKeepsTheInvariant : Prop :=
  ∀ s t : State, s.Inv → step s = .next t → t.Inv
end

