-- ==== Sys2Proof/Laws/Bytes.lean ====
section
/-! SUPPORT. Byte strings as numbers: lengths, bounds and inverses (00_scope.md R12). -/

namespace Sys2Proof.Machine

@[simp] theorem length_leBytes (v n : Nat) : (leBytes v n).length = n := by
  induction n generalizing v with
  | zero => rfl
  | succ n ih => simp [leBytes, ih]

@[simp] theorem length_beBytes (v n : Nat) : (beBytes v n).length = n := by simp [beBytes]

theorem leNat_lt (bs : List Byte) : leNat bs < 256 ^ bs.length := by
  induction bs with
  | nil => simp [leNat]
  | cons b bs ih =>
    have := b.isLt
    simp only [leNat, List.length_cons, Nat.pow_succ]
    omega

theorem beNat_lt (bs : List Byte) : beNat bs < 256 ^ bs.length := by
  simpa [beNat] using leNat_lt bs.reverse

/-- Writing a number out and reading it back keeps its low `n` bytes. -/
theorem leNat_leBytes (v n : Nat) : leNat (leBytes v n) = v % 256 ^ n := by
  induction n generalizing v with
  | zero => simp [leBytes, leNat, Nat.mod_one]
  | succ n ih =>
    rw [Nat.pow_succ, Nat.mul_comm (256 ^ n) 256, Nat.mod_mul]
    simp [leBytes, leNat, ih]

theorem beNat_beBytes (v n : Nat) : beNat (beBytes v n) = v % 256 ^ n := by
  simp [beNat, beBytes, leNat_leBytes]

/-- Reading a byte string and writing it out again gives the string. -/
theorem leBytes_leNat (bs : List Byte) : leBytes (leNat bs) bs.length = bs := by
  induction bs with
  | nil => rfl
  | cons b bs ih =>
    have hb := b.isLt
    have h1 : (b.toNat + 256 * leNat bs) / 256 = leNat bs := by omega
    simp only [leNat, List.length_cons, leBytes, h1, ih]
    congr 1
    apply BitVec.eq_of_toNat_eq
    simp only [BitVec.toNat_ofNat]
    omega

theorem beBytes_beNat (bs : List Byte) : beBytes (beNat bs) bs.length = bs := by
  have := leBytes_leNat bs.reverse
  rw [List.length_reverse] at this
  simp [beBytes, beNat, this]

/-- `bitlen v` is the least `n` with `v < 2^n`. -/
theorem lt_two_pow_iff_bitlen_le (v n : Nat) : v < 2 ^ n ↔ bitlen v ≤ n := by
  unfold bitlen
  split
  · rename_i h; subst h; simp
  · rename_i h
    rw [Nat.add_one_le_iff, Nat.log2_lt h]

/-- `bytelen v` is the least `n` with `v < 256^n`. -/
theorem lt_256_pow_iff_bytelen_le (v n : Nat) : v < 256 ^ n ↔ bytelen v ≤ n := by
  rw [show (256 : Nat) = 2 ^ 8 from rfl, ← Nat.pow_mul, lt_two_pow_iff_bitlen_le]
  unfold bytelen
  omega

theorem lt_256_pow_bytelen (v : Nat) : v < 256 ^ bytelen v := (lt_256_pow_iff_bytelen_le v _).2 le_rfl

theorem word_toNat_of_lt {n : Nat} (h : n < 2 ^ 32) : (word n).toNat = n := by
  simp only [word, BitVec.toNat_ofNat]; omega

@[simp] theorem word_toNat (w : Word) : word w.toNat = w := by simp [word]

/-- A byte of `LE_bytes(v, n)`. -/
theorem getD_leBytes (v n k : Nat) (h : k < n) : (leBytes v n).getD k 0 = BitVec.ofNat 8 (v / 256 ^ k) := by
  induction n generalizing v k with
  | zero => omega
  | succ n ih =>
    cases k with
    | zero => simp [leBytes]
    | succ k =>
      simp only [leBytes, List.getD_cons_succ]
      rw [ih _ _ (by omega), Nat.div_div_eq_div_mul, Nat.pow_succ, Nat.mul_comm]

/-- `LE` as the sum of its bytes' weights. -/
theorem leNat_eq_sum (bs : List Byte) :
    leNat bs = ∑ k ∈ Finset.range bs.length, (bs.getD k 0).toNat * 256 ^ k := by
  induction bs with
  | nil => rfl
  | cons b bs ih =>
    rw [leNat, ih, List.length_cons, Finset.sum_range_succ', Finset.mul_sum, Nat.add_comm]
    congr 1
    · apply Finset.sum_congr rfl
      intro k _
      simp only [List.getD_cons_succ]
      ring
    · simp

/-- A byte of a reversed string. -/
theorem getD_reverse_byte (bs : List Byte) (k : Nat) (h : k < bs.length) :
    bs.reverse.getD k 0 = bs.getD (bs.length - 1 - k) 0 := by
  simp [List.getD_eq_getElem?_getD, List.getElem?_reverse h]

/-- `BE` as the sum of its bytes' weights. -/
theorem beNat_eq_sum (bs : List Byte) :
    beNat bs = ∑ k ∈ Finset.range bs.length, (bs.getD k 0).toNat * 256 ^ (bs.length - 1 - k) := by
  rw [beNat, leNat_eq_sum, List.length_reverse, ← Finset.sum_range_reflect]
  apply Finset.sum_congr rfl
  intro k hk
  have := Finset.mem_range.1 hk
  rw [getD_reverse_byte _ _ (by omega), show bs.length - 1 - (bs.length - 1 - k) = k by omega]

end Sys2Proof.Machine
end

