-- ==== Sys2Proof/Laws/Decode.lean ====
section
/-! SUPPORT. Fields of a packed command word, and the word of its fields (30_encoding.md R111). -/

namespace Sys2Proof

open Sys2Proof.Machine

/-- The command word's number, field by field. -/
theorem packCmd_toNat (f : CmdFields) : (packCmd f).toNat =
    f.op.toNat + 2 ^ 8 * f.a.toNat + 2 ^ 12 * f.b.toNat + 2 ^ 16 * f.c.toNat + 2 ^ 20 * f.d.toNat +
      2 ^ 24 * f.e.toNat + 2 ^ 28 * f.z.toNat + 2 ^ 32 * f.imm.toNat := by
  have h0 := f.op.isLt; have h1 := f.a.isLt; have h2 := f.b.isLt; have h3 := f.c.isLt
  have h4 := f.d.isLt; have h5 := f.e.isLt; have h6 := f.z.isLt; have h7 := f.imm.isLt
  simp only [packCmd, BitVec.toNat_append]
  rw [← Nat.shiftLeft_add_eq_or_of_lt (by omega), ← Nat.shiftLeft_add_eq_or_of_lt (by omega),
    ← Nat.shiftLeft_add_eq_or_of_lt (by omega), ← Nat.shiftLeft_add_eq_or_of_lt (by omega),
    ← Nat.shiftLeft_add_eq_or_of_lt (by omega), ← Nat.shiftLeft_add_eq_or_of_lt (by omega),
    ← Nat.shiftLeft_add_eq_or_of_lt (by omega)]
  simp only [Nat.shiftLeft_eq]
  omega

/-- Every field is read back from the packed word. -/
theorem cmdFields_packCmd (f : CmdFields) : cmdFields (packCmd f) = f := by
  have h := packCmd_toNat f
  have h0 := f.op.isLt; have h1 := f.a.isLt; have h2 := f.b.isLt; have h3 := f.c.isLt
  have h4 := f.d.isLt; have h5 := f.e.isLt; have h6 := f.z.isLt; have h7 := f.imm.isLt
  obtain ⟨op, a, b, c, d, e, z, imm⟩ := f
  simp only at *
  simp only [cmdFields, CmdFields.mk.injEq]
  refine ⟨?_, ?_, ?_, ?_, ?_, ?_, ?_, ?_⟩ <;> apply BitVec.eq_of_toNat_eq <;>
    simp only [BitVec.extractLsb'_toNat, Nat.shiftRight_eq_div_pow, h] <;> omega

/-- Every word is the packing of its fields: no bit is dropped. -/
theorem packCmd_cmdFields (w : CmdWord) : packCmd (cmdFields w) = w := by
  apply BitVec.eq_of_toNat_eq
  have h := w.isLt
  rw [packCmd_toNat]
  simp only [cmdFields, BitVec.extractLsb'_toNat, Nat.shiftRight_eq_div_pow]
  omega

theorem fieldReg_regField (r : Fin 16) : fieldReg (regField r) = r := rfl

theorem regField_fieldReg (f : BitVec 4) : regField (fieldReg f) = f := rfl

/-- The eight bytes of a command word read back as the word. -/
theorem wordOfBytes_leBytes (w : CmdWord) (rest : List Byte) : wordOfBytes (leBytes w.toNat 8 ++ rest) = w := by
  apply BitVec.eq_of_toNat_eq
  have h := w.isLt
  rw [wordOfBytes, List.take_append_of_le_length (by simp), List.take_of_length_le (by simp), leNat_leBytes]
  simp only [BitVec.toNat_ofNat]
  omega

/-- Decoding bytes is decoding the word they make. -/
theorem decodeBytes_of_eight (bs : List Byte) (h : bs.length = 8) :
    decodeBytes bs = (decodeWord (wordOfBytes bs)).map (fun i => (i, [])) := by
  simp only [decodeBytes, h, lt_irrefl, if_false]
  cases decodeWord (wordOfBytes bs) <;> simp [Except.map, List.drop_of_length_le (Nat.le_of_eq h)]

end Sys2Proof
end

