-- ==== Sys2Proof/Laws/Memory.lean ====
section
/-! SUPPORT. Memory: reads after writes, and the canonical form that every operation keeps. -/

namespace Sys2Proof.Machine

@[simp] theorem Memory.read_nil (a : Nat) : Memory.read [] a = 0 := rfl

theorem Memory.read_cons (c : Host.Cell) (m : Memory) (a : Nat) :
    Memory.read (c :: m) a = if a = c.1 then c.2 else Memory.read m a := rfl

theorem Memory.read_erase (m : Memory) (a n : Nat) :
    (m.erase a).read n = if n = a then 0 else m.read n := by
  induction m with
  | nil => simp [Memory.erase]
  | cons c m ih =>
    simp only [Memory.erase] at ih ⊢
    by_cases h : c.1 = a
    · simp only [List.filter_cons, h, bne_self_eq_false, Bool.false_eq_true, if_false, ih, Memory.read_cons]
      split <;> simp_all
    · have h' : (c.1 != a) = true := by simp [h]
      simp only [List.filter_cons, h', if_true, Memory.read_cons, ih]
      by_cases h2 : n = a
      · subst h2; simp [Ne.symm h]
      · simp [h2]

theorem Memory.read_insert (a : Nat) (v : Byte) (m : Memory) (n : Nat) (hm : a ∉ m.map Prod.fst) :
    (Memory.insert a v m).read n = if n = a then v else m.read n := by
  induction m with
  | nil => simp [Memory.insert, Memory.read_cons]
  | cons c m ih =>
    obtain ⟨b, w⟩ := c
    simp only [List.map_cons, List.mem_cons, not_or] at hm
    simp only [Memory.insert]
    split
    · simp [Memory.read_cons]
    · simp only [Memory.read_cons, ih hm.2]
      by_cases h : n = a
      · subst h; simp [hm.1]
      · simp [h]

theorem Memory.not_mem_erase (m : Memory) (a : Nat) : a ∉ (m.erase a).map Prod.fst := by
  simp [Memory.erase]

/-- A byte read after a write: the value written at its address, the old byte elsewhere (20 R82). -/
theorem Memory.read_write (m : Memory) (a : Nat) (v : Byte) (n : Nat) :
    (m.write a v).read n = if n = a then v else m.read n := by
  unfold Memory.write
  split
  · rename_i h; rw [Memory.read_erase, h]; rfl
  · rw [Memory.read_insert _ _ _ _ (Memory.not_mem_erase m a), Memory.read_erase]
    split <;> rfl

/-- A byte read after a string is written: the string's byte inside it, the old byte outside (R82). -/
theorem Memory.read_writeBytes (bs : List Byte) (m : Memory) (a n : Nat) :
    (m.writeBytes a bs).read n = if a ≤ n ∧ n < a + bs.length then bs.getD (n - a) 0 else m.read n := by
  induction bs generalizing m a with
  | nil => simp only [Memory.writeBytes, List.length_nil]; rw [if_neg (by omega)]
  | cons v vs ih =>
    simp only [Memory.writeBytes, ih, Memory.read_write, List.length_cons]
    by_cases h1 : n = a
    · subst h1; simp
    · by_cases h2 : a + 1 ≤ n ∧ n < a + 1 + vs.length
      · obtain ⟨k, rfl⟩ : ∃ k, n = a + 1 + k := ⟨n - (a + 1), by omega⟩
        rw [if_pos h2, if_pos (by omega), show a + 1 + k - (a + 1) = k by omega, show a + 1 + k - a = k + 1 by omega]
        simp
      · rw [if_neg h2, if_neg h1, if_neg (by omega)]

@[simp] theorem Memory.length_readBytes (m : Memory) (a n : Nat) : (m.readBytes a n).length = n := by
  induction n generalizing a with
  | zero => rfl
  | succ n ih => simp [Memory.readBytes, ih]

/-- Byte `k` of a string read from memory (R82). -/
theorem Memory.getD_readBytes (m : Memory) (a n k : Nat) (h : k < n) : (m.readBytes a n).getD k 0 = m.read (a + k) := by
  induction n generalizing a k with
  | zero => omega
  | succ n ih =>
    cases k with
    | zero => simp [Memory.readBytes]
    | succ k =>
      simp only [Memory.readBytes, List.getD_cons_succ]
      rw [ih (a + 1) k (by omega), show a + 1 + k = a + (k + 1) by omega]

/-- A string read from memory depends only on the bytes it covers. -/
theorem Memory.readBytes_congr (m m' : Memory) (a n : Nat) (h : ∀ i, a ≤ i → i < a + n → m.read i = m'.read i) :
    m.readBytes a n = m'.readBytes a n := by
  induction n generalizing a with
  | zero => rfl
  | succ n ih =>
    simp only [Memory.readBytes]
    rw [h a (by omega) (by omega), ih (a + 1) fun i h1 h2 => h i (by omega) (by omega)]

/-- What is read back is what was written (R82). -/
theorem Memory.readBytes_writeBytes (m : Memory) (a : Nat) (bs : List Byte) :
    (m.writeBytes a bs).readBytes a bs.length = bs := by
  apply List.ext_getElem (by simp)
  intro k h1 h2
  have h := Memory.getD_readBytes (m.writeBytes a bs) a bs.length k h2
  rw [Memory.read_writeBytes, if_pos (by omega), show a + k - a = k by omega] at h
  simpa [List.getD_eq_getElem?_getD, List.getElem?_eq_getElem h1, List.getElem?_eq_getElem h2] using h

theorem Memory.writeBytes_append (m : Memory) (a : Nat) (xs ys : List Byte) :
    m.writeBytes a (xs ++ ys) = (m.writeBytes a xs).writeBytes (a + xs.length) ys := by
  induction xs generalizing m a with
  | nil => rfl
  | cons x xs ih =>
    simp only [List.cons_append, Memory.writeBytes, ih, List.length_cons]
    rw [show a + 1 + xs.length = a + (xs.length + 1) by omega]

/-! The canonical form. -/

/-- The canonical form as sorted addresses and listed values. -/
theorem Memory.wf_iff (m : Memory) :
    m.wf = true ↔ m.Pairwise (fun c d => c.1 < d.1) ∧ ∀ c ∈ m, c.2 ≠ unlistedByte := by
  induction m with
  | nil => simp [Memory.wf]
  | cons c m ih =>
    obtain ⟨a, v⟩ := c
    cases m with
    | nil => simp [Memory.wf]
    | cons d m =>
      obtain ⟨b, w⟩ := d
      simp only [Memory.wf, Bool.and_eq_true, bne_iff_ne, decide_eq_true_eq, ih]
      constructor
      · rintro ⟨⟨hv, hab⟩, hp, hl⟩
        refine ⟨List.pairwise_cons.2 ⟨?_, hp⟩, ?_⟩
        · intro e he
          rcases List.mem_cons.1 he with rfl | he
          · exact hab
          · exact lt_trans hab ((List.pairwise_cons.1 hp).1 e he)
        · intro e he
          rcases List.mem_cons.1 he with rfl | he
          · exact hv
          · exact hl e he
      · rintro ⟨hp, hl⟩
        have := List.pairwise_cons.1 hp
        exact ⟨⟨hl (a, v) (by simp), this.1 (b, w) (by simp)⟩, this.2, fun e he => hl e (List.mem_cons_of_mem _ he)⟩

theorem Memory.mem_insert (a : Nat) (v : Byte) (m : Memory) (c : Host.Cell) :
    c ∈ Memory.insert a v m ↔ c = (a, v) ∨ c ∈ m := by
  induction m with
  | nil => simp [Memory.insert]
  | cons d m ih =>
    simp only [Memory.insert]
    split
    · simp
    · simp only [List.mem_cons, ih]; tauto

theorem Memory.wf_erase (m : Memory) (a : Nat) (h : m.wf = true) : (m.erase a).wf = true := by
  rw [Memory.wf_iff] at h ⊢
  exact ⟨h.1.filter _, fun c hc => h.2 c (List.mem_filter.1 hc).1⟩

theorem Memory.wf_insert (a : Nat) (v : Byte) (m : Memory) (h : m.wf = true) (ha : a ∉ m.map Prod.fst)
    (hv : v ≠ unlistedByte) : (Memory.insert a v m).wf = true := by
  rw [Memory.wf_iff] at h ⊢
  refine ⟨?_, ?_⟩
  · obtain ⟨hp, -⟩ := h
    induction m with
    | nil => simp [Memory.insert]
    | cons c m ih =>
      obtain ⟨b, w⟩ := c
      simp only [List.map_cons, List.mem_cons, not_or] at ha
      have hp' := List.pairwise_cons.1 hp
      simp only [Memory.insert]
      split
      · rename_i hlt
        refine List.pairwise_cons.2 ⟨?_, hp⟩
        intro e he
        rcases List.mem_cons.1 he with rfl | he
        · exact hlt
        · exact lt_trans hlt (hp'.1 e he)
      · rename_i hlt
        refine List.pairwise_cons.2 ⟨?_, ih ha.2 hp'.2⟩
        intro e he
        rcases (Memory.mem_insert a v m e).1 he with rfl | he
        · have := ha.1; simp only; omega
        · exact hp'.1 e he
  · intro c hc
    rcases (Memory.mem_insert a v m c).1 hc with rfl | hc
    · exact hv
    · exact h.2 c hc

/-- A write keeps the canonical form. -/
theorem Memory.wf_write (m : Memory) (a : Nat) (v : Byte) (h : m.wf = true) : (m.write a v).wf = true := by
  unfold Memory.write
  split
  · exact Memory.wf_erase m a h
  · exact Memory.wf_insert a v _ (Memory.wf_erase m a h) (Memory.not_mem_erase m a) ‹_›

/-- A write of a string keeps the canonical form. -/
theorem Memory.wf_writeBytes (bs : List Byte) (m : Memory) (a : Nat) (h : m.wf = true) :
    (m.writeBytes a bs).wf = true := by
  induction bs generalizing m a with
  | nil => exact h
  | cons v vs ih => exact ih _ _ (Memory.wf_write m a v h)

/-- Equal reads make equal memories: the form is canonical. -/
theorem Memory.read_eq_zero_of_lt (m : Memory) (a : Nat) (h : ∀ c ∈ m, a < c.1) : m.read a = 0 := by
  induction m with
  | nil => rfl
  | cons c m ih =>
    rw [Memory.read_cons, if_neg (by have := h c (by simp); omega)]
    exact ih fun d hd => h d (by simp [hd])

/-- Two canonical memories that read the same are the same list. -/
theorem Memory.ext_of_wf (m m' : Memory) (h : m.wf = true) (h' : m'.wf = true)
    (hr : ∀ n, m.read n = m'.read n) : m = m' := by
  rw [Memory.wf_iff] at h h'
  induction m generalizing m' with
  | nil =>
    cases m' with
    | nil => rfl
    | cons d m' =>
      have := hr d.1
      simp only [Memory.read_nil, Memory.read_cons, if_true] at this
      exact absurd this.symm (h'.2 d (by simp))
  | cons c m ih =>
    have hc := h.2 c (by simp)
    have hpc := List.pairwise_cons.1 h.1
    cases m' with
    | nil =>
      have := hr c.1
      simp only [Memory.read_nil, Memory.read_cons, if_true] at this
      exact absurd this hc
    | cons d m' =>
      have hd := h'.2 d (by simp)
      have hpd := List.pairwise_cons.1 h'.1
      have hkey : c.1 = d.1 := by
        rcases Nat.lt_trichotomy c.1 d.1 with hlt | heq | hgt
        · have h1 := hr c.1
          rw [Memory.read_cons, if_pos rfl, Memory.read_eq_zero_of_lt (d :: m') c.1] at h1
          · exact absurd h1 hc
          · intro e he
            rcases List.mem_cons.1 he with rfl | he
            · exact hlt
            · exact lt_trans hlt (hpd.1 e he)
        · exact heq
        · have h1 := hr d.1
          rw [Memory.read_eq_zero_of_lt (c :: m) d.1, Memory.read_cons, if_pos rfl] at h1
          · exact absurd h1.symm hd
          · intro e he
            rcases List.mem_cons.1 he with rfl | he
            · exact hgt
            · exact lt_trans hgt (hpc.1 e he)
      have hval : c.2 = d.2 := by
        have h1 := hr c.1
        simpa [Memory.read_cons, hkey] using h1
      have htail : m = m' := by
        refine ih m' ⟨hpc.2, fun e he => h.2 e (by simp [he])⟩ ⟨hpd.2, fun e he => h'.2 e (by simp [he])⟩ ?_
        intro n
        by_cases hn : n = c.1
        · subst hn
          rw [Memory.read_eq_zero_of_lt m _ hpc.1, hkey, Memory.read_eq_zero_of_lt m' _ hpd.1]
        · have h1 := hr n
          rwa [Memory.read_cons, Memory.read_cons, if_neg hn, if_neg (hkey ▸ hn)] at h1
      rw [htail, show c = d from Prod.ext hkey hval]

/-! Memory never lists an address past its end. -/

theorem Memory.below_iff (n : Nat) (m : Memory) : m.below n = true ↔ ∀ c ∈ m, c.1 < n := by
  simp [Memory.below]

theorem Memory.below_write (n : Nat) (m : Memory) (a : Nat) (v : Byte) (h : m.below n = true) (ha : a < n) :
    (m.write a v).below n = true := by
  rw [Memory.below_iff] at h ⊢
  have he : ∀ c ∈ m.erase a, c.1 < n := fun c hc => h c (List.mem_filter.1 hc).1
  unfold Memory.write
  split
  · exact he
  · intro c hc
    rcases (Memory.mem_insert a v _ c).1 hc with rfl | hc
    · exact ha
    · exact he c hc

theorem Memory.below_writeBytes (n : Nat) (bs : List Byte) (m : Memory) (a : Nat) (h : m.below n = true)
    (ha : a + bs.length ≤ n) : (m.writeBytes a bs).below n = true := by
  induction bs generalizing m a with
  | nil => exact h
  | cons v vs ih =>
    simp only [List.length_cons] at ha
    exact ih _ _ (Memory.below_write n m a v h (by omega)) (by omega)

/-- `MemRead` byte by byte (20_memory.md R82). -/
theorem Memory.readBytes_eq_map (m : Memory) (a n : Nat) :
    m.readBytes a n = (List.range n).map fun k => m.read (a + k) := by
  induction n generalizing a with
  | zero => rfl
  | succ n ih =>
    rw [Memory.readBytes, ih, List.range_succ_eq_map]
    simp [List.map_map, Function.comp_def, Nat.add_assoc, Nat.add_comm 1]

end Sys2Proof.Machine
end

