-- ==== Sys2Proof/Laws/State.lean ====
section
/-! SUPPORT. What each named update of the state does to each field, and the register reads after it. -/

namespace Sys2Proof.Machine

@[simp] theorem State.advance_cfg (s : State) : s.advance.cfg = s.cfg := rfl
@[simp] theorem State.advance_x (s : State) : s.advance.x = s.x := rfl
@[simp] theorem State.advance_b (s : State) : s.advance.b = s.b := rfl
@[simp] theorem State.advance_cp (s : State) : s.advance.cp = s.cp + 8 := rfl
@[simp] theorem State.advance_busy (s : State) : s.advance.busy = s.busy := rfl
@[simp] theorem State.advance_done (s : State) : s.advance.done = s.done := rfl
@[simp] theorem State.advance_faulted (s : State) : s.advance.faulted = s.faulted := rfl
@[simp] theorem State.advance_hostErr (s : State) : s.advance.hostErr = s.hostErr := rfl
@[simp] theorem State.advance_hacc (s : State) : s.advance.hacc = s.hacc := rfl
@[simp] theorem State.advance_hpend (s : State) : s.advance.hpend = s.hpend := rfl
@[simp] theorem State.advance_keyed (s : State) : s.advance.keyed = s.keyed := rfl
@[simp] theorem State.advance_tables (s : State) : s.advance.tables = s.tables := rfl
@[simp] theorem State.advance_faultCode (s : State) : s.advance.faultCode = s.faultCode := rfl
@[simp] theorem State.advance_faultCp (s : State) : s.advance.faultCp = s.faultCp := rfl
@[simp] theorem State.advance_faultInfo (s : State) : s.advance.faultInfo = s.faultInfo := rfl
@[simp] theorem State.advance_irqEn (s : State) : s.advance.irqEn = s.irqEn := rfl
@[simp] theorem State.advance_mem (s : State) : s.advance.mem = s.mem := rfl
@[simp] theorem State.advance_hostTurns (s : State) : s.advance.hostTurns = s.hostTurns := rfl
@[simp] theorem State.advance_hostReplies (s : State) : s.advance.hostReplies = s.hostReplies := rfl
@[simp] theorem State.advance_freeDraws (s : State) : s.advance.freeDraws = s.freeDraws := rfl

@[simp] theorem State.setX_cfg (s : State) (r : XReg) (v : Word) : (s.setX r v).cfg = s.cfg := rfl
@[simp] theorem State.setX_x (s : State) (r : XReg) (v : Word) : (s.setX r v).x = s.x.set r.val v r.isLt := rfl
@[simp] theorem State.setX_b (s : State) (r : XReg) (v : Word) : (s.setX r v).b = s.b := rfl
@[simp] theorem State.setX_cp (s : State) (r : XReg) (v : Word) : (s.setX r v).cp = s.cp := rfl
@[simp] theorem State.setX_busy (s : State) (r : XReg) (v : Word) : (s.setX r v).busy = s.busy := rfl
@[simp] theorem State.setX_done (s : State) (r : XReg) (v : Word) : (s.setX r v).done = s.done := rfl
@[simp] theorem State.setX_faulted (s : State) (r : XReg) (v : Word) : (s.setX r v).faulted = s.faulted := rfl
@[simp] theorem State.setX_hostErr (s : State) (r : XReg) (v : Word) : (s.setX r v).hostErr = s.hostErr := rfl
@[simp] theorem State.setX_hacc (s : State) (r : XReg) (v : Word) : (s.setX r v).hacc = s.hacc := rfl
@[simp] theorem State.setX_hpend (s : State) (r : XReg) (v : Word) : (s.setX r v).hpend = s.hpend := rfl
@[simp] theorem State.setX_keyed (s : State) (r : XReg) (v : Word) : (s.setX r v).keyed = s.keyed := rfl
@[simp] theorem State.setX_tables (s : State) (r : XReg) (v : Word) : (s.setX r v).tables = s.tables := rfl
@[simp] theorem State.setX_faultCode (s : State) (r : XReg) (v : Word) : (s.setX r v).faultCode = s.faultCode := rfl
@[simp] theorem State.setX_faultCp (s : State) (r : XReg) (v : Word) : (s.setX r v).faultCp = s.faultCp := rfl
@[simp] theorem State.setX_faultInfo (s : State) (r : XReg) (v : Word) : (s.setX r v).faultInfo = s.faultInfo := rfl
@[simp] theorem State.setX_irqEn (s : State) (r : XReg) (v : Word) : (s.setX r v).irqEn = s.irqEn := rfl
@[simp] theorem State.setX_mem (s : State) (r : XReg) (v : Word) : (s.setX r v).mem = s.mem := rfl
@[simp] theorem State.setX_hostTurns (s : State) (r : XReg) (v : Word) : (s.setX r v).hostTurns = s.hostTurns := rfl
@[simp] theorem State.setX_hostReplies (s : State) (r : XReg) (v : Word) : (s.setX r v).hostReplies = s.hostReplies := rfl
@[simp] theorem State.setX_freeDraws (s : State) (r : XReg) (v : Word) : (s.setX r v).freeDraws = s.freeDraws := rfl

@[simp] theorem State.setB_cfg (s : State) (r : BReg) (v : Nat) : (s.setB r v).cfg = s.cfg := rfl
@[simp] theorem State.setB_x (s : State) (r : BReg) (v : Nat) : (s.setB r v).x = s.x := rfl
@[simp] theorem State.setB_b (s : State) (r : BReg) (v : Nat) : (s.setB r v).b = s.b.set r.val v r.isLt := rfl
@[simp] theorem State.setB_cp (s : State) (r : BReg) (v : Nat) : (s.setB r v).cp = s.cp := rfl
@[simp] theorem State.setB_busy (s : State) (r : BReg) (v : Nat) : (s.setB r v).busy = s.busy := rfl
@[simp] theorem State.setB_done (s : State) (r : BReg) (v : Nat) : (s.setB r v).done = s.done := rfl
@[simp] theorem State.setB_faulted (s : State) (r : BReg) (v : Nat) : (s.setB r v).faulted = s.faulted := rfl
@[simp] theorem State.setB_hostErr (s : State) (r : BReg) (v : Nat) : (s.setB r v).hostErr = s.hostErr := rfl
@[simp] theorem State.setB_hacc (s : State) (r : BReg) (v : Nat) : (s.setB r v).hacc = s.hacc := rfl
@[simp] theorem State.setB_hpend (s : State) (r : BReg) (v : Nat) : (s.setB r v).hpend = s.hpend := rfl
@[simp] theorem State.setB_keyed (s : State) (r : BReg) (v : Nat) : (s.setB r v).keyed = s.keyed := rfl
@[simp] theorem State.setB_tables (s : State) (r : BReg) (v : Nat) : (s.setB r v).tables = s.tables := rfl
@[simp] theorem State.setB_faultCode (s : State) (r : BReg) (v : Nat) : (s.setB r v).faultCode = s.faultCode := rfl
@[simp] theorem State.setB_faultCp (s : State) (r : BReg) (v : Nat) : (s.setB r v).faultCp = s.faultCp := rfl
@[simp] theorem State.setB_faultInfo (s : State) (r : BReg) (v : Nat) : (s.setB r v).faultInfo = s.faultInfo := rfl
@[simp] theorem State.setB_irqEn (s : State) (r : BReg) (v : Nat) : (s.setB r v).irqEn = s.irqEn := rfl
@[simp] theorem State.setB_mem (s : State) (r : BReg) (v : Nat) : (s.setB r v).mem = s.mem := rfl
@[simp] theorem State.setB_hostTurns (s : State) (r : BReg) (v : Nat) : (s.setB r v).hostTurns = s.hostTurns := rfl
@[simp] theorem State.setB_hostReplies (s : State) (r : BReg) (v : Nat) : (s.setB r v).hostReplies = s.hostReplies := rfl
@[simp] theorem State.setB_freeDraws (s : State) (r : BReg) (v : Nat) : (s.setB r v).freeDraws = s.freeDraws := rfl

@[simp] theorem State.memWrite_cfg (s : State) (a : Nat) (bs : List Byte) : (s.memWrite a bs).cfg = s.cfg := rfl
@[simp] theorem State.memWrite_x (s : State) (a : Nat) (bs : List Byte) : (s.memWrite a bs).x = s.x := rfl
@[simp] theorem State.memWrite_b (s : State) (a : Nat) (bs : List Byte) : (s.memWrite a bs).b = s.b := rfl
@[simp] theorem State.memWrite_cp (s : State) (a : Nat) (bs : List Byte) : (s.memWrite a bs).cp = s.cp := rfl
@[simp] theorem State.memWrite_busy (s : State) (a : Nat) (bs : List Byte) : (s.memWrite a bs).busy = s.busy := rfl
@[simp] theorem State.memWrite_done (s : State) (a : Nat) (bs : List Byte) : (s.memWrite a bs).done = s.done := rfl
@[simp] theorem State.memWrite_faulted (s : State) (a : Nat) (bs : List Byte) : (s.memWrite a bs).faulted = s.faulted := rfl
@[simp] theorem State.memWrite_hostErr (s : State) (a : Nat) (bs : List Byte) : (s.memWrite a bs).hostErr = s.hostErr := rfl
@[simp] theorem State.memWrite_hacc (s : State) (a : Nat) (bs : List Byte) : (s.memWrite a bs).hacc = s.hacc := rfl
@[simp] theorem State.memWrite_hpend (s : State) (a : Nat) (bs : List Byte) : (s.memWrite a bs).hpend = s.hpend := rfl
@[simp] theorem State.memWrite_keyed (s : State) (a : Nat) (bs : List Byte) : (s.memWrite a bs).keyed = s.keyed := rfl
@[simp] theorem State.memWrite_tables (s : State) (a : Nat) (bs : List Byte) : (s.memWrite a bs).tables = s.tables := rfl
@[simp] theorem State.memWrite_faultCode (s : State) (a : Nat) (bs : List Byte) : (s.memWrite a bs).faultCode = s.faultCode := rfl
@[simp] theorem State.memWrite_faultCp (s : State) (a : Nat) (bs : List Byte) : (s.memWrite a bs).faultCp = s.faultCp := rfl
@[simp] theorem State.memWrite_faultInfo (s : State) (a : Nat) (bs : List Byte) : (s.memWrite a bs).faultInfo = s.faultInfo := rfl
@[simp] theorem State.memWrite_irqEn (s : State) (a : Nat) (bs : List Byte) : (s.memWrite a bs).irqEn = s.irqEn := rfl
@[simp] theorem State.memWrite_mem (s : State) (a : Nat) (bs : List Byte) : (s.memWrite a bs).mem = s.mem.writeBytes a bs := rfl
@[simp] theorem State.memWrite_hostTurns (s : State) (a : Nat) (bs : List Byte) : (s.memWrite a bs).hostTurns = s.hostTurns := rfl
@[simp] theorem State.memWrite_hostReplies (s : State) (a : Nat) (bs : List Byte) : (s.memWrite a bs).hostReplies = s.hostReplies := rfl
@[simp] theorem State.memWrite_freeDraws (s : State) (a : Nat) (bs : List Byte) : (s.memWrite a bs).freeDraws = s.freeDraws := rfl

@[simp] theorem State.setHash_cfg (s : State) (st : Word × List Byte) : (s.setHash st).cfg = s.cfg := rfl
@[simp] theorem State.setHash_x (s : State) (st : Word × List Byte) : (s.setHash st).x = s.x := rfl
@[simp] theorem State.setHash_b (s : State) (st : Word × List Byte) : (s.setHash st).b = s.b := rfl
@[simp] theorem State.setHash_cp (s : State) (st : Word × List Byte) : (s.setHash st).cp = s.cp := rfl
@[simp] theorem State.setHash_busy (s : State) (st : Word × List Byte) : (s.setHash st).busy = s.busy := rfl
@[simp] theorem State.setHash_done (s : State) (st : Word × List Byte) : (s.setHash st).done = s.done := rfl
@[simp] theorem State.setHash_faulted (s : State) (st : Word × List Byte) : (s.setHash st).faulted = s.faulted := rfl
@[simp] theorem State.setHash_hostErr (s : State) (st : Word × List Byte) : (s.setHash st).hostErr = s.hostErr := rfl
@[simp] theorem State.setHash_hacc (s : State) (st : Word × List Byte) : (s.setHash st).hacc = st.1 := rfl
@[simp] theorem State.setHash_hpend (s : State) (st : Word × List Byte) : (s.setHash st).hpend = st.2 := rfl
@[simp] theorem State.setHash_keyed (s : State) (st : Word × List Byte) : (s.setHash st).keyed = s.keyed := rfl
@[simp] theorem State.setHash_tables (s : State) (st : Word × List Byte) : (s.setHash st).tables = s.tables := rfl
@[simp] theorem State.setHash_faultCode (s : State) (st : Word × List Byte) : (s.setHash st).faultCode = s.faultCode := rfl
@[simp] theorem State.setHash_faultCp (s : State) (st : Word × List Byte) : (s.setHash st).faultCp = s.faultCp := rfl
@[simp] theorem State.setHash_faultInfo (s : State) (st : Word × List Byte) : (s.setHash st).faultInfo = s.faultInfo := rfl
@[simp] theorem State.setHash_irqEn (s : State) (st : Word × List Byte) : (s.setHash st).irqEn = s.irqEn := rfl
@[simp] theorem State.setHash_mem (s : State) (st : Word × List Byte) : (s.setHash st).mem = s.mem := rfl
@[simp] theorem State.setHash_hostTurns (s : State) (st : Word × List Byte) : (s.setHash st).hostTurns = s.hostTurns := rfl
@[simp] theorem State.setHash_hostReplies (s : State) (st : Word × List Byte) : (s.setHash st).hostReplies = s.hostReplies := rfl
@[simp] theorem State.setHash_freeDraws (s : State) (st : Word × List Byte) : (s.setHash st).freeDraws = s.freeDraws := rfl

@[simp] theorem State.faultEntry_cfg (s : State) (c : FaultCause) (info : Word) : (s.faultEntry c info).cfg = s.cfg := rfl
@[simp] theorem State.faultEntry_x (s : State) (c : FaultCause) (info : Word) : (s.faultEntry c info).x = s.x := rfl
@[simp] theorem State.faultEntry_b (s : State) (c : FaultCause) (info : Word) : (s.faultEntry c info).b = s.b := rfl
@[simp] theorem State.faultEntry_cp (s : State) (c : FaultCause) (info : Word) : (s.faultEntry c info).cp = s.cp := rfl
@[simp] theorem State.faultEntry_busy (s : State) (c : FaultCause) (info : Word) : (s.faultEntry c info).busy = false := rfl
@[simp] theorem State.faultEntry_done (s : State) (c : FaultCause) (info : Word) : (s.faultEntry c info).done = s.done := rfl
@[simp] theorem State.faultEntry_faulted (s : State) (c : FaultCause) (info : Word) : (s.faultEntry c info).faulted = true := rfl
@[simp] theorem State.faultEntry_hostErr (s : State) (c : FaultCause) (info : Word) : (s.faultEntry c info).hostErr = s.hostErr := rfl
@[simp] theorem State.faultEntry_hacc (s : State) (c : FaultCause) (info : Word) : (s.faultEntry c info).hacc = s.hacc := rfl
@[simp] theorem State.faultEntry_hpend (s : State) (c : FaultCause) (info : Word) : (s.faultEntry c info).hpend = s.hpend := rfl
@[simp] theorem State.faultEntry_keyed (s : State) (c : FaultCause) (info : Word) : (s.faultEntry c info).keyed = s.keyed := rfl
@[simp] theorem State.faultEntry_tables (s : State) (c : FaultCause) (info : Word) : (s.faultEntry c info).tables = s.tables := rfl
@[simp] theorem State.faultEntry_faultCode (s : State) (c : FaultCause) (info : Word) : (s.faultEntry c info).faultCode = c.code := rfl
@[simp] theorem State.faultEntry_faultCp (s : State) (c : FaultCause) (info : Word) : (s.faultEntry c info).faultCp = s.cp := rfl
@[simp] theorem State.faultEntry_faultInfo (s : State) (c : FaultCause) (info : Word) : (s.faultEntry c info).faultInfo = info := rfl
@[simp] theorem State.faultEntry_irqEn (s : State) (c : FaultCause) (info : Word) : (s.faultEntry c info).irqEn = s.irqEn := rfl
@[simp] theorem State.faultEntry_mem (s : State) (c : FaultCause) (info : Word) : (s.faultEntry c info).mem = s.mem := rfl
@[simp] theorem State.faultEntry_hostTurns (s : State) (c : FaultCause) (info : Word) : (s.faultEntry c info).hostTurns = s.hostTurns := rfl
@[simp] theorem State.faultEntry_hostReplies (s : State) (c : FaultCause) (info : Word) : (s.faultEntry c info).hostReplies = s.hostReplies := rfl
@[simp] theorem State.faultEntry_freeDraws (s : State) (c : FaultCause) (info : Word) : (s.faultEntry c info).freeDraws = s.freeDraws := rfl

@[simp] theorem State.acknowledge_cfg (s : State) : s.acknowledge.cfg = s.cfg := rfl
@[simp] theorem State.acknowledge_x (s : State) : s.acknowledge.x = s.x := rfl
@[simp] theorem State.acknowledge_b (s : State) : s.acknowledge.b = s.b := rfl
@[simp] theorem State.acknowledge_cp (s : State) : s.acknowledge.cp = s.cp := rfl
@[simp] theorem State.acknowledge_busy (s : State) : s.acknowledge.busy = s.busy := rfl
@[simp] theorem State.acknowledge_done (s : State) : s.acknowledge.done = false := rfl
@[simp] theorem State.acknowledge_faulted (s : State) : s.acknowledge.faulted = false := rfl
@[simp] theorem State.acknowledge_hostErr (s : State) : s.acknowledge.hostErr = false := rfl
@[simp] theorem State.acknowledge_hacc (s : State) : s.acknowledge.hacc = s.hacc := rfl
@[simp] theorem State.acknowledge_hpend (s : State) : s.acknowledge.hpend = s.hpend := rfl
@[simp] theorem State.acknowledge_keyed (s : State) : s.acknowledge.keyed = s.keyed := rfl
@[simp] theorem State.acknowledge_tables (s : State) : s.acknowledge.tables = s.tables := rfl
@[simp] theorem State.acknowledge_faultCode (s : State) : s.acknowledge.faultCode = 0 := rfl
@[simp] theorem State.acknowledge_faultCp (s : State) : s.acknowledge.faultCp = 0 := rfl
@[simp] theorem State.acknowledge_faultInfo (s : State) : s.acknowledge.faultInfo = 0 := rfl
@[simp] theorem State.acknowledge_irqEn (s : State) : s.acknowledge.irqEn = s.irqEn := rfl
@[simp] theorem State.acknowledge_mem (s : State) : s.acknowledge.mem = s.mem := rfl
@[simp] theorem State.acknowledge_hostTurns (s : State) : s.acknowledge.hostTurns = s.hostTurns := rfl
@[simp] theorem State.acknowledge_hostReplies (s : State) : s.acknowledge.hostReplies = s.hostReplies := rfl
@[simp] theorem State.acknowledge_freeDraws (s : State) : s.acknowledge.freeDraws = s.freeDraws := rfl

@[simp] theorem State.reply_cfg (s : State) (r : HostReply) : (s.reply r).cfg = s.cfg := rfl
@[simp] theorem State.reply_x (s : State) (r : HostReply) : (s.reply r).x = s.x := rfl
@[simp] theorem State.reply_b (s : State) (r : HostReply) : (s.reply r).b = s.b := rfl
@[simp] theorem State.reply_cp (s : State) (r : HostReply) : (s.reply r).cp = s.cp := rfl
@[simp] theorem State.reply_busy (s : State) (r : HostReply) : (s.reply r).busy = s.busy := rfl
@[simp] theorem State.reply_done (s : State) (r : HostReply) : (s.reply r).done = s.done := rfl
@[simp] theorem State.reply_faulted (s : State) (r : HostReply) : (s.reply r).faulted = s.faulted := rfl
@[simp] theorem State.reply_hostErr (s : State) (r : HostReply) : (s.reply r).hostErr = s.hostErr := rfl
@[simp] theorem State.reply_hacc (s : State) (r : HostReply) : (s.reply r).hacc = s.hacc := rfl
@[simp] theorem State.reply_hpend (s : State) (r : HostReply) : (s.reply r).hpend = s.hpend := rfl
@[simp] theorem State.reply_keyed (s : State) (r : HostReply) : (s.reply r).keyed = s.keyed := rfl
@[simp] theorem State.reply_tables (s : State) (r : HostReply) : (s.reply r).tables = s.tables := rfl
@[simp] theorem State.reply_faultCode (s : State) (r : HostReply) : (s.reply r).faultCode = s.faultCode := rfl
@[simp] theorem State.reply_faultCp (s : State) (r : HostReply) : (s.reply r).faultCp = s.faultCp := rfl
@[simp] theorem State.reply_faultInfo (s : State) (r : HostReply) : (s.reply r).faultInfo = s.faultInfo := rfl
@[simp] theorem State.reply_irqEn (s : State) (r : HostReply) : (s.reply r).irqEn = s.irqEn := rfl
@[simp] theorem State.reply_mem (s : State) (r : HostReply) : (s.reply r).mem = s.mem := rfl
@[simp] theorem State.reply_hostTurns (s : State) (r : HostReply) : (s.reply r).hostTurns = s.hostTurns := rfl
@[simp] theorem State.reply_hostReplies (s : State) (r : HostReply) : (s.reply r).hostReplies = s.hostReplies ++ [r] := rfl
@[simp] theorem State.reply_freeDraws (s : State) (r : HostReply) : (s.reply r).freeDraws = s.freeDraws := rfl

/-! Reads through the accessors. -/

theorem State.getX_setX (s : State) (a r : XReg) (v : Word) :
    (s.setX a v).getX r = if r = a then v else s.getX r := by
  simp only [State.getX, State.setX, Fin.getElem_fin, Vector.getElem_set, Fin.val_inj, eq_comm]

theorem State.getB_setB (s : State) (a r : BReg) (v : Nat) :
    (s.setB a v).getB r = if r = a then v else s.getB r := by
  simp only [State.getB, State.setB, Fin.getElem_fin, Vector.getElem_set, Fin.val_inj, eq_comm]

@[simp] theorem State.advance_getX (s : State) (q : XReg) : s.advance.getX q = s.getX q := rfl
@[simp] theorem State.advance_getB (s : State) (q : BReg) : s.advance.getB q = s.getB q := rfl
@[simp] theorem State.advance_byteAt (s : State) (n : Nat) : s.advance.byteAt n = s.byteAt n := rfl
@[simp] theorem State.setX_getB (s : State) (r : XReg) (v : Word) (q : BReg) : (s.setX r v).getB q = s.getB q := rfl
@[simp] theorem State.setX_byteAt (s : State) (r : XReg) (v : Word) (n : Nat) : (s.setX r v).byteAt n = s.byteAt n := rfl
@[simp] theorem State.setB_getX (s : State) (r : BReg) (v : Nat) (q : XReg) : (s.setB r v).getX q = s.getX q := rfl
@[simp] theorem State.setB_byteAt (s : State) (r : BReg) (v : Nat) (n : Nat) : (s.setB r v).byteAt n = s.byteAt n := rfl
@[simp] theorem State.memWrite_getX (s : State) (a : Nat) (bs : List Byte) (q : XReg) : (s.memWrite a bs).getX q = s.getX q := rfl
@[simp] theorem State.memWrite_getB (s : State) (a : Nat) (bs : List Byte) (q : BReg) : (s.memWrite a bs).getB q = s.getB q := rfl
@[simp] theorem State.setHash_getX (s : State) (st : Word × List Byte) (q : XReg) : (s.setHash st).getX q = s.getX q := rfl
@[simp] theorem State.setHash_getB (s : State) (st : Word × List Byte) (q : BReg) : (s.setHash st).getB q = s.getB q := rfl
@[simp] theorem State.setHash_byteAt (s : State) (st : Word × List Byte) (n : Nat) : (s.setHash st).byteAt n = s.byteAt n := rfl
@[simp] theorem State.faultEntry_getX (s : State) (c : FaultCause) (info : Word) (q : XReg) : (s.faultEntry c info).getX q = s.getX q := rfl
@[simp] theorem State.faultEntry_getB (s : State) (c : FaultCause) (info : Word) (q : BReg) : (s.faultEntry c info).getB q = s.getB q := rfl
@[simp] theorem State.faultEntry_byteAt (s : State) (c : FaultCause) (info : Word) (n : Nat) : (s.faultEntry c info).byteAt n = s.byteAt n := rfl
@[simp] theorem State.acknowledge_getX (s : State) (q : XReg) : s.acknowledge.getX q = s.getX q := rfl
@[simp] theorem State.acknowledge_getB (s : State) (q : BReg) : s.acknowledge.getB q = s.getB q := rfl
@[simp] theorem State.acknowledge_byteAt (s : State) (n : Nat) : s.acknowledge.byteAt n = s.byteAt n := rfl
@[simp] theorem State.reply_getX (s : State) (r : HostReply) (q : XReg) : (s.reply r).getX q = s.getX q := rfl
@[simp] theorem State.reply_getB (s : State) (r : HostReply) (q : BReg) : (s.reply r).getB q = s.getB q := rfl
@[simp] theorem State.reply_byteAt (s : State) (r : HostReply) (n : Nat) : (s.reply r).byteAt n = s.byteAt n := rfl

/-- What a fault does once and for all: `raise` always answers the state of fault entry. -/
theorem raise_eq (c : FaultCause) (info : Word) (s : State) : raise c info s = .next (s.faultEntry c info) := rfl

end Sys2Proof.Machine
end

