-- ==== Sys2Proof/Laws/Ops.lean ====
section
/-! SUPPORT. What each shared operation of the machine can do, said once. -/

namespace Sys2Proof.Machine

theorem State.inRange_iff (s : State) (addr n : Nat) : s.inRange addr n = true ↔ addr + n ≤ s.cfg.memSize := by
  simp [State.inRange]

theorem State.byteAt_memWrite (s : State) (a : Nat) (bs : List Byte) (n : Nat) :
    (s.memWrite a bs).byteAt n = if a ≤ n ∧ n < a + bs.length then bs.getD (n - a) 0 else s.byteAt n :=
  Memory.read_writeBytes bs s.mem a n

theorem State.inRange_of_le {s : State} {addr n : Nat} (h : addr + n ≤ s.cfg.memSize) : s.inRange addr n = true :=
  (s.inRange_iff addr n).2 h

theorem State.inRange_of_lt {s : State} {addr n : Nat} (h : s.cfg.memSize < addr + n) : s.inRange addr n = false := by
  rw [← Bool.not_eq_true, s.inRange_iff]
  omega

/-- `Fit(v)` says that `v` is below the capacity (42_bignum.md R231). -/
theorem State.fits_iff (s : State) (v : Nat) : s.fits v = true ↔ v < s.cfg.bnCapacity := by
  simp only [State.fits, decide_eq_true_eq, Config.bnCapacity, lt_two_pow_iff_bitlen_le]

/-- BNLIMBS reads as `BN_LIMBS` where 32 bits hold it (10_state.md R64). -/
theorem State.bnLimbsWord_of_lt {s : State} (h : s.cfg.bnLimbs < 2 ^ 32) : s.bnLimbsWord = word s.cfg.bnLimbs :=
  if_pos h

/-- A result that fits is written; one that does not raises BN_OVERFLOW(0) (42_bignum.md R231). -/
theorem writeFitting_cases (a : BReg) (v : Nat) (s : State) :
    (v < s.cfg.bnCapacity ∧ writeFitting a v s = .next (s.setB a v).advance) ∨
      (s.cfg.bnCapacity ≤ v ∧ writeFitting a v s = .next (s.faultEntry .bnOverflow 0)) := by
  simp only [writeFitting, State.fits_iff, raise_eq]
  rcases Nat.lt_or_ge v s.cfg.bnCapacity with h | h
  · exact .inl ⟨h, if_pos h⟩
  · exact .inr ⟨h, if_neg (by omega)⟩

/-- BF.ENC and BF.DEC: the three faults in their order, or the buffer transformed in place (43_cipher.md R312). -/
theorem cryptBuffer_cases (f : CipherTables → List Byte → List Byte) (a b : XReg) (s : State) :
    (s.keyed = false ∧ cryptBuffer f a b s = .next (s.faultEntry .bfNokey 0)) ∨
    (s.keyed = true ∧ s.natX b % 8 ≠ 0 ∧ cryptBuffer f a b s = .next (s.faultEntry .bfBlocklen (s.getX b))) ∨
    (s.keyed = true ∧ s.natX b % 8 = 0 ∧ s.cfg.memSize < s.natX a + s.natX b ∧
      cryptBuffer f a b s = .next (s.faultEntry .memRange (s.getX a))) ∨
    (s.keyed = true ∧ s.natX b % 8 = 0 ∧ s.natX a + s.natX b ≤ s.cfg.memSize ∧
      cryptBuffer f a b s =
        .next { s.advance with mem := cryptBlocks (f s.tables) (s.natX b / 8) (s.natX a) s.mem }) := by
  unfold cryptBuffer
  simp only [raise_eq]
  by_cases hk : s.keyed = false
  · exact .inl ⟨hk, if_pos hk⟩
  rw [Bool.not_eq_false] at hk
  by_cases hl : s.natX b % 8 ≠ 0
  · exact .inr (.inl ⟨hk, hl, by simp [hk, hl]⟩)
  push Not at hl
  by_cases hr : s.natX a + s.natX b ≤ s.cfg.memSize
  · exact .inr (.inr (.inr ⟨hk, hl, hr, by simp [hk, hl, (s.inRange_iff _ _).2 hr]⟩))
  · refine .inr (.inr (.inl ⟨hk, hl, by omega, ?_⟩))
    have : s.inRange (s.natX a) (s.natX b) = false := by
      rw [← Bool.not_eq_true, s.inRange_iff]; exact hr
    simp [hk, hl, this]

/-- Memory after the block loop, block by block: each takes its own transform, and nothing else changes (R312, R317). -/
theorem cryptBlocks_read (f : List Byte → List Byte) (hf : ∀ blk, (f blk).length = 8) (n addr : Nat) (m : Memory) :
    (∀ k, k < n → (cryptBlocks f n addr m).readBytes (addr + 8 * k) 8 = f (m.readBytes (addr + 8 * k) 8)) ∧
      ∀ i, i < addr ∨ addr + 8 * n ≤ i → (cryptBlocks f n addr m).read i = m.read i := by
  induction n generalizing addr m with
  | zero => exact ⟨fun k hk => absurd hk (by omega), fun i _ => rfl⟩
  | succ n ih =>
    obtain ⟨ih1, ih2⟩ := ih (addr + 8) (m.writeBytes addr (f (m.readBytes addr 8)))
    have hout : ∀ i, i < addr ∨ addr + 8 ≤ i →
        (m.writeBytes addr (f (m.readBytes addr 8))).read i = m.read i := by
      intro i hi
      rw [Memory.read_writeBytes, hf, if_neg (by omega)]
    refine ⟨fun k hk => ?_, fun i hi => ?_⟩
    · simp only [cryptBlocks]
      cases k with
      | zero =>
        simp only [Nat.mul_zero, Nat.add_zero]
        rw [Memory.readBytes_congr _ (m.writeBytes addr (f (m.readBytes addr 8))) addr 8
          fun i h1 h2 => ih2 i (by omega)]
        have := Memory.readBytes_writeBytes m addr (f (m.readBytes addr 8))
        rwa [hf] at this
      | succ k =>
        have h := ih1 k (by omega)
        rw [show addr + 8 * (k + 1) = addr + 8 + 8 * k by omega, h]
        congr 1
        exact Memory.readBytes_congr _ _ _ _ fun i h1 h2 => hout i (by omega)
    · simp only [cryptBlocks]
      rw [ih2 i (by omega), hout i (by omega)]

/-- The block loop keeps memory's canonical form. -/
theorem wf_cryptBlocks (f : List Byte → List Byte) (n addr : Nat) (m : Memory) (h : m.wf = true) :
    (cryptBlocks f n addr m).wf = true := by
  induction n generalizing addr m with
  | zero => exact h
  | succ n ih => exact ih _ _ (Memory.wf_writeBytes _ _ _ h)

/-- The block loop writes only inside its buffer. -/
theorem below_cryptBlocks (f : List Byte → List Byte) (hf : ∀ blk, (f blk).length = 8) (size n addr : Nat) (m : Memory)
    (h : m.below size = true) (hr : addr + 8 * n ≤ size) : (cryptBlocks f n addr m).below size = true := by
  induction n generalizing addr m with
  | zero => exact h
  | succ n ih => exact ih _ _ (Memory.below_writeBytes _ _ _ _ h (by rw [hf]; omega)) (by omega)

/-- Bytes that fit are all appended. -/
theorem lzPutAll_of_fits (cap : Nat) (out xs : List Byte) (h : out.length + xs.length ≤ cap) :
    lzPutAll cap out xs = (true, out ++ xs) := by
  induction xs generalizing out with
  | nil => simp [lzPutAll]
  | cons x xs ih =>
    simp only [List.length_cons] at h
    rw [lzPutAll, if_neg (by omega), ih _ (by simp; omega)]
    simp

/-- The output a codec function produced. -/
def LzResult.out : LzResult → List Byte
  | .ok o => o
  | .invalid o => o
  | .small o => o

/-- LZ.DEC and LZ.ENC: the checks in their order, then the function's result with its output written
(44_codec.md R345, R348, R355). -/
theorem codecCommand_cases (f : List Byte → Nat → LzResult) (a b c d e : XReg) (s : State) :
    let src := s.memRead (s.natX b) (s.natX c)
    (s.cfg.memSize < s.natX b + s.natX c ∧
      codecCommand f a b c d e s = .next (s.faultEntry .memRange (s.getX b))) ∨
    (s.natX b + s.natX c ≤ s.cfg.memSize ∧ s.cfg.memSize < s.natX d + s.natX e ∧
      codecCommand f a b c d e s = .next (s.faultEntry .memRange (s.getX d))) ∨
    (s.natX b + s.natX c ≤ s.cfg.memSize ∧ s.natX d + s.natX e ≤ s.cfg.memSize ∧
      rangesOverlap (s.natX b) (s.natX c) (s.natX d) (s.natX e) = true ∧
      codecCommand f a b c d e s = .next (s.faultEntry .lzOverlap 0)) ∨
    (s.natX b + s.natX c ≤ s.cfg.memSize ∧ s.natX d + s.natX e ≤ s.cfg.memSize ∧
      rangesOverlap (s.natX b) (s.natX c) (s.natX d) (s.natX e) = false ∧
      ((∃ out, f src (s.natX e) = .ok out ∧
          codecCommand f a b c d e s = .next ((s.memWrite (s.natX d) out).setX a (word out.length)).advance) ∨
        (∃ out, f src (s.natX e) = .invalid out ∧
          codecCommand f a b c d e s =
            .next ((s.memWrite (s.natX d) out).faultEntry .lzInvalidData (word out.length))) ∨
        ∃ out, f src (s.natX e) = .small out ∧
          codecCommand f a b c d e s =
            .next ((s.memWrite (s.natX d) out).faultEntry .lzBufferTooSmall (word out.length)))) := by
  intro src
  unfold codecCommand
  simp only [raise_eq]
  by_cases h1 : s.natX b + s.natX c ≤ s.cfg.memSize
  · have e1 : s.inRange (s.natX b) (s.natX c) = true := (s.inRange_iff _ _).2 h1
    by_cases h2 : s.natX d + s.natX e ≤ s.cfg.memSize
    · have e2 : s.inRange (s.natX d) (s.natX e) = true := (s.inRange_iff _ _).2 h2
      cases h3 : rangesOverlap (s.natX b) (s.natX c) (s.natX d) (s.natX e)
      · refine .inr (.inr (.inr ⟨h1, h2, rfl, ?_⟩))
        simp only [e1, e2, Bool.not_true, Bool.false_eq_true, if_false]
        cases f (s.memRead (s.natX b) (s.natX c)) (s.natX e) with
        | ok out => exact .inl ⟨out, rfl, rfl⟩
        | invalid out => exact .inr (.inl ⟨out, rfl, rfl⟩)
        | small out => exact .inr (.inr ⟨out, rfl, rfl⟩)
      · refine .inr (.inr (.inl ⟨h1, h2, rfl, ?_⟩))
        simp [e1, e2]
    · have e2 : s.inRange (s.natX d) (s.natX e) = false := by
        rw [← Bool.not_eq_true, s.inRange_iff]; exact h2
      exact .inr (.inl ⟨h1, by omega, by simp [e1, e2]⟩)
  · have e1 : s.inRange (s.natX b) (s.natX c) = false := by
      rw [← Bool.not_eq_true, s.inRange_iff]; exact h1
    exact .inl ⟨by omega, by simp [e1]⟩

/-- Every meaning answers a next state: no command stops the model. -/
theorem exec_next (i : Instr) (s : State) : ∃ t, exec i s = .next t := by
  cases i <;> simp only [exec]
  case halt => exact ⟨_, rfl⟩
  case nop => exact ⟨_, rfl⟩
  case li => exact ⟨_, rfl⟩
  case addi => exact ⟨_, rfl⟩
  case bnz => unfold execBnz; split <;> exact ⟨_, rfl⟩
  case jmp => exact ⟨_, rfl⟩
  case ldw => unfold execLdw; simp only [raise_eq]; split <;> exact ⟨_, rfl⟩
  case stw => unfold execStw; simp only [raise_eq]; split <;> exact ⟨_, rfl⟩
  case hInit => exact ⟨_, rfl⟩
  case hFeed => unfold execHFeed; simp only [raise_eq]; split <;> exact ⟨_, rfl⟩
  case hFinal => exact ⟨_, rfl⟩
  case hHash => unfold execHHash; simp only [raise_eq]; split <;> exact ⟨_, rfl⟩
  case bnLd a b c =>
    unfold execBnLd
    split
    · rcases writeFitting_cases a (beNat (s.memRead (s.natX b) (s.natX c))) s with ⟨-, h⟩ | ⟨-, h⟩ <;> exact ⟨_, h⟩
    · exact ⟨_, rfl⟩
  case bnLdi => exact ⟨_, rfl⟩
  case bnLdk => unfold execBnLdk; simp only [raise_eq]; split <;> [skip; split] <;> exact ⟨_, rfl⟩
  case bnSt => unfold execBnSt; simp only [raise_eq]; split <;> exact ⟨_, rfl⟩
  case bnCmp => exact ⟨_, rfl⟩
  case bnSub => unfold execBnSub; simp only [raise_eq]; split <;> exact ⟨_, rfl⟩
  case bnMul a b c =>
    rcases writeFitting_cases a (s.getB b * s.getB c) s with ⟨-, h⟩ | ⟨-, h⟩ <;> exact ⟨_, h⟩
  case bnShl a b => rcases writeFitting_cases a (2 * s.getB b) s with ⟨-, h⟩ | ⟨-, h⟩ <;> exact ⟨_, h⟩
  case bnShr => exact ⟨_, rfl⟩
  case bnPar => exact ⟨_, rfl⟩
  case bnMod => unfold execBnMod; simp only [raise_eq]; split <;> exact ⟨_, rfl⟩
  case bnModexp => unfold execBnModexp; simp only [raise_eq]; split <;> exact ⟨_, rfl⟩
  case bfKey => unfold execBfKey; simp only [raise_eq]; split <;> [skip; split] <;> exact ⟨_, rfl⟩
  case bfEnc a b =>
    rcases cryptBuffer_cases encBlock a b s with ⟨-, h⟩ | ⟨-, -, h⟩ | ⟨-, -, -, h⟩ | ⟨-, -, -, h⟩ <;> exact ⟨_, h⟩
  case bfDec a b =>
    rcases cryptBuffer_cases decBlock a b s with ⟨-, h⟩ | ⟨-, -, h⟩ | ⟨-, -, -, h⟩ | ⟨-, -, -, h⟩ <;> exact ⟨_, h⟩
  case lzDec a b c d e =>
    rcases codecCommand_cases lzDecode a b c d e s with ⟨-, h⟩ | ⟨-, -, h⟩ | ⟨-, -, -, h⟩ |
      ⟨-, -, -, ⟨_, -, h⟩ | ⟨_, -, h⟩ | ⟨_, -, h⟩⟩ <;> exact ⟨_, h⟩
  case lzEnc a b c d e =>
    rcases codecCommand_cases lzEncode a b c d e s with ⟨-, h⟩ | ⟨-, -, h⟩ | ⟨-, -, -, h⟩ |
      ⟨-, -, -, ⟨_, -, h⟩ | ⟨_, -, h⟩ | ⟨_, -, h⟩⟩ <;> exact ⟨_, h⟩

/-! The step. -/

/-- The sequencer's step: idle, a command, or a fetch or decode fault (40_sequencer.md R150). -/
theorem sequencerStep_cases (s : State) :
    (s.busy = false ∧ sequencerStep s = .next s) ∨
    (s.busy = true ∧ ∃ i, s.fetchInstr = .ok i ∧ sequencerStep s = exec i s) ∨
    (s.busy = true ∧ ∃ c info, s.fetchInstr = .error (c, info) ∧ sequencerStep s = .next (s.faultEntry c info)) := by
  unfold sequencerStep
  cases hb : s.busy
  · exact .inl ⟨rfl, by simp⟩
  · cases hf : s.fetchInstr with
    | ok i => exact .inr (.inl ⟨rfl, i, rfl, by simp⟩)
    | error e => exact .inr (.inr ⟨rfl, e.1, e.2, rfl, by simp [raise_eq]⟩)

/-- The sequencer's step always answers a next state. -/
theorem sequencerStep_next (s : State) : ∃ t, sequencerStep s = .next t := by
  rcases sequencerStep_cases s with ⟨-, h⟩ | ⟨-, i, -, h⟩ | ⟨-, c, info, -, h⟩
  · exact ⟨_, h⟩
  · rw [h]; exact exec_next i s
  · exact ⟨_, h⟩

/-- A step is the sequencer's or the host's (70_reset_and_hazards.md R470). -/
theorem step_cases (s : State) :
    (s.hostTurns = [] ∧ step s = sequencerStep s) ∨
    (∃ rest, s.hostTurns = .letRun :: rest ∧ step s = sequencerStep { s with hostTurns := rest }) ∨
    (∃ act rest, s.hostTurns = .act act :: rest ∧ step s = hostAct act { s with hostTurns := rest }) := by
  unfold step turnStep
  cases h : s.hostTurns with
  | nil => exact .inl ⟨rfl, rfl⟩
  | cons turn rest =>
    cases turn with
    | act a => exact .inr (.inr ⟨a, rest, rfl, rfl⟩)
    | letRun => exact .inr (.inl ⟨rest, rfl, rfl⟩)

end Sys2Proof.Machine
end

