-- ==== Sys2Proof/Laws/Frames.lean ====
section
/-! SUPPORT. The frames of the named updates: what each leaves as it was, said once for the commands built from them. -/

namespace Sys2Proof.Machine

theorem keepsRun_refl (s : State) : keepsRun s s := ⟨rfl, rfl, rfl, rfl⟩
theorem keepsRecord_refl (s : State) : keepsRecord s s := ⟨rfl, rfl, rfl⟩
theorem keepsHost_refl (s : State) : keepsHost s s := ⟨rfl, rfl, rfl, rfl, rfl⟩

theorem onlyCp_advance (s : State) : onlyCp (s.cp + 8) s s.advance :=
  ⟨fun _ => rfl, fun _ => rfl, fun _ => rfl, ⟨rfl, rfl⟩, ⟨rfl, rfl⟩, rfl, ⟨rfl, rfl, rfl, rfl⟩, ⟨rfl, rfl, rfl⟩,
    rfl, rfl, rfl, rfl, rfl⟩

theorem onlyCp_setCp (s : State) (target : Word) : onlyCp target s { s with cp := target } :=
  ⟨fun _ => rfl, fun _ => rfl, fun _ => rfl, ⟨rfl, rfl⟩, ⟨rfl, rfl⟩, rfl, ⟨rfl, rfl, rfl, rfl⟩, ⟨rfl, rfl, rfl⟩,
    rfl, rfl, rfl, rfl, rfl⟩

theorem onlyX_setX (s : State) (a : XReg) (v : Word) : onlyX a v s (s.setX a v).advance :=
  ⟨fun r => s.getX_setX a r v, fun _ => rfl, fun _ => rfl, ⟨rfl, rfl⟩, ⟨rfl, rfl⟩, rfl, ⟨rfl, rfl, rfl, rfl⟩,
    ⟨rfl, rfl, rfl⟩, rfl, rfl, rfl, rfl, rfl⟩

theorem onlyB_setB (s : State) (a : BReg) (v : Nat) : onlyB a v s (s.setB a v).advance :=
  ⟨fun _ => rfl, fun r => s.getB_setB a r v, fun _ => rfl, ⟨rfl, rfl⟩, ⟨rfl, rfl⟩, rfl, ⟨rfl, rfl, rfl, rfl⟩,
    ⟨rfl, rfl, rfl⟩, rfl, rfl, rfl, rfl, rfl⟩

/-- A string written to memory stands there, and every byte outside it is as before. -/
theorem writesMem_memWrite (s : State) (addr : Nat) (bs : List Byte) : writesMem addr bs s (s.memWrite addr bs) := by
  refine ⟨fun k hk => ?_, fun n hn => ?_⟩
  · rw [State.byteAt_memWrite, if_pos (by omega), Nat.add_sub_cancel_left]
  · rw [State.byteAt_memWrite, if_neg (by omega)]

theorem onlyMem_memWrite (s : State) (addr : Nat) (bs : List Byte) :
    onlyMem addr bs s (s.memWrite addr bs).advance :=
  ⟨fun _ => rfl, fun _ => rfl, writesMem_memWrite s addr bs, ⟨rfl, rfl⟩, ⟨rfl, rfl⟩, rfl, ⟨rfl, rfl, rfl, rfl⟩,
    ⟨rfl, rfl, rfl⟩, rfl, rfl, rfl, rfl, rfl⟩

theorem onlyMemX_memWrite (s : State) (addr : Nat) (bs : List Byte) (a : XReg) (v : Word) :
    onlyMemX addr bs a v s ((s.memWrite addr bs).setX a v).advance :=
  ⟨fun r => (s.memWrite addr bs).getX_setX a r v, fun _ => rfl, writesMem_memWrite s addr bs, ⟨rfl, rfl⟩, ⟨rfl, rfl⟩,
    rfl, ⟨rfl, rfl, rfl, rfl⟩, ⟨rfl, rfl, rfl⟩, rfl, rfl, rfl, rfl, rfl⟩

theorem onlyHash_setHash (s : State) (st : Word × List Byte) : onlyHash st.1 st.2 s (s.setHash st).advance :=
  ⟨fun _ => rfl, fun _ => rfl, fun _ => rfl, rfl, rfl, ⟨rfl, rfl⟩, rfl, ⟨rfl, rfl, rfl, rfl⟩, ⟨rfl, rfl, rfl⟩,
    rfl, rfl, rfl, rfl, rfl⟩

theorem onlyCipher_key (s : State) (t : CipherTables) :
    onlyCipher t s { s.advance with tables := t, keyed := true } :=
  ⟨fun _ => rfl, fun _ => rfl, fun _ => rfl, ⟨rfl, rfl⟩, rfl, rfl, rfl, ⟨rfl, rfl, rfl, rfl⟩, ⟨rfl, rfl, rfl⟩,
    rfl, rfl, rfl, rfl, rfl⟩

/-- Fault entry after a command's partial output, if any: the rest of R410. -/
theorem entersFault_memWrite (s : State) (addr : Nat) (bs : List Byte) (c : FaultCause) (info : Word) :
    entersFault c.code.toNat info s ((s.memWrite addr bs).faultEntry c info) := by
  refine ⟨fun _ => rfl, fun _ => rfl, ⟨rfl, rfl⟩, ⟨rfl, rfl⟩, ⟨rfl, rfl, rfl, rfl, rfl⟩, ?_, rfl, rfl, rfl, rfl, rfl,
    rfl, rfl⟩
  simp

/-- Fault entry with no other effect of the command (R410). -/
theorem onlyFault_faultEntry (s : State) (c : FaultCause) (info : Word) :
    onlyFault c.code.toNat info s (s.faultEntry c info) :=
  ⟨entersFault_memWrite s 0 [] c info, fun _ => rfl⟩

end Sys2Proof.Machine
end

