-- ==== Sys2Proof/Laws/PerInstr.lean ====
section
/-! SUPPORT. One lemma per command: its encoded fields read back through its own row of the opcode map. -/

namespace Sys2Proof.Laws.OpcodeRow

/-- The encoded command's fields select a row of the opcode map (30_encoding.md R116) that makes the command again, with
`z` and every unused field 0 (R114). -/
def Statement (i : Instr) : Prop :=
  ∃ row, opcodeMap (cmdFields (encode i)).op = some row ∧ row.make (cmdFields (encode i)) = i ∧
    (cmdFields (encode i)).z = 0 ∧ strayField row.uses (cmdFields (encode i)) = false ∧
    (row.uses.imm = false → (cmdFields (encode i)).imm = 0)

theorem halt : Statement (.halt) := by
  simp [Statement, encode, cmdFields_packCmd, instrFields, opcodeMap, strayField]

theorem nop : Statement (.nop) := by
  simp [Statement, encode, cmdFields_packCmd, instrFields, opcodeMap, strayField]

theorem li (a : Fin 16) (imm : Word) : Statement (.li a imm) := by
  simp [Statement, encode, cmdFields_packCmd, instrFields, opcodeMap, strayField, fieldReg_regField]

theorem addi (a b : Fin 16) (imm : Word) : Statement (.addi a b imm) := by
  simp [Statement, encode, cmdFields_packCmd, instrFields, opcodeMap, strayField, fieldReg_regField]

theorem bnz (a : Fin 16) (imm : Word) : Statement (.bnz a imm) := by
  simp [Statement, encode, cmdFields_packCmd, instrFields, opcodeMap, strayField, fieldReg_regField]

theorem jmp (imm : Word) : Statement (.jmp imm) := by
  simp [Statement, encode, cmdFields_packCmd, instrFields, opcodeMap, strayField]

theorem ldw (a b : Fin 16) (imm : Word) : Statement (.ldw a b imm) := by
  simp [Statement, encode, cmdFields_packCmd, instrFields, opcodeMap, strayField, fieldReg_regField]

theorem stw (a b : Fin 16) (imm : Word) : Statement (.stw a b imm) := by
  simp [Statement, encode, cmdFields_packCmd, instrFields, opcodeMap, strayField, fieldReg_regField]

theorem hInit : Statement (.hInit) := by
  simp [Statement, encode, cmdFields_packCmd, instrFields, opcodeMap, strayField]

theorem hFeed (a b : Fin 16) : Statement (.hFeed a b) := by
  simp [Statement, encode, cmdFields_packCmd, instrFields, opcodeMap, strayField, fieldReg_regField]

theorem hFinal (a : Fin 16) : Statement (.hFinal a) := by
  simp [Statement, encode, cmdFields_packCmd, instrFields, opcodeMap, strayField, fieldReg_regField]

theorem hHash (a b c : Fin 16) : Statement (.hHash a b c) := by
  simp [Statement, encode, cmdFields_packCmd, instrFields, opcodeMap, strayField, fieldReg_regField]

theorem bnLd (a b c : Fin 16) : Statement (.bnLd a b c) := by
  simp [Statement, encode, cmdFields_packCmd, instrFields, opcodeMap, strayField, fieldReg_regField]

theorem bnLdi (a : Fin 16) (imm : Word) : Statement (.bnLdi a imm) := by
  simp [Statement, encode, cmdFields_packCmd, instrFields, opcodeMap, strayField, fieldReg_regField]

theorem bnLdk (a : Fin 16) (imm : Word) : Statement (.bnLdk a imm) := by
  simp [Statement, encode, cmdFields_packCmd, instrFields, opcodeMap, strayField, fieldReg_regField]

theorem bnSt (a b c d : Fin 16) : Statement (.bnSt a b c d) := by
  simp [Statement, encode, cmdFields_packCmd, instrFields, opcodeMap, strayField, fieldReg_regField]

theorem bnCmp (a b c : Fin 16) : Statement (.bnCmp a b c) := by
  simp [Statement, encode, cmdFields_packCmd, instrFields, opcodeMap, strayField, fieldReg_regField]

theorem bnSub (a b c : Fin 16) : Statement (.bnSub a b c) := by
  simp [Statement, encode, cmdFields_packCmd, instrFields, opcodeMap, strayField, fieldReg_regField]

theorem bnMul (a b c : Fin 16) : Statement (.bnMul a b c) := by
  simp [Statement, encode, cmdFields_packCmd, instrFields, opcodeMap, strayField, fieldReg_regField]

theorem bnShl (a b : Fin 16) : Statement (.bnShl a b) := by
  simp [Statement, encode, cmdFields_packCmd, instrFields, opcodeMap, strayField, fieldReg_regField]

theorem bnShr (a b : Fin 16) : Statement (.bnShr a b) := by
  simp [Statement, encode, cmdFields_packCmd, instrFields, opcodeMap, strayField, fieldReg_regField]

theorem bnPar (a b : Fin 16) : Statement (.bnPar a b) := by
  simp [Statement, encode, cmdFields_packCmd, instrFields, opcodeMap, strayField, fieldReg_regField]

theorem bnMod (a b c : Fin 16) : Statement (.bnMod a b c) := by
  simp [Statement, encode, cmdFields_packCmd, instrFields, opcodeMap, strayField, fieldReg_regField]

theorem bnModexp (a b c d : Fin 16) : Statement (.bnModexp a b c d) := by
  simp [Statement, encode, cmdFields_packCmd, instrFields, opcodeMap, strayField, fieldReg_regField]

theorem bfKey (a b : Fin 16) : Statement (.bfKey a b) := by
  simp [Statement, encode, cmdFields_packCmd, instrFields, opcodeMap, strayField, fieldReg_regField]

theorem bfEnc (a b : Fin 16) : Statement (.bfEnc a b) := by
  simp [Statement, encode, cmdFields_packCmd, instrFields, opcodeMap, strayField, fieldReg_regField]

theorem bfDec (a b : Fin 16) : Statement (.bfDec a b) := by
  simp [Statement, encode, cmdFields_packCmd, instrFields, opcodeMap, strayField, fieldReg_regField]

theorem lzDec (a b c d e : Fin 16) : Statement (.lzDec a b c d e) := by
  simp [Statement, encode, cmdFields_packCmd, instrFields, opcodeMap, strayField, fieldReg_regField]

theorem lzEnc (a b c d e : Fin 16) : Statement (.lzEnc a b c d e) := by
  simp [Statement, encode, cmdFields_packCmd, instrFields, opcodeMap, strayField, fieldReg_regField]

/-- Every command. -/
theorem all (i : Instr) : Statement i := by
  cases i
  case halt => exact halt
  case nop => exact nop
  case li a imm => exact li a imm
  case addi a b imm => exact addi a b imm
  case bnz a imm => exact bnz a imm
  case jmp imm => exact jmp imm
  case ldw a b imm => exact ldw a b imm
  case stw a b imm => exact stw a b imm
  case hInit => exact hInit
  case hFeed a b => exact hFeed a b
  case hFinal a => exact hFinal a
  case hHash a b c => exact hHash a b c
  case bnLd a b c => exact bnLd a b c
  case bnLdi a imm => exact bnLdi a imm
  case bnLdk a imm => exact bnLdk a imm
  case bnSt a b c d => exact bnSt a b c d
  case bnCmp a b c => exact bnCmp a b c
  case bnSub a b c => exact bnSub a b c
  case bnMul a b c => exact bnMul a b c
  case bnShl a b => exact bnShl a b
  case bnShr a b => exact bnShr a b
  case bnPar a b => exact bnPar a b
  case bnMod a b c => exact bnMod a b c
  case bnModexp a b c d => exact bnModexp a b c d
  case bfKey a b => exact bfKey a b
  case bfEnc a b => exact bfEnc a b
  case bfDec a b => exact bfDec a b
  case lzDec a b c d e => exact lzDec a b c d e
  case lzEnc a b c d e => exact lzEnc a b c d e

end Sys2Proof.Laws.OpcodeRow
end

