-- ==== Sys2Proof/Laws/Step.lean ====
section
/-! SUPPORT. Fetching, and the placing of one command where the next step fetches it. -/

namespace Sys2Proof.Machine

/-- What a fetch gives: the two address faults in their order, ILLEGAL, or a command (40_sequencer.md R151). -/
theorem State.fetchInstr_cases (s : State) :
    (s.cp.toNat % 8 ≠ 0 ∧ s.fetchInstr = .error (.fetchMisaligned, s.cp)) ∨
    (s.cp.toNat % 8 = 0 ∧ s.cfg.memSize < s.cp.toNat + 8 ∧ s.fetchInstr = .error (.fetchRange, s.cp)) ∨
    (s.cp.toNat % 8 = 0 ∧ s.cp.toNat + 8 ≤ s.cfg.memSize ∧
      ((∃ i, decodeWord (wordOfBytes (s.memRead s.cp.toNat 8)) = .ok i ∧ s.fetchInstr = .ok i) ∨
        ∃ e, decodeWord (wordOfBytes (s.memRead s.cp.toNat 8)) = .error e ∧
          s.fetchInstr = .error (.illegal, (wordOfBytes (s.memRead s.cp.toNat 8)).extractLsb' 0 32))) := by
  unfold State.fetchInstr
  by_cases h1 : s.cp.toNat % 8 = 0
  · by_cases h2 : s.cp.toNat + 8 ≤ s.cfg.memSize
    · refine .inr (.inr ⟨h1, h2, ?_⟩)
      simp only [h1, ne_eq, not_true_eq_false, if_false, State.inRange_of_le h2, Bool.not_true, Bool.false_eq_true]
      rw [decodeBytes_of_eight _ (by simp [State.memRead])]
      cases decodeWord (wordOfBytes (s.memRead s.cp.toNat 8)) with
      | ok i => exact .inl ⟨i, rfl, rfl⟩
      | error e => exact .inr ⟨e, rfl, rfl⟩
    · exact .inr (.inl ⟨h1, by omega, by simp [h1, State.inRange_of_lt (Nat.not_le.1 h2)]⟩)
  · exact .inl ⟨h1, by simp [h1]⟩

/-- A placed command is fetched at an aligned address inside memory. -/
theorem State.launchWith_cp (s : State) (bs : List Byte) (hc : s.cfg.valid = true) :
    (s.launchWith bs).cp.toNat % 8 = 0 ∧ (s.launchWith bs).cp.toNat + 8 ≤ s.cfg.memSize := by
  have hcp : (s.launchWith bs).cp = if s.fetchable then s.cp else 0 := rfl
  rw [hcp]
  by_cases h : s.fetchable = true
  · rw [if_pos h]
    simpa [State.fetchable, State.inRange] using h
  · rw [if_neg h]
    simp only [Config.valid, Bool.and_eq_true, decide_eq_true_eq] at hc
    simp
    omega

/-- The next step after placing a word that decodes runs exactly the command it decodes to. -/
theorem step_withFetchWord (s : State) (w : CmdWord) (i : Instr) (hc : s.cfg.valid = true)
    (hd : decodeWord w = .ok i) :
    step (s.withFetchWord 64 w.toNat) = exec i (s.withFetchWord 64 w.toNat) := by
  have hw : w.toNat % 2 ^ 64 = w.toNat := Nat.mod_eq_of_lt w.isLt
  have hcp := s.launchWith_cp (leBytes w.toNat 8) hc
  have hmem : (s.withFetchWord 64 w.toNat).memRead (s.withFetchWord 64 w.toNat).cp.toNat 8 = leBytes w.toNat 8 := by
    rw [State.withFetchWord, hw]
    have := Memory.readBytes_writeBytes s.mem (s.launchWith (leBytes w.toNat 8)).cp.toNat (leBytes w.toNat 8)
    rwa [length_leBytes] at this
  have hword : wordOfBytes (leBytes w.toNat 8) = w := by
    have := wordOfBytes_leBytes w []
    rwa [List.append_nil] at this
  have hcp' : (s.withFetchWord 64 w.toNat).cp = (s.launchWith (leBytes w.toNat 8)).cp := by
    rw [State.withFetchWord, hw]
  have hf : (s.withFetchWord 64 w.toNat).fetchInstr = .ok i := by
    rcases (s.withFetchWord 64 w.toNat).fetchInstr_cases with ⟨h, -⟩ | ⟨-, h, -⟩ | ⟨-, -, ⟨j, hj, h⟩ | ⟨e, he, -⟩⟩
    · rw [hcp'] at h; exact absurd hcp.1 h
    · rw [hcp'] at h; exact absurd hcp.2 (Nat.not_le.2 h)
    · rw [hmem, hword, hd] at hj
      cases hj
      exact h
    · rw [hmem, hword, hd] at he
      cases he
  rcases sequencerStep_cases (s.withFetchWord 64 w.toNat) with ⟨h, -⟩ | ⟨-, j, hj, h⟩ | ⟨-, c, info, hj, -⟩
  · cases h
  · rw [hf] at hj
    cases hj
    exact h
  · rw [hf] at hj
    cases hj

end Sys2Proof.Machine
end

