-- ==== Sys2Proof/Machine/Assembly.lean ====
section
/-! DEFINITION. Assembly text and pseudo-instructions (30_encoding.md R122, R123). No step reads these. -/

namespace Sys2Proof.Machine

/-- `X0` to `X15` (R122). -/
def asmX (r : XReg) : String := "X" ++ toString r.val

/-- `B0` to `B15` (R122). -/
def asmB (r : BReg) : String := "B" ++ toString r.val

/-- An immediate in decimal (R122; log 22). -/
def asmImm (imm : Word) : String := toString imm.toNat

/-- `[Xb+imm]`, the memory operand of LDW and STW (R122). -/
def asmMem (b : XReg) (imm : Word) : String :=
  if imm = 0 then "[" ++ asmX b ++ "]" else "[" ++ asmX b ++ "+" ++ asmImm imm ++ "]"

/-- A mnemonic and its operands, separated by commas (R122). -/
def asmLine (mnemonic : String) (operands : List String) : String :=
  if operands = [] then mnemonic else mnemonic ++ " " ++ String.intercalate ", " operands

/-- One command's line: operands in field order, then the immediate (R122). -/
def render : Instr → String
  | .halt => asmLine "HALT" []
  | .nop => asmLine "NOP" []
  | .li a imm => asmLine "LI" [asmX a, asmImm imm]
  | .addi a b imm => asmLine "ADDI" [asmX a, asmX b, asmImm imm]
  | .bnz a imm => asmLine "BNZ" [asmX a, asmImm imm]
  | .jmp imm => asmLine "JMP" [asmImm imm]
  | .ldw a b imm => asmLine "LDW" [asmX a, asmMem b imm]
  | .stw a b imm => asmLine "STW" [asmX a, asmMem b imm]
  | .hInit => asmLine "H.INIT" []
  | .hFeed a b => asmLine "H.FEED" [asmX a, asmX b]
  | .hFinal a => asmLine "H.FINAL" [asmX a]
  | .hHash a b c => asmLine "H.HASH" [asmX a, asmX b, asmX c]
  | .bnLd a b c => asmLine "BN.LD" [asmB a, asmX b, asmX c]
  | .bnLdi a imm => asmLine "BN.LDI" [asmB a, asmImm imm]
  | .bnLdk a imm => asmLine "BN.LDK" [asmB a, asmImm imm]
  | .bnSt a b c d => asmLine "BN.ST" [asmB a, asmX b, asmX c, asmX d]
  | .bnCmp a b c => asmLine "BN.CMP" [asmX a, asmB b, asmB c]
  | .bnSub a b c => asmLine "BN.SUB" [asmB a, asmB b, asmB c]
  | .bnMul a b c => asmLine "BN.MUL" [asmB a, asmB b, asmB c]
  | .bnShl a b => asmLine "BN.SHL" [asmB a, asmB b]
  | .bnShr a b => asmLine "BN.SHR" [asmB a, asmB b]
  | .bnPar a b => asmLine "BN.PAR" [asmX a, asmB b]
  | .bnMod a b c => asmLine "BN.MOD" [asmB a, asmB b, asmB c]
  | .bnModexp a b c d => asmLine "BN.MODEXP" [asmB a, asmB b, asmB c, asmB d]
  | .bfKey a b => asmLine "BF.KEY" [asmX a, asmX b]
  | .bfEnc a b => asmLine "BF.ENC" [asmX a, asmX b]
  | .bfDec a b => asmLine "BF.DEC" [asmX a, asmX b]
  | .lzDec a b c d e => asmLine "LZ.DEC" [asmX a, asmX b, asmX c, asmX d, asmX e]
  | .lzEnc a b c d e => asmLine "LZ.ENC" [asmX a, asmX b, asmX c, asmX d, asmX e]

/-- What a label used as the BNZ or JMP operand assembles to (R122). -/
def labelOffset (labelAddress here : Word) : Word := labelAddress - here

/-- The pseudo-instructions (R123). -/
inductive Pseudo where
  | mv (a b : XReg)
  | clr (a : XReg)
  | subi (a b : XReg) (k : Word)
  | j (offset : Word)
  | bnClr (a : BReg)
  | bnMov (a b : BReg)
deriving DecidableEq, Repr

/-- Their expansions (R123). BN.MOV has one only when its two registers differ. -/
def expandPseudo : Pseudo → Option (List Instr)
  | .mv a b => some [.addi a b 0]
  | .clr a => some [.li a 0]
  | .subi a b k => some [.addi a b (-k)]
  | .j offset => some [.jmp offset]
  | .bnClr a => some [.bnLdi a 0]
  | .bnMov a b => if a = b then none else some [.bnLdi a 1, .bnMul a b a]

end Sys2Proof.Machine
end

