-- ==== Sys2Proof/Tests/Slice0.lean ====
section
/-! SUPPORT. Tests with values from the spec (95_test_vectors.md and the rules), and witnesses that the hypotheses of the
statements can be met. -/

namespace Sys2Proof.Tests

open Sys2Proof Sys2Proof.Machine

/-! Well-formedness: one ill-formed term for each check. -/

theorem test_wf_refuses_selector_2 : (Instr.bnLdk 1 2).wellFormed = false := by decide
theorem test_wf_accepts_selector_1 : (Instr.bnLdk 1 1).wellFormed = true := by decide

/-- A small machine, with the key of 95 section 2.3: modulus 7, exponent 65537. -/
def cfg : Config :=
  { memSize := 128, bnLimbs := 20, pkModulus := Vector.ofFn fun i => if i.val = 39 then 7 else 0, pkExponent := 65537 }

theorem test_config_valid : cfg.valid = true := by decide
theorem test_config_refuses_size_12 : { cfg with memSize := 12 }.valid = false := by decide
theorem test_config_refuses_size_0 : { cfg with memSize := 0 }.valid = false := by decide
theorem test_config_refuses_size_above_2_32 : { cfg with memSize := 2 ^ 32 + 8 }.valid = false := by decide
theorem test_config_refuses_19_limbs : { cfg with bnLimbs := 19 }.valid = false := by decide

/-! Decoding: every command's word, written out from 30_encoding.md R111 and R116 (the words with operands are those of
the spec's programs where it has one). -/

theorem test_decode_halt : decodeTableWord 64 0x0000000000000001 = some .halt := by decide
theorem test_decode_nop : decodeTableWord 64 0x0000000000000002 = some .nop := by decide
theorem test_decode_li : decodeTableWord 64 0x0000100000000103 = some (.li 1 0x1000) := by decide
theorem test_decode_addi : decodeTableWord 64 0x0000000300001504 = some (.addi 5 1 3) := by decide
theorem test_decode_bnz : decodeTableWord 64 0xFFFFFFE800000B05 = some (.bnz 11 0xFFFFFFE8) := by decide
theorem test_decode_jmp : decodeTableWord 64 0x0000001000000006 = some (.jmp 16) := by decide
theorem test_decode_ldw : decodeTableWord 64 0xFFFFFFFC00002107 = some (.ldw 1 2 0xFFFFFFFC) := by decide
theorem test_decode_stw : decodeTableWord 64 0x0000000400008708 = some (.stw 7 8 4) := by decide
theorem test_decode_hInit : decodeTableWord 64 0x0000000000000010 = some .hInit := by decide
theorem test_decode_hFeed : decodeTableWord 64 0x0000000000006511 = some (.hFeed 5 6) := by decide
theorem test_decode_hFinal : decodeTableWord 64 0x0000000000000712 = some (.hFinal 7) := by decide
theorem test_decode_hHash : decodeTableWord 64 0x0000000000021313 = some (.hHash 3 1 2) := by decide
theorem test_decode_bnLd : decodeTableWord 64 0x0000000000021120 = some (.bnLd 1 1 2) := by decide
theorem test_decode_bnLdi : decodeTableWord 64 0x000003E800000721 = some (.bnLdi 7 1000) := by decide
theorem test_decode_bnLdk : decodeTableWord 64 0x0000000100000222 = some (.bnLdk 2 1) := by decide
theorem test_decode_bnSt : decodeTableWord 64 0x0000000000543423 = some (.bnSt 4 3 4 5) := by decide
theorem test_decode_bnCmp : decodeTableWord 64 0x0000000000084124 = some (.bnCmp 1 4 8) := by decide
theorem test_decode_bnSub : decodeTableWord 64 0x0000000000084925 = some (.bnSub 9 4 8) := by decide
theorem test_decode_bnMul : decodeTableWord 64 0x0000000000032126 = some (.bnMul 1 2 3) := by decide
theorem test_decode_bnShl : decodeTableWord 64 0x0000000000002127 = some (.bnShl 1 2) := by decide
theorem test_decode_bnShr : decodeTableWord 64 0x000000000000F028 = some (.bnShr 0 15) := by decide
theorem test_decode_bnPar : decodeTableWord 64 0x000000000000BA29 = some (.bnPar 10 11) := by decide
theorem test_decode_bnMod : decodeTableWord 64 0x000000000005432A = some (.bnMod 3 4 5) := by decide
theorem test_decode_bnModexp : decodeTableWord 64 0x000000000032142B = some (.bnModexp 4 1 2 3) := by decide
theorem test_decode_bfKey : decodeTableWord 64 0x0000000000008730 = some (.bfKey 7 8) := by decide
theorem test_decode_bfEnc : decodeTableWord 64 0x000000000000CA31 = some (.bfEnc 10 12) := by decide
theorem test_decode_bfDec : decodeTableWord 64 0x0000000000004332 = some (.bfDec 3 4) := by decide
theorem test_decode_lzDec : decodeTableWord 64 0x0000000004321540 = some (.lzDec 5 1 2 3 4) := by decide
theorem test_decode_lzEnc : decodeTableWord 64 0x0000000004653741 = some (.lzEnc 7 3 5 6 4) := by decide

/-- The bytes of program P1's first command (95 section 3). -/
theorem test_encodeBytes_li : encodeBytes (.li 1 0x1000) = [0x03, 0x01, 0x00, 0x00, 0x00, 0x10, 0x00, 0x00] := by decide

/-- The illegal words of 95 section 2.1. -/
theorem test_decode_illegal_words :
    decodeWord 0x0000000000000000 = .error .unknownOpcode ∧ decodeWord 0x0000000000000009 = .error .unknownOpcode ∧
    decodeWord 0x00000000000000FF = .error .unknownOpcode ∧ decodeWord 0x0000000010000001 = .error .reservedBits ∧
    decodeWord 0x0000000500001103 = .error .unusedField ∧ decodeWord 0x0000000100000010 = .error .unusedImmediate ∧
    decodeWord 0x0000000200000122 = .error .badSelector ∧ decodeWord 0x0000000010000040 = .error .reservedBits ∧
    decodeWord 0x0000000500000001 = .error .unusedImmediate ∧ decodeWord 0x0000000000000102 = .error .unusedField := by
  decide

theorem test_decodeBytes_too_few : decodeBytes [0x01, 0, 0, 0, 0, 0, 0] = .error .tooFewBytes := by decide

/-! The small states. -/

/-- Power-on state of the small machine, running. -/
def base : State := { State.powerOn cfg [] CipherTables.zero with busy := true }

/-- X registers set. -/
def withX (l : List (XReg × Word)) (s : State) : State := l.foldl (fun s p => s.setX p.1 p.2) s

/-- B registers set. -/
def withB (l : List (BReg × Nat)) (s : State) : State := l.foldl (fun s p => s.setB p.1 p.2) s

/-- A part of the next state, if there is one. -/
def after {α : Type} (o : Host.Outcome State Fault Refusal) (f : State → α) : Option α :=
  match o with
  | .next t => some (f t)
  | .fault _ => none
  | .refused _ => none

/-- The fault record with `faulted`. -/
def record (t : State) : Bool × Word × Word × Word := (t.faulted, t.faultCode, t.faultCp, t.faultInfo)

/-! The sequencer (95 section 2.1). -/

theorem test_halt : after (exec .halt base) (fun t => (t.busy, t.done, t.cp)) = some (false, true, 8) := by decide
theorem test_nop : after (exec .nop base) (fun t => (t.busy, t.cp)) = some (true, 8) := by decide
theorem test_li : after (exec (.li 15 0xFFFFFFFF) base) (fun t => t.getX 15) = some 0xFFFFFFFF := by decide
theorem test_addi_wraps : after (exec (.addi 1 1 1) (withX [(1, 0xFFFFFFFF)] base)) (fun t => t.getX 1) = some 0 := by
  decide
theorem test_addi_minus_one : after (exec (.addi 1 1 0xFFFFFFFF) base) (fun t => t.getX 1) = some 0xFFFFFFFF := by decide
theorem test_bnz_taken :
    after (exec (.bnz 1 0xFFFFFFF8) (withX [(1, 2)] { base with cp := 0x10 })) (fun t => t.cp) = some 8 := by decide
theorem test_bnz_not_taken : after (exec (.bnz 1 0) base) (fun t => t.cp) = some 8 := by decide
theorem test_jmp : after (exec (.jmp 16) base) (fun t => t.cp) = some 16 := by decide
theorem test_jmp_backward_wraps : after (exec (.jmp 0xFFFFFFF8) base) (fun t => t.cp) = some 0xFFFFFFF8 := by decide

/-- `11 22 33 44` at 0x40. -/
def mem1 : State := base.memWrite 0x40 [0x11, 0x22, 0x33, 0x44]

theorem test_ldw : after (exec (.ldw 1 2 0xFFFFFFFC) (withX [(2, 0x44)] mem1)) (fun t => t.getX 1) = some 0x44332211 := by
  decide
theorem test_ldw_unaligned : after (exec (.ldw 1 2 1) (withX [(2, 0x40)] mem1)) (fun t => t.getX 1) = some 0x00443322 := by
  decide
theorem test_stw : after (exec (.stw 1 2 0) (withX [(1, 0x11223344), (2, 0x50)] base)) (fun t => t.memRead 0x50 4) =
    some [0x44, 0x33, 0x22, 0x11] := by decide
theorem test_stw_out_of_range :
    after (exec (.stw 1 2 0) (withX [(2, 125)] { base with cp := 8 })) record = some (true, 4, 8, 125) := by decide

/-! The hash unit (95 section 2.2). -/

/-- `test.dat` at 0x40. -/
def memName : State := base.memWrite 0x40 [0x74, 0x65, 0x73, 0x74, 0x2E, 0x64, 0x61, 0x74]

theorem test_hHash : after (exec (.hHash 3 1 2) (withX [(1, 0x40), (2, 8)] memName)) (fun t => t.getX 3) =
    some 0xFCE7CED6 := by decide
theorem test_hHash_wraps_and_keeps_high_bytes :
    hashBytes [0xFF, 0xFF, 0xFF, 0xFF, 0xFF] = 0x000000FE ∧ hashBytes [0xE9, 0x61] = 0x000041E9 ∧
    hashBytes [0, 0, 0, 0x80, 0, 0, 0, 0x80] = 0x80000001 ∧ hashBytes [0x40, 0x5B, 0x60, 0x7B] = 0x7B605B40 := by decide
theorem test_hashSignedKey :
    hashSignedKey [0x54, 0x45, 0x53, 0x54, 0x2E, 0x44, 0x41, 0x54] = -51917098 := by decide
theorem test_hInit : after (exec .hInit { base with hacc := 5, hpend := [0x41] }) (fun t => (t.hacc, t.hpend)) =
    some (0, []) := by decide
theorem test_hFeed : after (exec (.hFeed 1 2) (withX [(1, 0x40), (2, 3)] memName)) (fun t => (t.hacc, t.hpend)) =
    some (0, [0x54, 0x45, 0x53]) := by decide
theorem test_hFeed_goes_on :
    after (exec (.hFeed 1 2) (withX [(1, 0x43), (2, 5)] { memName with hpend := [0x54, 0x45, 0x53] }))
      (fun t => (t.hacc, t.hpend)) = some (0xFCE7CED6, []) := by decide
theorem test_hFinal : after (exec (.hFinal 4) { base with hpend := [0x54, 0x45, 0x53] }) (fun t => (t.getX 4, t.hpend)) =
    some (0x00534554, [0x54, 0x45, 0x53]) := by decide

/-! The big-integer unit (95 section 2.3). -/

theorem test_bnLd : after (exec (.bnLd 1 2 3) (withX [(2, 0x40), (3, 4)] (base.memWrite 0x40 [0, 0, 1, 0])))
    (fun t => t.getB 1) = some 256 := by decide +kernel
theorem test_bnLd_empty : after (exec (.bnLd 1 2 3) (withB [(1, 9)] base)) (fun t => t.getB 1) = some 0 := by decide +kernel
theorem test_bnLdi : after (exec (.bnLdi 1 0xFFFFFFFF) base) (fun t => t.getB 1) = some 4294967295 := by decide
theorem test_bnLdk_modulus : after (exec (.bnLdk 1 0) base) (fun t => t.getB 1) = some 7 := by decide
theorem test_bnLdk_exponent : after (exec (.bnLdk 1 1) base) (fun t => t.getB 1) = some 0x10001 := by decide
theorem test_bnSt : after (exec (.bnSt 1 2 3 4) (withB [(1, 0x1234)] (withX [(2, 0x50), (3, 4)] base)))
    (fun t => (t.memRead 0x50 4, t.getX 4)) = some ([0x00, 0x00, 0x12, 0x34], 4) := by decide
theorem test_bnSt_empty_at_end : after (exec (.bnSt 1 2 3 4) (withX [(2, 128), (4, 9)] base))
    (fun t => (t.faulted, t.getX 4)) = some (false, 0) := by decide
theorem test_bnCmp_less : after (exec (.bnCmp 1 2 3) (withB [(2, 5), (3, 6)] base)) (fun t => t.getX 1) =
    some 0xFFFFFFFF := by decide
theorem test_bnCmp_greater : after (exec (.bnCmp 1 2 3) (withB [(2, 6), (3, 5)] base)) (fun t => t.getX 1) = some 1 := by
  decide
theorem test_bnSub : after (exec (.bnSub 1 2 1) (withB [(1, 1), (2, 4294967295)] base)) (fun t => t.getB 1) =
    some 4294967294 := by decide
theorem test_bnSub_underflow : after (exec (.bnSub 1 2 3) (withB [(2, 5), (3, 6)] base)) record =
    some (true, 6, 0, 0) := by decide
theorem test_bnMul : after (exec (.bnMul 1 2 2) (withB [(2, 0xFFFFFFFF)] base)) (fun t => t.getB 1) =
    some 0xFFFFFFFE00000001 := by decide +kernel
theorem test_bnMul_overflow : after (exec (.bnMul 1 2 2) (withB [(2, 2 ^ 320)] base)) record = some (true, 5, 0, 0) := by
  decide +kernel
theorem test_bnShl : after (exec (.bnShl 1 2) (withB [(2, 0x80000000)] base)) (fun t => t.getB 1) =
    some 0x100000000 := by decide +kernel
theorem test_bnShr : after (exec (.bnShr 1 2) (withB [(2, 7)] base)) (fun t => t.getB 1) = some 3 := by decide
theorem test_bnPar : after (exec (.bnPar 1 2) (withB [(2, 7)] base)) (fun t => t.getX 1) = some 1 := by decide
theorem test_bnMod : after (exec (.bnMod 1 2 3) (withB [(2, 2 ^ 64), (3, 1000)] base)) (fun t => t.getB 1) =
    some 616 := by decide
theorem test_bnMod_zero : after (exec (.bnMod 1 2 3) base) record = some (true, 7, 0, 0) := by decide
theorem test_bnModexp : after (exec (.bnModexp 2 1 2 3) (withB [(1, 3), (2, 5), (3, 7)] base)) (fun t => t.getB 2) =
    some 5 := by decide
theorem test_bnModexp_corners : modExp 5 0 7 = 1 ∧ modExp 5 0 1 = 0 ∧ modExp 0 0 5 = 1 ∧ modExp 2 10 1000 = 24 ∧
    modExp (2 ^ 64 + 3) 3 (2 ^ 61 - 1) = 1331 := by decide

/-! The cipher unit. The vectors of 95 section 2.4 need a full key schedule, which the kernel does not reach; these are
hand calculations from 43_cipher.md R300 to R304. -/

/-- R300's spot checks. -/
theorem test_initTables : initTables.s[0][0] = 0xD1310BA6 ∧ initTables.s[1][0] = 0x4B7A70E9 ∧
    initTables.s[2][0] = 0xE93D5A68 ∧ initTables.s[3][0] = 0x3A39CE37 ∧ initTables.s[3][255] = 0x3AC372E6 := by
  decide +kernel

/-- R301 by hand: `((D1310BA6 + 4B7A70E9) xor E93D5A68) + 3A39CE37`. -/
theorem test_cipherF : cipherF initTables.s 0 = 0x2FCFF51E := by decide +kernel

/-- Subkeys `P[i] = i` and substitution tables of zeros: sixteen rounds add nothing, `P[16]` and `P[17]` remain. -/
def plainTables : CipherTables :=
  { p := Vector.ofFn fun i => BitVec.ofNat 32 i.val, s := Vector.replicate 4 (Vector.replicate 256 0) }

/-- A keyed state with those tables. -/
def keyedState : State := { base with keyed := true, tables := plainTables }

theorem test_bfEnc : after (exec (.bfEnc 1 2) (withX [(1, 0x40), (2, 8)] (keyedState.memWrite 0x40 [1, 2, 3, 4, 5, 6, 7, 8])))
    (fun t => t.memRead 0x40 8) = some [5, 6, 7, 0x19, 1, 2, 3, 0x14] := by decide +kernel
theorem test_bfEnc_not_keyed : after (exec (.bfEnc 1 2) (withX [(2, 5)] base)) record = some (true, 9, 0, 0) := by decide
theorem test_bfDec : after (exec (.bfDec 1 2) (withX [(1, 0x40), (2, 8)]
    (keyedState.memWrite 0x40 [5, 6, 7, 0x19, 1, 2, 3, 0x14]))) (fun t => t.memRead 0x40 8) =
    some [1, 2, 3, 4, 5, 6, 7, 8] := by decide +kernel
theorem test_bfDec_length : after (exec (.bfDec 1 2) (withX [(2, 12)] keyedState)) record = some (true, 10, 0, 12) := by
  decide
theorem test_bfKey_length_57 : after (exec (.bfKey 1 2) (withX [(2, 57)] base)) record = some (true, 8, 0, 0x39) := by
  decide

/-- R305's first loop: the key cycles, four bytes a word, big-endian. -/
theorem test_keyWord : keyWord [0x41, 0x42, 0x43] 1 = 0x42434142 := by decide

/-! The codec unit (95 sections 2.5 and 2.6). -/

/-- The stream `83 41 42 43 44 10 04 00` at 0x20. -/
def memLz : State := base.memWrite 0x20 [0x83, 0x41, 0x42, 0x43, 0x44, 0x10, 0x04, 0x00]

theorem test_lzDec : after (exec (.lzDec 5 1 2 3 4) (withX [(1, 0x20), (2, 8), (3, 0x40), (4, 8)] memLz))
    (fun t => (t.memRead 0x40 8, t.getX 5)) = some ([0x41, 0x42, 0x43, 0x44, 0x41, 0x42, 0x43, 0x44], 8) := by decide
theorem test_lzDec_overlap : after (exec (.lzDec 5 1 2 3 4) (withX [(1, 0x20), (2, 8), (3, 0x24), (4, 16)] memLz)) record =
    some (true, 13, 0, 0) := by decide
theorem test_lzDecode_vectors :
    lzDecode [0x80, 0x41, 0x70, 0x01, 0x00] 5 = .small [0x41, 0x41, 0x41, 0x41, 0x41] ∧
    lzDecode [0x80, 0x41, 0x10, 0x00, 0x00] 99 = .invalid [0x41] ∧ lzDecode [0x83, 0x41] 99 = .invalid [] ∧
    lzDecode [0xC0, 0x00, 0x5A, 0x00] 99 = .ok [0x5A] ∧ lzDecode [0x00] 0 = .ok [] := by decide
theorem test_lzEnc : after (exec (.lzEnc 5 1 2 3 4) (withX [(1, 0x20), (2, 8), (3, 0x40), (4, 8)]
    (base.memWrite 0x20 [0x41, 0x42, 0x43, 0x44, 0x41, 0x42, 0x43, 0x44]))) (fun t => (t.memRead 0x40 8, t.getX 5)) =
    some ([0x83, 0x41, 0x42, 0x43, 0x44, 0x10, 0x04, 0x00], 8) := by decide
theorem test_lzEnc_small : after (exec (.lzEnc 5 1 2 3 4) (withX [(1, 0x20), (2, 8), (3, 0x40), (4, 7), (5, 0xAAAA)]
    (base.memWrite 0x20 [0x41, 0x42, 0x43, 0x44, 0x41, 0x42, 0x43, 0x44])))
    (fun t => (record t, t.memRead 0x40 8, t.getX 5)) =
    some ((true, 12, 0, 7), [0x83, 0x41, 0x42, 0x43, 0x44, 0x10, 0x04, 0x00], 0xAAAA) := by decide
theorem test_lzEncode_vectors :
    lzEncode [0x41, 0x42, 0x43, 0x41, 0x42, 0x43] 99 = .ok [0x85, 0x41, 0x42, 0x43, 0x41, 0x42, 0x43, 0x00] ∧
    lzEncode (List.replicate 11 0x41) 99 = .ok [0x80, 0x41, 0x70, 0x01, 0x00] ∧ lzEncode [] 1 = .ok [0x00] := by decide
theorem test_maxCompressedSize : maxCompressedSize 63 = 65 ∧ maxCompressedSize 64 = 67 ∧ maxCompressedSize 4032 = 4097 := by
  decide

/-! The step, the host and reset. -/

theorem test_step_misaligned : after (step { base with cp := 4 }) record = some (true, 1, 4, 4) := by decide
theorem test_step_out_of_range : after (step { base with cp := 128 }) record = some (true, 2, 128, 128) := by decide
theorem test_step_zero_memory : after (step { base with cp := 8 }) record = some (true, 3, 8, 0) := by decide
theorem test_step_idle : step { base with busy := false } = .next { base with busy := false } := by rfl
theorem test_step_from_reset : after (step (State.reset.withFetchWord 64 0x0000100000000103)) (fun t => t.getX 1) =
    some 0x1000 := by decide
theorem test_withFetchWord_runs_it (s : State) (hc : s.cfg.valid = true) :
    step (s.withFetchWord 64 0x0000100000000103) = exec (.li 1 0x1000) (s.withFetchWord 64 0x0000100000000103) :=
  step_withFetchWord s 0x0000100000000103 _ hc (by decide)

/-- STATUS after a fault with the interrupt enabled (10_state.md R62): FAULTED, IRQ. -/
theorem test_host_status :
    after (step { base with busy := false, faulted := true, irqEn := true, hostTurns := [.act (.readReg 8 4)] })
      (fun t => t.hostReplies) = some [.reg 0x104] := by decide
theorem test_host_bnlimbs :
    after (step { base with hostTurns := [.act (.readReg 0x20 4)] }) (fun t => t.hostReplies) = some [.reg 20] := by decide
theorem test_host_write_past_end :
    after (step { base with busy := false, hostTurns := [.act (.writeMem 126 [1, 2, 3])] })
      (fun t => (t.mem, t.hostErr)) = some ([(126, 1), (127, 2)], true) := by decide
theorem test_host_read_while_busy :
    after (step { base with hostTurns := [.act (.readReg 0x44 4)] }) (fun t => (t.hostReplies, t.hostErr)) =
      some ([.reg 0], true) := by decide

/-- The assembly of 30_encoding.md's listings. -/
theorem test_render : render (.lzDec 5 1 2 3 4) = "LZ.DEC X5, X1, X2, X3, X4" := by decide

/-! Witnesses: states and operands that meet the hypotheses of the statements, at the boundaries of each clause. -/

theorem witness_DecodeInvertsEncode : (Instr.bnLdk 15 1).wellFormed = true ∧ (Instr.bnLdk 0 0).wellFormed = true ∧
    (Instr.lzEnc 15 15 15 15 15).wellFormed = true := by decide

theorem witness_DecodedWordsAreTheTablesRows : decodeWord 0x0000000100000222 = .ok (.bnLdk 2 1) ∧
    ∃ row ∈ matchMaskTable, (0x0000000100000222 : CmdWord) &&& row.mask = row.pattern ∧
      (row.mnemonic = "BN.LDK" → (0x0000000100000222 : CmdWord).toNat / 2 ^ 32 ≤ 1) := by decide

/-- `base` with a word where it fetches. -/
def holding (w : Nat) : State := base.memWrite 0 (leBytes w 8)

/-- One word for each opcode range's ends, a word that breaks its row, a third selector. -/
theorem witness_IllegalWordsFault : ∀ w ∈ [0x00, 0x09, 0x0F, 0x14, 0x1F, 0x2C, 0x2F, 0x33, 0x3F, 0x42, 0xFF, 0x102,
      0x0000000200000122],
    (holding w).hostTurns = [] ∧ (holding w).busy = true ∧ (holding w).cp.toNat % 8 = 0 ∧
    (holding w).cp.toNat + 8 ≤ (holding w).cfg.memSize ∧
    (∀ k, k < 8 → ((holding w).byteAt ((holding w).cp.toNat + k)).toNat = w / 256 ^ k % 256) ∧
    (w % 256 = 0x00 ∨ (0x09 ≤ w % 256 ∧ w % 256 ≤ 0x0F) ∨ (0x14 ≤ w % 256 ∧ w % 256 ≤ 0x1F) ∨
      (0x2C ≤ w % 256 ∧ w % 256 ≤ 0x2F) ∨ (0x33 ≤ w % 256 ∧ w % 256 ≤ 0x3F) ∨ 0x42 ≤ w % 256 ∨
      (∃ row ∈ matchMaskTable, row.pattern.toNat = w % 256 ∧ BitVec.ofNat 64 w &&& row.mask ≠ row.pattern) ∨
      (w % 256 = 0x22 ∧ 2 ≤ w / 2 ^ 32)) := by decide +kernel

/-- A command at the last aligned place of memory. -/
def lastPlace : State := { base.memWrite 120 (leBytes 0x0000100000000103 8) with cp := 120 }

theorem witness_SequencerStep_idle : { base with busy := false }.hostTurns = [] ∧ { base with busy := false }.busy = false := by
  decide
theorem witness_SequencerStep_misaligned : ({ base with cp := 124 } : State).hostTurns = [] ∧ base.busy = true ∧
    (124 : Word).toNat % 8 ≠ 0 := by decide
theorem witness_SequencerStep_outOfRange : ({ base with cp := 128 } : State).busy = true ∧ (128 : Word).toNat % 8 = 0 ∧
    base.cfg.memSize < (128 : Word).toNat + 8 := by decide
theorem witness_SequencerStep_decodes : lastPlace.busy = true ∧ lastPlace.cp.toNat % 8 = 0 ∧
    lastPlace.cp.toNat + 8 ≤ lastPlace.cfg.memSize ∧
    (0x0000100000000103 : CmdWord).toNat =
      ∑ k ∈ Finset.range 8, (lastPlace.byteAt (lastPlace.cp.toNat + k)).toNat * 256 ^ k ∧
    decodeWord 0x0000100000000103 = .ok (.li 1 0x1000) := by decide +kernel
theorem witness_SequencerStep_illegal : base.busy = true ∧ base.cp.toNat % 8 = 0 ∧
    base.cp.toNat + 8 ≤ base.cfg.memSize ∧
    (0 : CmdWord).toNat = ∑ k ∈ Finset.range 8, (base.byteAt (base.cp.toNat + k)).toNat * 256 ^ k ∧
    decodeWord 0 = .error .unknownOpcode := by decide +kernel
theorem witness_StepRunsTheDecodedCommand : lastPlace.busy = true ∧ lastPlace.cp.toNat % 8 = 0 ∧
    lastPlace.cp.toNat + 8 ≤ lastPlace.cfg.memSize ∧
    decodeBytes (lastPlace.memRead lastPlace.cp.toNat 8) = .ok (.li 1 0x1000, []) ∧ lastPlace.hostTurns = [] ∧
    { lastPlace with hostTurns := [.letRun] }.hostTurns = .letRun :: [] := by decide

/-- NOP words with one more bit set: the lowest field's, the highest field's, the immediate's highest. -/
theorem witness_NopOnlyAdvances : ∀ w ∈ [0x102, 0x80000002, 0x8000000000000002],
    (holding w).hostTurns = [] ∧ (holding w).busy = true ∧ (holding w).cp.toNat % 8 = 0 ∧
    (holding w).cp.toNat + 8 ≤ (holding w).cfg.memSize ∧
    (∀ k, k < 8 → ((holding w).byteAt ((holding w).cp.toNat + k)).toNat = w / 256 ^ k % 256) ∧
    w % 256 = 0x02 ∧ BitVec.ofNat 64 w ≠ 0x02 := by decide +kernel

theorem witness_Bnz : (withX [(1, 1)] base).getX 1 ≠ 0 ∧ base.getX 1 = 0 := by decide
theorem witness_LdwStw_inRange :
    ((withX [(2, 123)] base).effectiveAddress 2 1).toNat + 4 ≤ (withX [(2, 123)] base).cfg.memSize := by decide
theorem witness_LdwStw_outOfRange :
    (withX [(2, 124)] base).cfg.memSize < ((withX [(2, 124)] base).effectiveAddress 2 1).toNat + 4 := by decide

/-- `X[1]` an address, `X[2]` a length. -/
def atEnd (a n : Word) : State := withX [(1, a), (2, n)] base

theorem witness_HFeed_HHash_inRange : (atEnd 120 8).natX 1 + (atEnd 120 8).natX 2 ≤ (atEnd 120 8).cfg.memSize := by decide
theorem witness_HFeed_HHash_outOfRange : (atEnd 121 8).cfg.memSize < (atEnd 121 8).natX 1 + (atEnd 121 8).natX 2 := by
  decide

/-- Eighty-one bytes at 47, the first `b` and the others `c`; in range exactly. -/
def bigBytes (b c : Byte) : State := (atEnd 47 81).memWrite 47 (b :: List.replicate 80 c)

theorem witness_BnLd_fits : (bigBytes 0 0xFF).natX 1 + (bigBytes 0 0xFF).natX 2 ≤ (bigBytes 0 0xFF).cfg.memSize ∧
    beNat ((bigBytes 0 0xFF).memRead 47 81) < 2 ^ (32 * (bigBytes 0 0xFF).cfg.bnLimbs) := by decide +kernel
theorem witness_BnLd_overflows : (bigBytes 1 0).natX 1 + (bigBytes 1 0).natX 2 ≤ (bigBytes 1 0).cfg.memSize ∧
    2 ^ (32 * (bigBytes 1 0).cfg.bnLimbs) ≤ beNat ((bigBytes 1 0).memRead 47 81) := by decide +kernel
theorem witness_BnLd_outOfRange : (atEnd 47 82).cfg.memSize < (atEnd 47 82).natX 1 + (atEnd 47 82).natX 2 := by decide
theorem witness_BnLdi_BnLdk : 20 ≤ base.cfg.bnLimbs ∧ (2 : Word) ≠ 0 ∧ (2 : Word) ≠ 1 := by decide
theorem witness_BnSt_inRange : let s := withB [(1, 0x1234)] (atEnd 126 1)
    s.natX 1 + bnStoreLength (s.getB 1) (s.natX 2) ≤ s.cfg.memSize := by decide
theorem witness_BnSt_outOfRange : let s := withB [(1, 0x1234)] (atEnd 127 1)
    s.cfg.memSize < s.natX 1 + bnStoreLength (s.getB 1) (s.natX 2) := by decide

/-- Three B registers. -/
def bigs (u v w : Nat) : State := withB [(1, u), (2, v), (3, w)] base

theorem witness_BnCmp_BnSub : (bigs 4 5 5).getB 1 < (bigs 4 5 5).getB 2 ∧ (bigs 4 5 5).getB 2 = (bigs 4 5 5).getB 3 ∧
    (bigs 5 4 5).getB 2 < (bigs 5 4 5).getB 1 := by decide
theorem witness_BnMul_fits : (bigs (2 ^ 640 - 1) 1 0).getB 1 * (bigs (2 ^ 640 - 1) 1 0).getB 2 <
    2 ^ (32 * (bigs (2 ^ 640 - 1) 1 0).cfg.bnLimbs) := by decide +kernel
theorem witness_BnMul_overflows : 2 ^ (32 * (bigs (2 ^ 639) 2 0).cfg.bnLimbs) ≤
    (bigs (2 ^ 639) 2 0).getB 1 * (bigs (2 ^ 639) 2 0).getB 2 := by decide +kernel
theorem witness_BnShl_fits : let s := bigs (2 ^ 639 - 1) 0 0
    1 ≤ s.cfg.bnLimbs ∧ s.getB 1 < 2 ^ (32 * s.cfg.bnLimbs) ∧
      (s.getB 1).testBit (32 * s.cfg.bnLimbs - 1) = false := by decide +kernel
theorem witness_BnShl_overflows : let s := bigs (2 ^ 639) 0 0
    1 ≤ s.cfg.bnLimbs ∧ s.getB 1 < 2 ^ (32 * s.cfg.bnLimbs) ∧
      (s.getB 1).testBit (32 * s.cfg.bnLimbs - 1) = true := by decide +kernel
theorem witness_BnPar : Even ((bigs 2 3 0).getB 1) ∧ Odd ((bigs 2 3 0).getB 2) := by
  constructor <;> decide
theorem witness_BnMod_BnModexp : (bigs 0 1 0).getB 2 ≠ 0 ∧ (bigs 0 1 0).getB 3 = 0 := by decide

theorem witness_BfKey_lengths : (atEnd 0 0).natX 2 < 1 ∧ 56 < (atEnd 0 57).natX 2 := by decide
theorem witness_BfKey_outOfRange : 1 ≤ (atEnd 128 1).natX 2 ∧ (atEnd 128 1).natX 2 ≤ 56 ∧
    (atEnd 128 1).cfg.memSize < (atEnd 128 1).natX 1 + (atEnd 128 1).natX 2 := by decide
theorem witness_BfKey_inRange : 1 ≤ (atEnd 72 56).natX 2 ∧ (atEnd 72 56).natX 2 ≤ 56 ∧
    (atEnd 72 56).natX 1 + (atEnd 72 56).natX 2 ≤ (atEnd 72 56).cfg.memSize := by decide

/-- A keyed state with a buffer. -/
def keyedAt (a n : Word) : State := withX [(1, a), (2, n)] keyedState

theorem witness_BfEnc_BfDec_faults : base.keyed = false ∧
    ((keyedAt 0 12).keyed = true ∧ (keyedAt 0 12).natX 2 % 8 ≠ 0) ∧
    ((keyedAt 121 8).keyed = true ∧ (keyedAt 121 8).natX 2 % 8 = 0 ∧
      (keyedAt 121 8).cfg.memSize < (keyedAt 121 8).natX 1 + (keyedAt 121 8).natX 2) := by decide
theorem witness_BfEnc_BfDec_done : (keyedAt 112 16).keyed = true ∧ (keyedAt 112 16).natX 2 % 8 = 0 ∧
    (keyedAt 112 16).natX 1 + (keyedAt 112 16).natX 2 ≤ (keyedAt 112 16).cfg.memSize := by decide
theorem witness_KeyScheduleCyclesTheKey : (1 ≤ ([0xAB] : List Byte).length ∧ (List.replicate 56 (0xAB : Byte)).length ≤ 56) ∧
    (1 ≤ (List.replicate 28 (0xAB : Byte)).length ∧ 2 * (List.replicate 28 (0xAB : Byte)).length ≤ 56) := by decide
/-- Keys of 2 and 6 bytes that agree when cycled. -/
theorem witness_KeyScheduleCyclesTheKey_cycled : ∀ m, m < 72 →
    ([0xAB, 0xCD] : List Byte).getD (m % 2) 0 = ([0xAB, 0xCD, 0xAB, 0xCD, 0xAB, 0xCD] : List Byte).getD (m % 6) 0 := by
  decide

/-- A codec state: source `bs` at 0x20, destination `d` with capacity `e`. -/
def lzState (bs : List Byte) (d e : Word) : State :=
  withX [(1, 0x20), (2, BitVec.ofNat 32 bs.length), (3, d), (4, e)] (base.memWrite 0x20 bs)

theorem witness_Lz_ranges :
    (withX [(1, 121), (2, 8)] base).cfg.memSize < (withX [(1, 121), (2, 8)] base).natX 1 + (withX [(1, 121), (2, 8)] base).natX 2 ∧
    ((lzState [0x00] 128 1).natX 1 + (lzState [0x00] 128 1).natX 2 ≤ (lzState [0x00] 128 1).cfg.memSize ∧
      (lzState [0x00] 128 1).cfg.memSize < (lzState [0x00] 128 1).natX 3 + (lzState [0x00] 128 1).natX 4) := by decide
theorem witness_Lz_overlap : let s := lzState [0x80, 0x41, 0x00] 0x22 1
    s.natX 1 + s.natX 2 ≤ s.cfg.memSize ∧ s.natX 3 + s.natX 4 ≤ s.cfg.memSize ∧
      ∃ i, (s.natX 1 ≤ i ∧ i < s.natX 1 + s.natX 2) ∧ (s.natX 3 ≤ i ∧ i < s.natX 3 + s.natX 4) :=
  ⟨by decide, by decide, 0x22, by decide, by decide⟩

/-- The source's bytes, as the statements read them. -/
def lzSource (s : State) : List Byte := (List.range (s.natX 2)).map fun k => s.byteAt (s.natX 1 + k)

/-- Source and destination that touch do not overlap. -/
theorem witness_Lz_touching (bs : List Byte) (d e : Nat) (h : 0x20 + bs.length ≤ d) :
    ¬∃ i, (0x20 ≤ i ∧ i < 0x20 + bs.length) ∧ (d ≤ i ∧ i < d + e) := by
  rintro ⟨i, h1, h2⟩
  omega
theorem witness_LzDec_ok : let s := lzState [0x80, 0x41, 0x00] 0x23 1
    s.natX 1 + s.natX 2 ≤ s.cfg.memSize ∧ s.natX 3 + s.natX 4 ≤ s.cfg.memSize ∧ 0x20 + 3 ≤ s.natX 3 ∧
      lzDecode (lzSource s) (s.natX 4) = .ok [0x41] := by decide
theorem witness_LzDec_invalid : let s := lzState [0x80, 0x41, 0x10, 0x02, 0x00] 0x25 16
    s.natX 1 + s.natX 2 ≤ s.cfg.memSize ∧ s.natX 3 + s.natX 4 ≤ s.cfg.memSize ∧ 0x20 + 5 ≤ s.natX 3 ∧
      lzDecode (lzSource s) (s.natX 4) = .invalid [0x41] := by decide
theorem witness_LzDec_small : let s := lzState [0x80, 0x41, 0x00] 128 0
    s.natX 1 + s.natX 2 ≤ s.cfg.memSize ∧ s.natX 3 + s.natX 4 ≤ s.cfg.memSize ∧ 0x20 + 3 ≤ s.natX 3 ∧
      lzDecode (lzSource s) (s.natX 4) = .small [] := by decide
theorem witness_LzEnc_ok : let s := lzState [0x41] 125 3
    s.natX 1 + s.natX 2 ≤ s.cfg.memSize ∧ s.natX 3 + s.natX 4 ≤ s.cfg.memSize ∧ 0x20 + 1 ≤ s.natX 3 ∧
      lzEncode (lzSource s) (s.natX 4) = .ok [0x80, 0x41, 0x00] := by decide
theorem witness_LzEnc_small : let s := lzState [0x41] 126 2
    s.natX 1 + s.natX 2 ≤ s.cfg.memSize ∧ s.natX 3 + s.natX 4 ≤ s.cfg.memSize ∧ 0x20 + 1 ≤ s.natX 3 ∧
      lzEncode (lzSource s) (s.natX 4) = .small [0x80, 0x41] := by decide

/-- R354's loop: at the end of the input with a capacity below, at and above the output with its run. -/
theorem witness_LzEncCompresses_end :
    lzEncodeLoop #[0x41] 1 0 1 [0x41] [] = .small [] ∧ lzEncodeLoop #[0x41] 2 0 1 [0x41] [] = .small [0x80, 0x41] ∧
    lzEncodeLoop #[0x41] 3 0 1 [0x41] [] = .ok [0x80, 0x41, 0x00] := by decide
/-- Where a match of length 4 is taken: the run, the match's token, or neither does not fit. -/
theorem witness_LzEncCompresses_match : lzLongestMatch (Array.replicate 5 0x41) 1 = (4, 1) ∧
    lzEncodeLoop (Array.replicate 5 0x41) 1 4 1 [0x41] [] = .small [] ∧
    lzEncodeLoop (Array.replicate 5 0x41) 3 4 1 [0x41] [] = .small [0x80, 0x41] ∧
    lzEncodeLoop (Array.replicate 5 0x41) 5 4 1 [0x41] [] = .ok [0x80, 0x41, 0x10, 0x01, 0x00] := by decide
/-- Where the byte joins the run: no match, and a match of length 3 with an offset below 256; the run then has 62 bytes,
or 63 that fit or do not. -/
theorem witness_LzEncCompresses_literal : lzLongestMatch #[0x41] 0 = (0, 0) ∧
    lzLongestMatch (Array.replicate 4 0x41) 1 = (3, 1) ∧
    lzEncodeLoop #[0x41] 64 1 0 (List.replicate 61 0x42) [] = .ok (0xBD :: List.replicate 61 0x42 ++ [0x41, 0x00]) ∧
    lzEncodeLoop #[0x41] 63 1 0 (List.replicate 62 0x42) [] = .small [] ∧
    lzEncodeLoop #[0x41] 65 1 0 (List.replicate 62 0x42) [] = .ok (0xBE :: List.replicate 62 0x42 ++ [0x41, 0x00]) := by
  decide +kernel

/-- The token forms at the ends of their ranges: end marker, literals, back-references bad and good. -/
theorem witness_LzTokens :
    lzToken 9 0x00 [] [1] = .stop (.ok [1]) ∧
    lzToken 2 0x80 [7] [1] = .go [] [1, 7] ∧ lzToken 65 0xBF (List.replicate 64 7) [1] = .go [] (1 :: List.replicate 64 7) ∧
    lzToken 1 0xC0 [0x00, 7] [] = .go [] [7] ∧
    lzToken 9 0x01 [0x00] [1] = .stop (.invalid [1]) ∧ lzToken 9 0x10 [0x00] [1] = .stop (.invalid [1]) ∧
    lzToken 9 0x10 [0x02] [1] = .stop (.invalid [1]) ∧ lzToken 5 0x10 [0x01] [1] = .go [] [1, 1, 1, 1, 1] ∧
    lzToken 12 0x70 [0x02] [1, 2] = .go [] [1, 2, 1, 2, 1, 2, 1, 2, 1, 2, 1, 2] := by decide +kernel
/-- Every error of R344, at the ends of the command ranges. -/
theorem witness_LzTokenErrors :
    lzToken 9 0x01 [] [1] = .stop (.invalid [1]) ∧ lzToken 9 0x7F [] [1] = .stop (.invalid [1]) ∧
    lzToken 9 0xC0 [] [1] = .stop (.invalid [1]) ∧ lzToken 9 0x80 [] [1] = .stop (.invalid [1]) ∧
    lzToken 9 0xC0 [0x00] [1] = .stop (.invalid [1]) ∧ lzToken 1 0x80 [7] [1] = .stop (.small [1]) ∧
    lzToken 2 0xC0 [0x01, 7, 8] [1] = .stop (.small [1, 7]) ∧ lzToken 3 0x10 [0x01] [1] = .stop (.small [1, 1, 1]) ∧
    lzToken 1 0x01 [0x02] [1] = .stop (.invalid [1]) := by decide +kernel
theorem witness_LzDecoderStops : lzDecode [0x80, 0x41] 1 = .ok [0x41] ∧
    lzDecode [0x80, 0x41, 0x00, 0x80, 0x42] 1 = .ok [0x41] ∧
    lzToken 1 0x80 [0x41] [] = .go [] [0x41] ∧ lzToken 1 0x80 [] [] = .stop (.invalid []) := by decide
theorem witness_LzDecoderOutputIsBounded : lzDecode [0x80, 0x41, 0x00] 1 = .ok [0x41] ∧
    lzDecode [0x80, 0x41, 0x70] 1 = .invalid [0x41] ∧ lzDecode [0x80, 0x41] 0 = .small [] := by decide
theorem witness_LzEncoderFitsTheBound : [0x41#8].length + ([0x41#8].length + 62) / 63 + 1 ≤ 3 := by decide
theorem witness_LzRoundTrips : (List.replicate 63 (0x41 : Byte)).length < 2 ^ 32 := by decide

theorem witness_HashIsRotateAndAdd : ([1, 2, 3, 4] : List Byte).length % 4 = 0 ∧ 1 ≤ ([5] : List Byte).length ∧
    ([5, 6, 7, 8] : List Byte).length ≤ 4 := by decide
theorem witness_StreamingHash : ∀ p ∈ [((1 : XReg), (2 : XReg)), (1, 3)],
    (atEnd 120 8).natX p.1 + (atEnd 120 8).natX p.2 ≤ (atEnd 120 8).cfg.memSize := by decide +kernel
theorem witness_HashIgnoresAsciiCase : List.Forall₂ sameButCase [0x41, 0x7A, 0x40] [0x61, 0x5A, 0x40] :=
  .cons (.inr (.inl (by decide))) (.cons (.inr (.inr (by decide))) (.cons (.inl rfl) .nil))
theorem witness_ModExpIsThePower : 0 < (1 : Nat) ∧ modExp 5 0 1 = 0 := by decide
theorem witness_BigIntegerLaws_cmp : ∃ t, exec (.bnCmp 1 2 3) (bigs 0 5 5) = .next t ∧ (t.getX 1 = 1 ∨ t.getX 1 = 0) :=
  ⟨_, rfl, .inr (by decide)⟩
theorem witness_BigIntegerLaws_shl : 2 * (bigs (2 ^ 639 - 1) 0 0).getB 1 <
    2 ^ (32 * (bigs (2 ^ 639 - 1) 0 0).cfg.bnLimbs) := by decide +kernel
theorem witness_DecryptionUndoesEncryption : let s := withX [(3, 72), (4, 56)] (keyedAt 112 16)
    s.keyed = true ∧ 1 ≤ s.natX 4 ∧ s.natX 4 ≤ 56 ∧ s.natX 3 + s.natX 4 ≤ s.cfg.memSize ∧ s.natX 2 % 8 = 0 ∧
      s.natX 1 + s.natX 2 ≤ s.cfg.memSize := by decide

/-- `LZ.DEC X5, X1, X2, X3, X4` at 0 over a stream that is invalid after one byte. -/
def badStream : State := (lzState [0x80, 0x41, 0x10, 0x02, 0x00] 0x40 16).memWrite 0 (leBytes 0x4321540 8)

theorem witness_FaultsArePrecise_codec : badStream.hostTurns = [] ∧ running badStream ∧
    after (step badStream) (fun t => (record t, t.byteAt 0x40)) = some ((true, 11, 0, 1), 0x41) ∧
    firstFault badStream = some ⟨true, 11, 1⟩ := ⟨rfl, ⟨rfl, rfl, rfl⟩, by decide, by decide⟩
theorem witness_FaultsArePrecise_other : base.hostTurns = [] ∧ running base ∧
    after (step base) record = some (true, 3, 0, 0) ∧ firstFault base = some ⟨true, 3, 0⟩ :=
  ⟨rfl, ⟨rfl, rfl, rfl⟩, by decide, by decide⟩
theorem witness_StepEndsInOneWay : (holding 0x01).hostTurns = [] ∧ running (holding 0x01) ∧
    (holding 0x01).fetchInstr = .ok .halt := ⟨rfl, ⟨rfl, rfl, rfl⟩, by decide⟩
theorem witness_CommandsWriteOnlyTheirOwnState : exec (.hFinal 3) base = .next (base.setX 3 0).advance ∧
    storeRange base (.hFinal 3) = none := ⟨rfl, rfl⟩
theorem witness_CommandsWriteOnlyTheirOwnState_store :
    exec (.stw 1 2 4) base = .next (base.memWrite 4 [0, 0, 0, 0]).advance ∧
    storeRange base (.stw 1 2 4) = some (4, 4) := ⟨rfl, rfl⟩

/-- The block idle after a fault, with one host action to come. -/
def faultedWith (action : HostAction) : State :=
  { base with busy := false, faulted := true, faultCode := 3, hostTurns := [.act action] }

theorem witness_CtrlWrites : (faultedWith (.writeReg 4 4 0x103)).hostTurns = .act (.writeReg 4 4 0x103) :: [] ∧
    (0x103 : Word).getLsbD 2 = false ∧
    (faultedWith (.readReg 4 4)).hostTurns = .act (.readReg 4 4) :: [] := by decide
theorem witness_SoftReset : (faultedWith (.writeReg 4 4 0x107)).hostTurns = .act (.writeReg 4 4 0x107) :: [] ∧
    (0x107 : Word).getLsbD 2 = true := by decide
theorem witness_HostResumesAfterAFault_ack : endedFaulted (faultedWith (.writeReg 4 4 3)) ∧ (3 : Word).getLsbD 2 = false ∧
    (3 : Word).getLsbD 0 = true ∧ (3 : Word).getLsbD 1 = true := ⟨⟨rfl, rfl, rfl⟩, by decide⟩
theorem witness_HostResumesAfterAFault_start : endedFaulted (faultedWith (.writeReg 4 4 1)) ∧ (1 : Word).getLsbD 2 = false ∧
    (1 : Word).getLsbD 0 = true ∧ (1 : Word).getLsbD 1 = false := ⟨⟨rfl, rfl, rfl⟩, by decide⟩

/-- The offsets of HostRegisterBlock, at the ends of their ranges, are all 4-aligned and none is
CTRL's; the next two theorems meet its other hypotheses. -/
theorem witness_HostRegisterBlock_offsets : ∀ off ∈ [(0x000 : Word), 0x008, 0x00C, 0x010, 0x014, 0x018, 0x01C, 0x020, 0x024,
    0x03C, 0x040, 0x07C, 0x080, 0xFFFFFFFC], off.toNat % 4 = 0 ∧ off.toNat ≠ 4 := by simp
theorem witness_HostRegisterBlock_turns (off w : Word) :
    (faultedWith (.readReg off 4)).hostTurns = .act (.readReg off 4) :: [] ∧
    (faultedWith (.writeReg off 4 w)).hostTurns = .act (.writeReg off 4 w) :: [] := ⟨rfl, rfl⟩
theorem witness_HostRegisterBlock_clauses : base.busy = true ∧ (faultedWith (.readReg 0x07C 4)).busy = false ∧
    (0x07C : Word).toNat = 0x040 + 4 * (15 : XReg).val ∧ (faultedWith (.readReg 8 4)).hpend.length ≤ 3 ∧
    (faultedWith (.readReg 0x020 4)).cfg.bnLimbs < 2 ^ 32 := by decide
theorem witness_HostMemoryPort :
    (faultedWith (.readMem 127 2)).hostTurns = .act (.readMem 127 2) :: [] ∧
    (faultedWith (.writeMem 127 [1, 2])).hostTurns = .act (.writeMem 127 [1, 2]) :: [] := by decide
theorem witness_OnlyMalformedHostAccesses :
    step (faultedWith (.readReg 8 2)) = .refused (.hostAccessOutsideProtocol 8 2) ∧
    step (faultedWith (.writeReg 9 4 0)) = .refused (.hostAccessOutsideProtocol 9 4) := ⟨rfl, rfl⟩

/-- `base` has the invariant, and its next step is a fault. -/
theorem witness_EveryStepKeepsTheInvariant : base.Inv ∧ step base = .next (base.faultEntry .illegal 0) where
  left :=
    { config := by decide
      capacity := fun r => by
        have h : base.getB r = 0 := by revert r; decide
        rw [h]
        exact Nat.two_pow_pos _
      pendLength := by decide
      pendFolded := by decide
      notBusyDone := by decide
      notBusyFaulted := by decide
      notDoneFaulted := by decide
      recorded := by decide
      unrecorded := by decide
      canonical := by decide
      inMemory := by decide }
  right := by rfl

end Sys2Proof.Tests
end

section
/-! SUPPORT. The host's turn on the register block (10_state.md R50 to R66): what each port operation does to the state,
said once, and then the statements about it. -/

namespace Sys2Proof.Machine

/-! The host's turn (70_reset_and_hazards.md R470). -/

/-- The state on which the host acts: its turn is taken and `rest` are the turns to come. -/
def State.takeTurn (s : State) (rest : List HostTurn) : State := { s with hostTurns := rest }

theorem step_of_hostTurn {s : State} {action : HostAction} {rest : List HostTurn}
    (hturn : s.hostTurns = .act action :: rest) : step s = hostAct action (s.takeTurn rest) := by
  simp only [step, turnStep, hturn, State.takeTurn]

theorem portAccessOk_of_aligned {off : Word} (haligned : off.toNat % 4 = 0) : portAccessOk off 4 = true := by
  simp [portAccessOk, haligned]

theorem step_writeReg {s : State} {off w : Word} {rest : List HostTurn}
    (hturn : s.hostTurns = .act (.writeReg off 4 w) :: rest) (haligned : off.toNat % 4 = 0) :
    step s = .next ((s.takeTurn rest).hostWriteReg (hostRegAt off) w) := by
  rw [step_of_hostTurn hturn, hostAct, if_pos (portAccessOk_of_aligned haligned)]

/-! The register map (R51). -/

/-- Above the last named register stand only the X registers and reserved offsets. -/
theorem hostRegAt_of_gt {off : Word} (h : 0x020 < off.toNat) :
    hostRegAt off = if 0x040 ≤ off.toNat ∧ off.toNat < 0x080 then .x (Fin.ofNat 16 ((off.toNat - 0x040) / 4))
      else .reserved := by
  unfold hostRegAt
  split
  case h_10 => rfl
  all_goals omega

theorem hostRegAt_of_x {off : Word} {r : XReg} (h : off.toNat = 0x040 + 4 * r.val) : hostRegAt off = .x r := by
  have hr := r.isLt
  have hindex : (off.toNat - 0x040) / 4 % 16 = r.val := by omega
  rw [hostRegAt_of_gt (by omega), if_pos (by omega)]
  exact congrArg HostReg.x (Fin.ext hindex)

theorem hostRegAt_of_reserved {off : Word}
    (h : (0x024 ≤ off.toNat ∧ off.toNat ≤ 0x03C) ∨ 0x080 ≤ off.toNat) : hostRegAt off = .reserved := by
  rw [hostRegAt_of_gt (by omega), if_neg (by omega)]

theorem hostRegAt_of_cp {off : Word} (h : off.toNat = 0x00C) : hostRegAt off = .cp := by
  simp only [hostRegAt, h]

/-- The busy rule guards CP and the X registers (R51's last column). -/
theorem busyRule_hostRegAt_iff (off : Word) :
    (hostRegAt off).busyRule = true ↔ off.toNat = 0x00C ∨ (0x040 ≤ off.toNat ∧ off.toNat < 0x080) := by
  unfold hostRegAt
  split
  case h_10 =>
    split
    next h => exact iff_of_true rfl (.inr h)
    next h => exact iff_of_false Bool.false_ne_true (not_or.mpr ⟨‹off.toNat = 0x00C → False›, h⟩)
  all_goals simp [HostReg.busyRule, *]

theorem busyRule_hostRegAt_eq_false {off : Word}
    (h : ¬(off.toNat = 0x00C ∨ (0x040 ≤ off.toNat ∧ off.toNat < 0x080))) : (hostRegAt off).busyRule = false :=
  Bool.eq_false_iff.mpr (mt (busyRule_hostRegAt_iff off).mp h)

theorem hostRegAt_ne_ctrl {off : Word} (h : off.toNat ≠ 0x004) : hostRegAt off ≠ .ctrl := by
  unfold hostRegAt
  split
  case h_2 h' => exact absurd h' h
  case h_10 => split <;> simp
  all_goals simp

/-! Host reads (R51, R60 to R64). -/

/-- The busy rule refuses a host read of `reg` (R63). -/
def State.readRefused (s : State) (reg : HostReg) : Bool := s.busy && reg.busyRule

/-- What a host read of `reg` returns, refused or not. -/
def State.readValue (s : State) (reg : HostReg) : Word := if s.readRefused reg then 0 else s.hostRegValue reg

theorem State.hostReadReg_eq (s : State) (reg : HostReg) :
    s.hostReadReg reg = (s.readValue reg, { s with hostErr := s.hostErr || s.readRefused reg }) := by
  unfold State.hostReadReg State.readValue State.readRefused
  cases s.busy && reg.busyRule <;> simp

/-- The turns to come are no part of what a register shows. -/
theorem State.readValue_takeTurn (s : State) (rest : List HostTurn) (reg : HostReg) :
    (s.takeTurn rest).readValue reg = s.readValue reg := by
  cases reg <;> rfl

/-- A host read of a register as one update of the whole state. -/
theorem step_readReg {s : State} {off : Word} {rest : List HostTurn}
    (hturn : s.hostTurns = .act (.readReg off 4) :: rest) (haligned : off.toNat % 4 = 0) :
    step s = .next { s with
      hostTurns := rest
      hostErr := s.hostErr || s.readRefused (hostRegAt off)
      hostReplies := s.hostReplies ++ [.reg (s.readValue (hostRegAt off))] } := by
  rw [step_of_hostTurn hturn, hostAct, if_pos (portAccessOk_of_aligned haligned), State.hostReadReg_eq,
    State.readValue_takeTurn]
  rfl

theorem State.readRefused_of_idle {s : State} (hidle : s.busy = false) (reg : HostReg) : s.readRefused reg = false := by
  rw [State.readRefused, hidle, Bool.false_and]

theorem State.readRefused_of_free {reg : HostReg} (hrule : reg.busyRule = false) (s : State) :
    s.readRefused reg = false := by
  rw [State.readRefused, hrule, Bool.and_false]

theorem State.readValue_of_free {reg : HostReg} (hrule : reg.busyRule = false) (s : State) :
    s.readValue reg = s.hostRegValue reg :=
  if_neg (Bool.eq_false_iff.mp (s.readRefused_of_free hrule))

theorem State.readValue_of_idle {s : State} (hidle : s.busy = false) (reg : HostReg) :
    s.readValue reg = s.hostRegValue reg :=
  if_neg (Bool.eq_false_iff.mp (State.readRefused_of_idle hidle reg))

theorem State.ctrlWord_eq (s : State) : s.ctrlWord = if s.irqEn then 0x100 else 0 := by
  unfold State.ctrlWord
  cases s.irqEn <;> rfl

/-! STATUS, bit by bit (R62). -/

theorem State.statusBits_le (s : State) :
    s.busy.toNat ≤ 1 ∧ s.done.toNat ≤ 1 ∧ s.faulted.toNat ≤ 1 ∧ s.hostErr.toNat ≤ 1 ∧ s.keyed.toNat ≤ 1 ∧
      s.irq.toNat ≤ 1 :=
  ⟨s.busy.toNat_le, s.done.toNat_le, s.faulted.toNat_le, s.hostErr.toNat_le, s.keyed.toNat_le, s.irq.toNat_le⟩

/-- The number that a read of STATUS returns: every bit in its place, HCNT in bits 5 and 6. -/
theorem State.statusWord_toNat (s : State) :
    s.statusWord.toNat = s.busy.toNat + 2 * s.done.toNat + 4 * s.faulted.toNat + 8 * s.hostErr.toNat
      + 16 * s.keyed.toNat + 32 * (s.hpend.length % 4) + 256 * s.irq.toNat := by
  have hbits := s.statusBits_le
  simp only [State.statusWord, word, BitVec.toNat_ofNat]
  omega

theorem getLsbD_of_div_mod {v : Word} {i : Nat} {b : Bool} (h : v.toNat / 2 ^ i % 2 = b.toNat) : v.getLsbD i = b := by
  rw [BitVec.getLsbD, Nat.testBit_eq_decide_div_mod_eq, h]
  cases b <;> rfl

theorem State.statusWord_bits (s : State) :
    s.statusWord.getLsbD 0 = s.busy ∧ s.statusWord.getLsbD 1 = s.done ∧ s.statusWord.getLsbD 2 = s.faulted ∧
      s.statusWord.getLsbD 3 = s.hostErr ∧ s.statusWord.getLsbD 4 = s.keyed ∧
      (s.hpend.length ≤ 3 → (s.statusWord.extractLsb' 5 2).toNat = s.hpend.length) ∧
      s.statusWord.getLsbD 7 = false ∧ s.statusWord.getLsbD 8 = s.irq ∧
      ∀ i, 9 ≤ i → s.statusWord.getLsbD i = false := by
  have hword := s.statusWord_toNat
  have hbits := s.statusBits_le
  refine ⟨getLsbD_of_div_mod ?_, getLsbD_of_div_mod ?_, getLsbD_of_div_mod ?_, getLsbD_of_div_mod ?_,
    getLsbD_of_div_mod ?_, fun hlen => ?hcnt, getLsbD_of_div_mod ?_, getLsbD_of_div_mod ?_, fun i hi => ?high⟩
  case hcnt =>
    rw [BitVec.extractLsb'_toNat, Nat.shiftRight_eq_div_pow]
    omega
  case high =>
    have hbound : 2 ^ 9 ≤ 2 ^ i := Nat.pow_le_pow_right (by decide) hi
    exact Nat.testBit_lt_two_pow (by omega)
  case refine_6 => rw [Bool.toNat_false]; omega
  all_goals omega

/-! Host writes (R51, R61, R63). -/

theorem State.hostWriteReg_of_refused (s : State) {reg : HostReg} (hbusy : s.busy = true) (hrule : reg.busyRule = true)
    (w : Word) : s.hostWriteReg reg w = { s with hostErr := true } := by
  simp [State.hostWriteReg, hbusy, hrule]

theorem State.hostWriteReg_cp (s : State) (hidle : s.busy = false) (w : Word) :
    s.hostWriteReg .cp w = { s with cp := w } := by
  simp [State.hostWriteReg, hidle]

theorem State.hostWriteReg_x (s : State) (hidle : s.busy = false) (r : XReg) (w : Word) :
    s.hostWriteReg (.x r) w = s.setX r w := by
  simp [State.hostWriteReg, hidle]

theorem State.hostWriteReg_ctrl (s : State) (w : Word) : s.hostWriteReg .ctrl w = s.writeCtrl w := by
  simp [State.hostWriteReg, HostReg.busyRule]

/-- A register other than CTRL that the busy rule does not guard is read-only (R51). -/
theorem State.hostWriteReg_of_readOnly {reg : HostReg} (hctrl : reg ≠ .ctrl) (hrule : reg.busyRule = false)
    (s : State) (w : Word) : s.hostWriteReg reg w = s := by
  cases reg with
  | ctrl => exact absurd rfl hctrl
  | cp | x => cases hrule
  | _ => simp [State.hostWriteReg, HostReg.busyRule]

/-- A host write to a register other than CTRL changes nothing but `host_err`, `cp` and the X registers. -/
theorem State.hostWriteReg_eq_update {reg : HostReg} (hctrl : reg ≠ .ctrl) (s : State) (w : Word) :
    ∃ err cp x, s.hostWriteReg reg w = { s with hostErr := err, cp := cp, x := x } := by
  cases hrule : reg.busyRule with
  | false => exact ⟨_, _, _, s.hostWriteReg_of_readOnly hctrl hrule w⟩
  | true =>
    rcases Bool.eq_false_or_eq_true s.busy with hbusy | hidle
    · exact ⟨_, _, _, s.hostWriteReg_of_refused hbusy hrule w⟩
    · cases reg with
      | cp => exact ⟨_, _, _, s.hostWriteReg_cp hidle w⟩
      | x r => exact ⟨_, _, _, s.hostWriteReg_x hidle r w⟩
      | _ => cases hrule

theorem State.hostWriteReg_frame {reg : HostReg} (hctrl : reg ≠ .ctrl) (s : State) (w : Word) :
    let t := s.hostWriteReg reg w
    keepsHost s t ∧ t.busy = s.busy ∧ t.done = s.done ∧ t.faulted = s.faulted ∧ keepsRecord s t ∧ keepsB s t ∧
      keepsMem s t ∧ keepsHash s t ∧ keepsCipher s t := by
  obtain ⟨err, cp, x, heq⟩ := s.hostWriteReg_eq_update hctrl w
  rw [heq]
  exact ⟨⟨rfl, rfl, rfl, rfl, rfl⟩, rfl, rfl, rfl, ⟨rfl, rfl, rfl⟩, fun _ => rfl, fun _ => rfl, ⟨rfl, rfl⟩, ⟨rfl, rfl⟩⟩

/-! CTRL (R61): ACK, then START, then the whole write. -/

/-- ACK where its bit is set. -/
def State.ackIf (s : State) (ack : Bool) : State := if ack then s.acknowledge else s

/-- START where its bit is set. -/
def State.startIf (s : State) (start : Bool) : State := if start then s.start else s

/-- START is accepted, where its bit is set, exactly while the block is neither busy nor faulted. -/
def State.acceptsStart (s : State) (start : Bool) : Bool := start && !s.busy && !s.faulted

theorem State.ackIf_eq (s : State) (ack : Bool) :
    s.ackIf ack =
      { s with
        done := !ack && s.done
        faulted := !ack && s.faulted
        hostErr := !ack && s.hostErr
        faultCode := if ack then 0 else s.faultCode
        faultCp := if ack then 0 else s.faultCp
        faultInfo := if ack then 0 else s.faultInfo } := by
  cases ack <;> rfl

theorem State.start_of_refused {s : State} (h : (s.busy || s.faulted) = true) : s.start = { s with hostErr := true } :=
  if_pos h

theorem State.start_of_accepted {s : State} (h : (s.busy || s.faulted) = false) :
    s.start = { s with done := false, busy := true } :=
  if_neg (Bool.eq_false_iff.mp h)

/-- An accepted START runs the sequencer; a refused one sets `host_err`. -/
theorem State.startIf_eq (s : State) (start : Bool) :
    s.startIf start =
      { s with
        done := s.done && !s.acceptsStart start
        busy := s.busy || s.acceptsStart start
        hostErr := s.hostErr || (start && !s.acceptsStart start) } := by
  unfold State.startIf
  cases start with
  | false => simp [State.acceptsStart]
  | true =>
    cases hstop : s.busy || s.faulted with
    | false =>
      obtain ⟨hbusy, hfaulted⟩ := Bool.or_eq_false_iff.mp hstop
      simp [State.acceptsStart, State.start_of_accepted hstop, hbusy, hfaulted]
    | true =>
      have hrefused : s.acceptsStart true = false := by
        rw [State.acceptsStart, Bool.true_and, ← Bool.not_or, hstop, Bool.not_true]
      simp [State.start_of_refused hstop, hrefused]

theorem State.writeCtrl_of_noReset {w : Word} (hreset : w.getLsbD 2 = false) (s : State) :
    s.writeCtrl w = (({ s with irqEn := w.getLsbD 8 } : State).ackIf (w.getLsbD 1)).startIf (w.getLsbD 0) :=
  if_neg (Bool.eq_false_iff.mp hreset)

theorem State.writeCtrl_of_reset {w : Word} (hreset : w.getLsbD 2 = true) (s : State) : s.writeCtrl w = s.softReset :=
  if_pos hreset

theorem step_writeCtrl {s : State} {w : Word} {rest : List HostTurn}
    (hturn : s.hostTurns = .act (.writeReg 4 4 w) :: rest) :
    step s = .next ((s.takeTurn rest).writeCtrl w) := by
  have hreg : hostRegAt 4 = .ctrl := rfl
  rw [step_writeReg hturn rfl, hreg, State.hostWriteReg_ctrl]

/-! Reset (R66; 70_reset_and_hazards.md R450, R452). -/

@[simp] theorem State.powerOn_getX (cfg : Config) (mem : Memory) (tables : CipherTables) (r : XReg) :
    (State.powerOn cfg mem tables).getX r = 0 := by
  simp [State.powerOn, State.getX]

@[simp] theorem State.powerOn_getB (cfg : Config) (mem : Memory) (tables : CipherTables) (r : BReg) :
    (State.powerOn cfg mem tables).getB r = 0 := by
  simp [State.powerOn, State.getB]

theorem softlyReset_softReset (s : State) : softlyReset s s.softReset :=
  ⟨rfl, rfl, rfl, rfl, State.powerOn_getX s.cfg s.mem s.softReset.tables,
    State.powerOn_getB s.cfg s.mem s.softReset.tables, rfl, rfl, rfl, rfl, rfl, rfl, rfl, rfl,
    fun _ => rfl, rfl⟩

/-! The statements. -/

/-- Settles O58: power-on reset is a literal state; the registers are read through their accessors. -/
theorem powerOnResetState : Obligations.PowerOnResetState :=
  ⟨fun cfg mem tables => ⟨State.powerOn_getX cfg mem tables, State.powerOn_getB cfg mem tables, rfl,
    ⟨rfl, rfl, rfl, rfl⟩, rfl, rfl, rfl, rfl, rfl, rfl, rfl, rfl, rfl⟩, [], CipherTables.zero, rfl⟩

/-- Settles O52: the write is ACK's update followed by START's, each in closed form. -/
theorem ctrlWritesAckThenStart : Obligations.CtrlWritesAckThenStart := by
  intro s w rest
  refine ⟨fun hturn hreset => ?noReset, fun hturn hreset => ?reset, fun hturn => ?read⟩
  case noReset =>
    have hstep := step_writeCtrl hturn
    rw [State.writeCtrl_of_noReset hreset, State.ackIf_eq, State.startIf_eq] at hstep
    exact ⟨_, hstep, rfl, rfl, rfl, rfl, rfl, rfl, rfl, rfl, rfl, fun _ => rfl, fun _ => rfl, fun _ => rfl,
      ⟨rfl, rfl⟩, ⟨rfl, rfl⟩, rfl, rfl, rfl, rfl⟩
  case reset =>
    refine ⟨_, step_writeCtrl hturn, ?_⟩
    rw [State.writeCtrl_of_reset hreset]
    exact softlyReset_softReset _
  case read =>
    have hvalue : s.readValue (hostRegAt 4) = if s.irqEn then 0x100 else 0 :=
      (s.readValue_of_free rfl).trans s.ctrlWord_eq
    exact ⟨_, step_readReg hturn rfl, hvalue ▸ rfl⟩

/-- Settles O54: a read is one update whose value the register map gives, a write one of the four cases of the busy rule
and the map. -/
theorem hostRegisterBlock : Obligations.HostRegisterBlock := by
  refine ⟨fun s off rest hturn haligned => ?read, fun s off w rest hturn haligned hctrl => ?write⟩
  case read =>
    have hfree {reg : HostReg} (hreg : hostRegAt off = reg) (h : reg.busyRule = false) :
        s.readValue (hostRegAt off) = s.hostRegValue reg := by
      rw [hreg, s.readValue_of_free h]
    have hidle {reg : HostReg} (hreg : hostRegAt off = reg) (h : s.busy = false) :
        s.readValue (hostRegAt off) = s.hostRegValue reg := by
      rw [hreg, State.readValue_of_idle h]
    refine ⟨_, s.readValue (hostRegAt off), step_readReg hturn haligned, rfl, rfl, rfl, rfl, rfl, rfl, rfl, rfl,
      ⟨rfl, rfl, rfl⟩, fun _ => rfl, fun _ => rfl, fun _ => rfl, ⟨rfl, rfl⟩, ⟨rfl, rfl⟩, ?refused, ?accepted,
      fun h => hfree (reg := .version) (by simp only [hostRegAt, h]) rfl, ?status,
      fun h => hidle (hostRegAt_of_cp h),
      fun h => hfree (reg := .faultCode) (by simp only [hostRegAt, h]) rfl,
      fun h => hfree (reg := .faultCp) (by simp only [hostRegAt, h]) rfl,
      fun h => hfree (reg := .faultInfo) (by simp only [hostRegAt, h]) rfl,
      fun h => hfree (reg := .memSize) (by simp only [hostRegAt, h]) rfl, ?bnLimbs,
      fun r h => hidle (hostRegAt_of_x h),
      fun h => hfree (hostRegAt_of_reserved h) rfl⟩
    case refused =>
      intro hguarded hbusy
      have hrefused : s.readRefused (hostRegAt off) = true := by
        rw [State.readRefused, hbusy, (busyRule_hostRegAt_iff off).mpr hguarded, Bool.and_true]
      exact ⟨if_pos hrefused, by simp [hrefused]⟩
    case accepted =>
      intro hfreeOrIdle
      have hrefused : s.readRefused (hostRegAt off) = false := by
        rcases hfreeOrIdle with hunguarded | hbusy
        · exact s.readRefused_of_free (busyRule_hostRegAt_eq_false hunguarded)
        · exact State.readRefused_of_idle hbusy _
      simp [hrefused]
    case status =>
      intro h
      rw [hfree (reg := .status) (by simp only [hostRegAt, h]) rfl]
      exact s.statusWord_bits
    case bnLimbs =>
      intro h hlt
      rw [hfree (reg := .bnLimbs) (by simp only [hostRegAt, h]) rfl]
      exact (congrArg BitVec.toNat (State.bnLimbsWord_of_lt hlt)).trans (Nat.mod_eq_of_lt hlt)
  case write =>
    have hreg := hostRegAt_ne_ctrl hctrl
    obtain ⟨⟨hirq, hcfg, hturns, hreplies, -⟩, hbusy, hdone, hfaulted, hrecord, hb, hmem, hhash, hcipher⟩ :=
      (s.takeTurn rest).hostWriteReg_frame hreg w
    refine ⟨_, step_writeReg hturn haligned, hreplies, hturns, hbusy, hdone, hfaulted, hirq, hcfg, hrecord, hb, hmem,
      hhash, hcipher, ?refused, ?cp, ?x, ?readOnly⟩
    case refused =>
      intro hguarded hbusy
      rw [(s.takeTurn rest).hostWriteReg_of_refused hbusy ((busyRule_hostRegAt_iff off).mpr hguarded)]
      exact ⟨rfl, rfl, fun _ => rfl⟩
    case cp =>
      intro h hidle
      rw [hostRegAt_of_cp h, (s.takeTurn rest).hostWriteReg_cp hidle]
      exact ⟨rfl, rfl, fun _ => rfl⟩
    case x =>
      intro r h hidle
      rw [hostRegAt_of_x h, (s.takeTurn rest).hostWriteReg_x hidle]
      exact ⟨rfl, rfl, fun q => State.getX_setX (s.takeTurn rest) r q w⟩
    case readOnly =>
      intro hunguarded
      rw [State.hostWriteReg_of_readOnly hreg (busyRule_hostRegAt_eq_false hunguarded)]
      exact ⟨rfl, rfl, fun _ => rfl⟩

end Sys2Proof.Machine
end

section
/-! SUPPORT. The host's memory port (20_memory.md R90, R91): a read and a write each as one update of the whole state,
for idle and busy alike, and then the statement about them. -/

namespace Sys2Proof.Machine

/-- An access of `n` bytes at `addr` sets `host_err`: the block is busy, or the bytes run past the end of memory. -/
def State.memPortErr (s : State) (addr n : Nat) : Bool := s.busy || !s.inRange addr n

/-- The bytes a host read of memory returns. -/
def State.memPortReply (s : State) (addr n : Nat) : List Byte :=
  (List.range n).map fun k => if s.busy then 0 else s.portByte (addr + k)

/-- The bytes of a host write that are not dropped. -/
def State.memPortAccepted (s : State) (addr : Nat) (bs : List Byte) : List Byte :=
  if s.busy then [] else bs.take (s.cfg.memSize - addr)

theorem State.memPortErr_eq (s : State) (addr n : Nat) :
    s.memPortErr addr n = (s.busy || decide (s.cfg.memSize < addr + n)) := by
  rw [State.memPortErr, State.inRange, ← decide_not, decide_eq_decide.mpr Nat.not_le]

theorem State.memPortErr_of_busy {s : State} (hbusy : s.busy = true) (addr n : Nat) : s.memPortErr addr n = true := by
  rw [State.memPortErr, hbusy, Bool.true_or]

theorem State.memPortErr_of_idle {s : State} (hidle : s.busy = false) (addr n : Nat) :
    s.memPortErr addr n = !s.inRange addr n := by
  rw [State.memPortErr, hidle, Bool.false_or]

/-! Host reads. -/

theorem State.hostReadMem_eq (s : State) (addr n : Nat) :
    s.hostReadMem addr n = (s.memPortReply addr n, { s with hostErr := s.hostErr || s.memPortErr addr n }) := by
  rcases Bool.eq_false_or_eq_true s.busy with hbusy | hidle
  · have hzeros : s.memPortReply addr n = List.replicate n 0 := by simp [State.memPortReply, hbusy]
    rw [State.hostReadMem, if_pos hbusy, hzeros, State.memPortErr_of_busy hbusy, Bool.or_true]
  · have hbytes : s.memPortReply addr n = (List.range n).map fun k => s.portByte (addr + k) := by
      simp [State.memPortReply, hidle]
    rw [State.hostReadMem, if_neg (Bool.eq_false_iff.mp hidle), hbytes, State.memPortErr_of_idle hidle]
    cases s.inRange addr n <;> simp

@[simp] theorem State.length_memPortReply (s : State) (addr n : Nat) : (s.memPortReply addr n).length = n := by
  simp [State.memPortReply]

theorem State.getD_memPortReply (s : State) (addr : Nat) {n k : Nat} (h : k < n) :
    (s.memPortReply addr n).getD k 0 =
      if s.busy = true ∨ s.cfg.memSize ≤ addr + k then 0 else s.byteAt (addr + k) := by
  have hreply : (s.memPortReply addr n).getD k 0 = if s.busy then 0 else s.portByte (addr + k) := by
    simp [State.memPortReply, h]
  rw [hreply]
  cases s.busy with
  | true => simp
  | false =>
    rcases Nat.lt_or_ge (addr + k) s.cfg.memSize with hin | hpast
    · simp [State.portByte, hin, Nat.not_le.mpr hin]
    · simp [State.portByte, hpast, Nat.not_lt.mpr hpast]

/-- A host read of memory as one update of the whole state: `host_err`, and the bytes in a reply. -/
theorem step_readMem {s : State} {addr : Word} {n : Nat} {rest : List HostTurn}
    (hturn : s.hostTurns = .act (.readMem addr n) :: rest) :
    step s = .next { s with
      hostTurns := rest
      hostErr := s.hostErr || s.memPortErr addr.toNat n
      hostReplies := s.hostReplies ++ [.mem (s.memPortReply addr.toNat n)] } := by
  rw [step_of_hostTurn hturn, hostAct, State.hostReadMem_eq]
  rfl

/-! Host writes. -/

/-- An access inside memory drops no byte, so one `memWrite` of the accepted bytes says all three branches. -/
theorem State.hostWriteMem_eq (s : State) (addr : Nat) (bs : List Byte) :
    s.hostWriteMem addr bs =
      { s.memWrite addr (s.memPortAccepted addr bs) with hostErr := s.hostErr || s.memPortErr addr bs.length } := by
  rcases Bool.eq_false_or_eq_true s.busy with hbusy | hidle
  · have hnone : s.memPortAccepted addr bs = [] := if_pos hbusy
    rw [State.hostWriteMem, if_pos hbusy, hnone, State.memPortErr_of_busy hbusy, Bool.or_true]
    rfl
  · have hkept : s.memPortAccepted addr bs = bs.take (s.cfg.memSize - addr) := if_neg (Bool.eq_false_iff.mp hidle)
    rw [State.hostWriteMem, if_neg (Bool.eq_false_iff.mp hidle), hkept, State.memPortErr_of_idle hidle]
    cases hin : s.inRange addr bs.length with
    | false => simp
    | true =>
      have hfit := (s.inRange_iff addr bs.length).mp hin
      have hall : bs.take (s.cfg.memSize - addr) = bs := List.take_of_length_le (by omega)
      rw [if_pos rfl, hall, Bool.not_true, Bool.or_false]
      rfl

/-- A byte takes a value from the host where the block is idle and the address is in the access and in memory. -/
theorem State.byteAt_memWrite_memPortAccepted (s : State) (addr : Nat) (bs : List Byte) (n : Nat) :
    (s.memWrite addr (s.memPortAccepted addr bs)).byteAt n =
      if s.busy = false ∧ addr ≤ n ∧ n < addr + bs.length ∧ n < s.cfg.memSize
        then bs.getD (n - addr) 0 else s.byteAt n := by
  rw [State.byteAt_memWrite, State.memPortAccepted]
  cases s.busy with
  | true => simp
  | false =>
    have hwindow : (addr ≤ n ∧ n < addr + (bs.take (s.cfg.memSize - addr)).length) ↔
        (addr ≤ n ∧ n < addr + bs.length ∧ n < s.cfg.memSize) := by
      rw [List.length_take]
      omega
    simp only [Bool.false_eq_true, if_false, true_and, hwindow]
    refine ite_congr rfl (fun hin => ?_) fun _ => rfl
    have hkept : n - addr < s.cfg.memSize - addr := by omega
    simp [List.getD_eq_getElem?_getD, hkept]

/-- A host write of memory as one update of the whole state: memory and `host_err`. -/
theorem step_writeMem {s : State} {addr : Word} {bs : List Byte} {rest : List HostTurn}
    (hturn : s.hostTurns = .act (.writeMem addr bs) :: rest) :
    step s = .next { s.memWrite addr.toNat (s.memPortAccepted addr.toNat bs) with
      hostTurns := rest
      hostErr := s.hostErr || s.memPortErr addr.toNat bs.length } := by
  rw [step_of_hostTurn hturn, hostAct, State.hostWriteMem_eq]
  rfl

/-- Settles O55: each access is one update of the state, so the frame is read off it; the bytes and `host_err` are those
of the port's own lemmas. -/
theorem hostMemoryPort : Obligations.HostMemoryPort := by
  intro s addr rest
  have herr (n : Nat) : (s.hostErr || s.memPortErr addr.toNat n) =
      (s.hostErr || s.busy || decide (s.cfg.memSize < addr.toNat + n)) := by
    rw [State.memPortErr_eq, Bool.or_assoc]
  refine ⟨fun n hturn => ?read, fun bs hturn => ?write⟩
  case read =>
    exact ⟨_, s.memPortReply addr.toNat n, step_readMem hturn, rfl, s.length_memPortReply addr.toNat n, fun _ => rfl,
      rfl, rfl, rfl, rfl, rfl, rfl, rfl, rfl, ⟨rfl, rfl, rfl⟩, fun _ => rfl, fun _ => rfl, ⟨rfl, rfl⟩, ⟨rfl, rfl⟩,
      fun _ => s.getD_memPortReply addr.toNat, herr n⟩
  case write =>
    exact ⟨_, step_writeMem hturn, rfl, rfl, rfl, rfl, rfl, rfl, rfl, rfl, rfl, ⟨rfl, rfl, rfl⟩, fun _ => rfl,
      fun _ => rfl, ⟨rfl, rfl⟩, ⟨rfl, rfl⟩, s.byteAt_memWrite_memPortAccepted addr.toNat bs, herr bs.length⟩

end Sys2Proof.Machine
end

section
/-! SUPPORT. Which words decode (30_encoding.md R114 to R118, R121): the fields of a word against its opcode's row of the
map, and the same said by the table's mask and match. -/

namespace Sys2Proof

open Sys2Proof.Machine

/-! The fields of a word (R111). -/

theorem cmdFields_op_toNat (w : CmdWord) : (cmdFields w).op.toNat = w.toNat % 256 := by
  simp [cmdFields]

theorem cmdFields_imm_toNat (w : CmdWord) : (cmdFields w).imm.toNat = w.toNat / 2 ^ 32 := by
  have hlt := w.isLt
  simp only [cmdFields, BitVec.extractLsb'_toNat, Nat.shiftRight_eq_div_pow]
  omega

theorem cmdFields_inj {v w : CmdWord} : cmdFields v = cmdFields w ↔ v = w :=
  ⟨fun h => by rw [← packCmd_cmdFields v, h, packCmd_cmdFields], congrArg cmdFields⟩

theorem cmdFields_and (v w : CmdWord) :
    cmdFields (v &&& w) =
      { op := (cmdFields v).op &&& (cmdFields w).op
        a := (cmdFields v).a &&& (cmdFields w).a
        b := (cmdFields v).b &&& (cmdFields w).b
        c := (cmdFields v).c &&& (cmdFields w).c
        d := (cmdFields v).d &&& (cmdFields w).d
        e := (cmdFields v).e &&& (cmdFields w).e
        z := (cmdFields v).z &&& (cmdFields w).z
        imm := (cmdFields v).imm &&& (cmdFields w).imm } := by
  simp only [cmdFields, BitVec.extractLsb'_and]

/-! Decoding (R121). -/

/-- The opcode values that R117 lists as illegal. -/
def reservedOpcode (op : Nat) : Prop :=
  op = 0x00 ∨ (0x09 ≤ op ∧ op ≤ 0x0F) ∨ (0x14 ≤ op ∧ op ≤ 0x1F) ∨ (0x2C ≤ op ∧ op ≤ 0x2F) ∨
    (0x33 ≤ op ∧ op ≤ 0x3F) ∨ 0x42 ≤ op

theorem opcodeMap_eq_none_of_reserved {op : Byte} (h : reservedOpcode op.toNat) : opcodeMap op = none := by
  unfold reservedOpcode at h
  unfold opcodeMap
  split
  case h_30 => rfl
  all_goals omega

/-- Fields that a row with the uses `u` admits (R114): `z` and every unused field are 0. -/
def FieldUse.admits (u : FieldUse) (f : CmdFields) : Prop :=
  f.z = 0 ∧ strayField u f = false ∧ (u.imm = false → f.imm = 0)

/-- The words that decode, and the command each decodes to. -/
theorem decodeWord_eq_ok_iff (w : CmdWord) (i : Instr) :
    decodeWord w = .ok i ↔
      ∃ row, opcodeMap (cmdFields w).op = some row ∧ row.uses.admits (cmdFields w) ∧
        ((cmdFields w).op = opBnLdk → (cmdFields w).imm = 0 ∨ (cmdFields w).imm = 1) ∧
        row.make (cmdFields w) = i := by
  unfold decodeWord FieldUse.admits
  cases hrow : opcodeMap (cmdFields w).op with
  | none => simp [hrow]
  | some row =>
    simp only [hrow, Option.some.injEq, exists_eq_left']
    split_ifs with hz hstray himm hsel
    · exact iff_of_false nofun fun ⟨⟨hz', _⟩, _⟩ => hz hz'
    · simp [hstray]
    · simp_all
    · exact iff_of_false nofun fun ⟨_, hldk, _⟩ => hsel.2 (hldk hsel.1)
    · have hldk : (cmdFields w).op = opBnLdk → (cmdFields w).imm = 0 ∨ (cmdFields w).imm = 1 :=
        fun hop => not_not.mp fun hbad => hsel ⟨hop, hbad⟩
      simp_all

/-! The same by the table's mask and match (R116). -/

/-- The word with `op` in its opcode field and 0 in every other: a row's match. -/
def opWord (op : Byte) : CmdWord := packCmd ⟨op, 0, 0, 0, 0, 0, 0, 0⟩

/-- Ones over `op`, `z` and every unused field: a row's mask. -/
def FieldUse.mask (u : FieldUse) : CmdWord :=
  packCmd
    { op := .allOnes 8
      a := if u.a then 0 else .allOnes 4
      b := if u.b then 0 else .allOnes 4
      c := if u.c then 0 else .allOnes 4
      d := if u.d then 0 else .allOnes 4
      e := if u.e then 0 else .allOnes 4
      z := .allOnes 4
      imm := if u.imm then 0 else .allOnes 32 }

/-- The table's rows are the opcode map's. -/
theorem matchMaskTable_eq_opcodeMap : ∀ row ∈ matchMaskTable,
    row.pattern = opWord (cmdFields row.pattern).op ∧
      (opcodeMap (cmdFields row.pattern).op).map (·.uses.mask) = some row.mask := by
  decide

theorem and_ite_zero_allOnes {n : Nat} (x : BitVec n) (used : Bool) :
    (x &&& if used then 0 else .allOnes n) = 0 ↔ (used = false → x = 0) := by
  cases used <;> simp

/-- Under its row's mask a word shows the row's match exactly where the row admits its fields. -/
theorem and_mask_eq_opWord_iff (w : CmdWord) (u : FieldUse) :
    w &&& u.mask = opWord (cmdFields w).op ↔ u.admits (cmdFields w) := by
  rw [← cmdFields_inj, cmdFields_and, opWord, FieldUse.mask, cmdFields_packCmd, cmdFields_packCmd]
  simp only [CmdFields.mk.injEq, and_ite_zero_allOnes, BitVec.and_allOnes, FieldUse.admits, strayField]
  simp only [Bool.or_eq_false_iff, Bool.and_eq_false_imp, Bool.not_eq_true', bne_eq_false_iff_eq, true_and]
  tauto

/-- A word with a bit that its opcode's row fixes at another value does not decode (R114). -/
theorem decodeWord_ne_ok_of_mask {w : CmdWord} {row : MatchMask} (hrow : row ∈ matchMaskTable)
    (hop : row.pattern.toNat = w.toNat % 256) (hbits : w &&& row.mask ≠ row.pattern) (i : Instr) :
    decodeWord w ≠ .ok i := by
  intro hok
  obtain ⟨r, hr, hadmits, -⟩ := (decodeWord_eq_ok_iff w i).mp hok
  obtain ⟨hpattern, hmask⟩ := matchMaskTable_eq_opcodeMap row hrow
  have hsame : (cmdFields row.pattern).op = (cmdFields w).op := by
    apply BitVec.eq_of_toNat_eq
    rw [cmdFields_op_toNat, cmdFields_op_toNat, hop, Nat.mod_mod]
  rw [hsame, hr, Option.map_some, Option.some.injEq] at hmask
  rw [hsame] at hpattern
  exact hbits (hpattern ▸ hmask ▸ (and_mask_eq_opWord_iff w r.uses).mpr hadmits)

/-- A word with a reserved opcode does not decode (R117). -/
theorem decodeWord_ne_ok_of_reserved {w : CmdWord} (hop : reservedOpcode (w.toNat % 256)) (i : Instr) :
    decodeWord w ≠ .ok i := by
  intro hok
  obtain ⟨r, hr, -⟩ := (decodeWord_eq_ok_iff w i).mp hok
  rw [opcodeMap_eq_none_of_reserved (by rwa [cmdFields_op_toNat])] at hr
  cases hr

/-- BN.LDK with a selector above 1 does not decode (R118). -/
theorem decodeWord_ne_ok_of_selector {w : CmdWord} (hop : w.toNat % 256 = 0x22) (hsel : 2 ≤ w.toNat / 2 ^ 32)
    (i : Instr) : decodeWord w ≠ .ok i := by
  intro hok
  obtain ⟨_, -, -, hldk, -⟩ := (decodeWord_eq_ok_iff w i).mp hok
  rw [← cmdFields_imm_toNat] at hsel
  rcases hldk (BitVec.eq_of_toNat_eq ((cmdFields_op_toNat w).trans hop)) with himm | himm <;>
    exact absurd hsel (by rw [himm]; decide)

end Sys2Proof

namespace Sys2Proof.Machine

/-! A word in memory, and the step that fetches it (40_sequencer.md R150, R151). -/

theorem State.memRead_eq_leBytes {s : State} {addr n v : Nat}
    (h : ∀ k, k < n → (s.byteAt (addr + k)).toNat = v / 256 ^ k % 256) : s.memRead addr n = leBytes v n := by
  apply List.ext_getElem (by simp [State.memRead])
  intro k hk hk'
  have hlt : k < n := by rwa [length_leBytes] at hk'
  rw [← List.getD_eq_getElem _ 0 hk, ← List.getD_eq_getElem _ 0 hk', State.memRead,
    Memory.getD_readBytes s.mem addr n k hlt, getD_leBytes v n k hlt]
  exact BitVec.eq_of_toNat_eq (h k hlt)

theorem State.wordOfBytes_memRead {s : State} {addr : Nat} {w : CmdWord}
    (h : ∀ k, k < 8 → (s.byteAt (addr + k)).toNat = w.toNat / 256 ^ k % 256) : wordOfBytes (s.memRead addr 8) = w := by
  rw [State.memRead_eq_leBytes h, ← List.append_nil (leBytes _ _), wordOfBytes_leBytes]

theorem step_of_fetchFault {s : State} {cause : FaultCause} {info : Word} (hturns : s.hostTurns = [])
    (hbusy : s.busy = true) (hfetch : s.fetchInstr = .error (cause, info)) :
    step s = .next (s.faultEntry cause info) := by
  simp only [step, turnStep, hturns, sequencerStep, hbusy, if_true, hfetch, raise_eq]

/-- The sequencer's turn on a busy machine whose fetched word does not decode is fault entry with ILLEGAL. -/
theorem step_of_undecodable {s : State} (hturns : s.hostTurns = []) (hbusy : s.busy = true)
    (haligned : s.cp.toNat % 8 = 0) (hrange : s.cp.toNat + 8 ≤ s.cfg.memSize)
    (hword : ∀ i, decodeWord (wordOfBytes (s.memRead s.cp.toNat 8)) ≠ .ok i) :
    step s = .next (s.faultEntry .illegal ((wordOfBytes (s.memRead s.cp.toNat 8)).setWidth 32)) := by
  have hfetch : s.fetchInstr = .error (.illegal, (wordOfBytes (s.memRead s.cp.toNat 8)).extractLsb' 0 32) := by
    rcases s.fetchInstr_cases with ⟨h, -⟩ | ⟨-, h, -⟩ | ⟨-, -, ⟨i, h, -⟩ | ⟨_, -, h⟩⟩
    · exact absurd haligned h
    · exact absurd hrange (Nat.not_le.mpr h)
    · exact absurd h (hword i)
    · exact h
  rw [BitVec.setWidth_eq_extractLsb' (by decide)]
  exact step_of_fetchFault hturns hbusy hfetch

/-- Settles O3: no word of the three kinds decodes, so its step is fault entry. -/
theorem illegalWordsFault : Obligations.IllegalWordsFault := by
  intro s w hturns hbusy haligned hrange hbytes hillegal
  have hkinds : reservedOpcode (w.toNat % 256) ∨
      (∃ row ∈ matchMaskTable, row.pattern.toNat = w.toNat % 256 ∧ w &&& row.mask ≠ row.pattern) ∨
      (w.toNat % 256 = 0x22 ∧ 2 ≤ w.toNat / 2 ^ 32) := by
    simpa only [reservedOpcode, or_assoc] using hillegal
  have hundecodable : ∀ i, decodeWord w ≠ .ok i := by
    rcases hkinds with hop | ⟨row, hrow, hop, hbits⟩ | ⟨hop, hsel⟩
    · exact decodeWord_ne_ok_of_reserved hop
    · exact decodeWord_ne_ok_of_mask hrow hop hbits
    · exact decodeWord_ne_ok_of_selector hop hsel
  rw [← State.wordOfBytes_memRead hbytes] at hundecodable ⊢
  exact ⟨_, step_of_undecodable hturns hbusy haligned hrange hundecodable, onlyFault_faultEntry s .illegal _⟩

end Sys2Proof.Machine
end

section
/-! SUPPORT. The sequencer commands (40_sequencer.md R152 to R159): the number of an encoded command, what memory loads
and stores of a word mean byte by byte, each command's meaning as one equation, and then the statements about them. -/

namespace Sys2Proof

open Sys2Proof.Machine

/-- Every encoded command has `z = 0`, so its other seven fields make its number (30_encoding.md R111, R114). -/
theorem encode_toNat (i : Instr) :
    (encode i).toNat = cmdNumber (instrFields i).op.toNat (instrFields i).a.toNat (instrFields i).b.toNat
      (instrFields i).c.toNat (instrFields i).d.toNat (instrFields i).e.toNat (instrFields i).imm.toNat := by
  have hz : (instrFields i).z.toNat = 0 := by cases i <;> rfl
  rw [encode, packCmd_toNat, hz, Nat.mul_zero, Nat.add_zero, cmdNumber]

end Sys2Proof

namespace Sys2Proof.Machine

/-! Words and bytes. -/

/-- `LE` of a string read from memory, as the sum of its bytes' weights (20_memory.md R82). -/
theorem State.leNat_memRead (s : State) (addr n : Nat) :
    leNat (s.memRead addr n) = ∑ k ∈ Finset.range n, (s.byteAt (addr + k)).toNat * 256 ^ k := by
  rw [leNat_eq_sum, State.memRead, Memory.length_readBytes]
  refine Finset.sum_congr rfl fun k hk => ?_
  rw [Memory.getD_readBytes _ _ _ _ (Finset.mem_range.mp hk), State.byteAt]

/-- The little-endian bytes of a bit vector are its 8-bit slices from the least significant up. -/
theorem leBytes_toNat {w : Nat} (v : BitVec w) (n : Nat) :
    leBytes v.toNat n = (List.range n).map fun k => v.extractLsb' (8 * k) 8 := by
  apply List.ext_getElem (by simp)
  intro k hk hk'
  have hlt : k < n := by rwa [length_leBytes] at hk
  rw [← List.getD_eq_getElem _ 0 hk, getD_leBytes _ _ _ hlt, List.getElem_map, List.getElem_range, BitVec.extractLsb',
    Nat.shiftRight_eq_div_pow, Nat.pow_mul]

/-! What each command does. -/

theorem exec_halt (s : State) : exec .halt s = .next { s.advance with busy := false, done := true } := rfl

theorem exec_nop (s : State) : exec .nop s = .next s.advance := rfl

theorem exec_li (a : XReg) (imm : Word) (s : State) : exec (.li a imm) s = .next (s.setX a imm).advance := rfl

theorem exec_addi (a b : XReg) (imm : Word) (s : State) :
    exec (.addi a b imm) s = .next (s.setX a (s.getX b + imm)).advance := rfl

theorem exec_bnz_of_ne_zero {a : XReg} {s : State} (h : s.getX a ≠ 0) (imm : Word) :
    exec (.bnz a imm) s = .next { s with cp := s.cp + imm } :=
  if_pos (bne_iff_ne.mpr h)

theorem exec_bnz_of_eq_zero {a : XReg} {s : State} (h : s.getX a = 0) (imm : Word) :
    exec (.bnz a imm) s = .next s.advance :=
  if_neg (by simp [branchTaken, h])

theorem exec_ldw (a b : XReg) (imm : Word) (s : State) :
    exec (.ldw a b imm) s =
      if s.inRange (s.effectiveAddress b imm).toNat 4 then
        .next (s.setX a (leWord (s.memRead (s.effectiveAddress b imm).toNat 4))).advance
      else .next (s.faultEntry .memRange (s.effectiveAddress b imm)) := rfl

theorem exec_stw (a b : XReg) (imm : Word) (s : State) :
    exec (.stw a b imm) s =
      if s.inRange (s.effectiveAddress b imm).toNat 4 then
        .next (s.memWrite (s.effectiveAddress b imm).toNat (leBytes (s.natX a) 4)).advance
      else .next (s.faultEntry .memRange (s.effectiveAddress b imm)) := rfl

/-- The address of LDW and STW wraps mod 2^32 (30_encoding.md R113). -/
theorem State.effectiveAddress_toNat (s : State) (b : XReg) (imm : Word) :
    (s.effectiveAddress b imm).toNat = ((s.getX b).toNat + imm.toNat) % 2 ^ 32 :=
  BitVec.toNat_add _ _

/-! The statements. -/

/-- Settles O10: a taken branch writes `cp` alone, one not taken is `advance`. -/
theorem bnzBranchesIfNonzero : Obligations.BnzBranchesIfNonzero := by
  intro a imm
  refine ⟨encode_toNat (.bnz a imm), fun s => ⟨fun htaken => ?_, fun hzero => ?_⟩⟩
  · rw [← BitVec.add_def]
    exact ⟨_, exec_bnz_of_ne_zero htaken imm, onlyCp_setCp s _⟩
  · exact ⟨_, exec_bnz_of_eq_zero hzero imm, onlyCp_advance s⟩

/-- Settles O13: inside memory LDW writes the word of the four bytes, outside it is fault entry. -/
theorem ldwLoadsLittleEndian : Obligations.LdwLoadsLittleEndian := by
  intro a b imm
  refine ⟨encode_toNat (.ldw a b imm), fun s => ⟨s.effectiveAddress_toNat b imm, fun hin => ?_, fun hpast => ?_⟩⟩
  · rw [exec_ldw, if_pos (State.inRange_of_le hin), ← State.leNat_memRead]
    exact ⟨_, rfl, onlyX_setX s a _⟩
  · rw [exec_ldw, if_neg (by simp [State.inRange_of_lt hpast])]
    exact ⟨_, rfl, onlyFault_faultEntry s .memRange _⟩

/-- Settles O14: inside memory STW writes the four bytes of `X[a]`, outside it is fault entry. -/
theorem stwStoresLittleEndian : Obligations.StwStoresLittleEndian := by
  intro a b imm
  refine ⟨encode_toNat (.stw a b imm), fun s => ⟨s.effectiveAddress_toNat b imm, fun hin => ?_, fun hpast => ?_⟩⟩
  · rw [exec_stw, if_pos (State.inRange_of_le hin), State.natX, leBytes_toNat]
    exact ⟨_, rfl, onlyMem_memWrite s _ _⟩
  · rw [exec_stw, if_neg (by simp [State.inRange_of_lt hpast])]
    exact ⟨_, rfl, onlyFault_faultEntry s .memRange _⟩

/-- Settles O7: HALT keeps what `advance` keeps but for `busy` and `done`. -/
theorem haltEndsTheRun : Obligations.HaltEndsTheRun := by
  refine ⟨encode_toNat .halt, fun s => ?_⟩
  obtain ⟨hx, hb, hmem, hhash, hcipher, hcp, ⟨-, -, hfaulted, hhostErr⟩, hrecord, hhost⟩ := onlyCp_advance s
  exact ⟨_, exec_halt s, hcp, rfl, rfl, hfaulted, hhostErr, hx, hb, hmem, hhash, hcipher, hrecord, hhost⟩

/-- Settles O8: NOP's row fixes every bit, so a word of its opcode with another bit set is illegal (R114). -/
theorem nopOnlyAdvances : Obligations.NopOnlyAdvances := by
  refine ⟨encode_toNat .nop, ⟨.unusedField, rfl⟩, fun s => ⟨_, exec_nop s, onlyCp_advance s⟩, ?_⟩
  intro s w hturns hbusy haligned hrange hbytes hop hw
  have hrow : ⟨"NOP", 0x02, BitVec.allOnes 64⟩ ∈ matchMaskTable := by decide
  have hbits : w &&& BitVec.allOnes 64 ≠ 0x02 := by rwa [BitVec.and_allOnes]
  have hbroken : ∃ row ∈ matchMaskTable, row.pattern.toNat = w.toNat % 256 ∧ w &&& row.mask ≠ row.pattern :=
    ⟨_, hrow, hop.symm, hbits⟩
  exact illegalWordsFault s w hturns hbusy haligned hrange hbytes
    (.inr (.inr (.inr (.inr (.inr (.inr (.inl hbroken)))))))

/-- Settles O9: LI is one register write and `advance`. -/
theorem liLoadsItsImmediate : Obligations.LiLoadsItsImmediate := fun a imm =>
  ⟨encode_toNat (.li a imm), fun s => ⟨_, exec_li a imm s, onlyX_setX s a imm⟩⟩

/-- Settles O12: addition of words is addition mod 2^32. -/
theorem addiAddsAndWraps : Obligations.AddiAddsAndWraps := by
  intro a b imm
  refine ⟨encode_toNat (.addi a b imm), fun s => ?_⟩
  rw [← BitVec.add_def]
  exact ⟨_, exec_addi a b imm s, onlyX_setX s a _⟩

end Sys2Proof.Machine
end

section
/-! SUPPORT. The hash unit (41_hash.md): the chunk loop of R200 on whole groups and on the last one, each command's
meaning as one equation, and then the statements about them. -/

namespace Sys2Proof.Machine

/-! The function (R200, R201). -/

/-- R201's fold on the byte's number; the subtraction does not wrap. -/
theorem foldByte_toNat (x : Byte) :
    (foldByte x).toNat = if 0x61 ≤ x.toNat ∧ x.toNat ≤ 0x7A then x.toNat - 0x20 else x.toNat := by
  unfold foldByte
  refine (apply_ite BitVec.toNat _ _ _).trans (ite_congr rfl (fun hletter => ?_) fun _ => rfl)
  exact BitVec.toNat_sub_of_le (BitVec.le_def.mpr (le_trans (by decide) hletter.1))

/-- Folding leaves 0, the byte read past a string's end, as it is. -/
theorem getD_map_foldByte (bs : List Byte) (k : Nat) : (bs.map foldByte).getD k 0 = foldByte (bs.getD k 0) := by
  have hzero : foldByte 0 = 0 := by decide
  rw [← List.getD_map bs 0 foldByte, hzero]

/-- One rotate and add, with the group as the sum of its bytes' weights. -/
theorem hashMix_eq_sum (acc : Word) (group : List Byte) :
    hashMix acc group = acc.rotateLeft 1 +
      BitVec.ofNat 32 (∑ k ∈ Finset.range group.length, (group.getD k 0).toNat * 256 ^ k) := by
  rw [hashMix, leWord, leNat_eq_sum, rotl32, word]

theorem hashChunks_nil (acc : Word) : hashChunks acc [] = acc := rfl

theorem hashChunks_wholeGroup (acc : Word) (u0 u1 u2 u3 : Byte) (us : List Byte) :
    hashChunks acc (u0 :: u1 :: u2 :: u3 :: us) = hashChunks (hashMix acc [u0, u1, u2, u3]) us := rfl

/-- A last group, whole or partial, is one rotate and add. -/
theorem hashChunks_eq_hashMix (acc : Word) {group : List Byte} (hpos : 1 ≤ group.length) (hle : group.length ≤ 4) :
    hashChunks acc group = hashMix acc group := by
  match group with
  | [] => exact absurd hpos (by decide)
  | [_] | [_, _] | [_, _, _] | [_, _, _, _] => rfl
  | _ :: _ :: _ :: _ :: _ :: _ =>
    simp only [List.length_cons] at hle
    omega

/-- Behind whole groups the chunk loop goes on from their hash. -/
theorem hashChunks_append (acc : Word) {us : List Byte} (hgroups : us.length % 4 = 0) (ws : List Byte) :
    hashChunks acc (us ++ ws) = hashChunks (hashChunks acc us) ws := by
  match us with
  | [] => rw [List.nil_append, hashChunks_nil]
  | [_] | [_, _] | [_, _, _] => simp at hgroups
  | u0 :: u1 :: u2 :: u3 :: us =>
    have hrest : us.length % 4 = 0 := by
      simp only [List.length_cons] at hgroups
      omega
    simp only [List.cons_append, hashChunks_wholeGroup]
    exact hashChunks_append _ hrest ws

theorem hashBytes_append_group {s group : List Byte} (hgroups : s.length % 4 = 0) (hpos : 1 ≤ group.length)
    (hle : group.length ≤ 4) : hashBytes (s ++ group) = hashMix (hashBytes s) (group.map foldByte) := by
  rw [hashBytes, List.map_append, hashChunks_append 0 (by rwa [List.length_map]),
    hashChunks_eq_hashMix _ (by rwa [List.length_map]) (by rwa [List.length_map]), hashBytes]

/-- The finishing value of a stream (R203), with the pending bytes as the sum of their weights. -/
theorem hashFinish_eq_sum (acc : Word) (pend : List Byte) :
    hashFinish acc pend = if pend = [] then acc
      else acc.rotateLeft 1 +
        BitVec.ofNat 32 (∑ k ∈ Finset.range pend.length, (pend.getD k 0).toNat * 256 ^ k) := by
  rw [hashFinish, hashMix_eq_sum]
  simp only [List.length_eq_zero_iff]

/-! What each command does. -/

/-- A string read from memory, byte by byte in ascending order (20_memory.md R82). -/
theorem State.memRead_eq_map_byteAt (s : State) (addr n : Nat) :
    s.memRead addr n = (List.range n).map fun k => s.byteAt (addr + k) :=
  s.mem.readBytes_eq_map addr n

theorem exec_hInit (s : State) : exec .hInit s = .next (s.setHash (0, [])).advance := rfl

theorem exec_hFeed (a b : XReg) (s : State) :
    exec (.hFeed a b) s =
      if s.inRange (s.natX a) (s.natX b) then
        .next (s.setHash ((s.memRead (s.natX a) (s.natX b)).foldl hashAbsorb (s.hacc, s.hpend))).advance
      else .next (s.faultEntry .memRange (s.getX a)) := rfl

theorem exec_hFinal (a : XReg) (s : State) :
    exec (.hFinal a) s = .next (s.setX a (hashFinish s.hacc s.hpend)).advance := rfl

theorem exec_hHash (a b c : XReg) (s : State) :
    exec (.hHash a b c) s =
      if s.inRange (s.natX b) (s.natX c) then
        .next (s.setX a (hashBytes (s.memRead (s.natX b) (s.natX c)))).advance
      else .next (s.faultEntry .memRange (s.getX b)) := rfl

/-! The statements. -/

/-- Settles O16: inside memory H.FEED sets the stream to the absorbed bytes, outside it is fault entry. -/
theorem hFeedAbsorbsMemory : Obligations.HFeedAbsorbsMemory := by
  intro a b
  refine ⟨encode_toNat (.hFeed a b), fun s => ⟨fun hin => ?_, fun hpast => ?_⟩⟩
  · rw [exec_hFeed, if_pos (State.inRange_of_le hin), State.memRead_eq_map_byteAt, List.foldl_map]
    exact ⟨_, rfl, onlyHash_setHash s _⟩
  · rw [exec_hFeed, if_neg (by simp [State.inRange_of_lt hpast])]
    exact ⟨_, rfl, onlyFault_faultEntry s .memRange _⟩

/-- Settles O18: inside memory H.HASH writes one register, outside it is fault entry. -/
theorem hHashHashesMemory : Obligations.HHashHashesMemory := by
  intro a b c
  refine ⟨encode_toNat (.hHash a b c), fun s => ⟨fun hin => ?_, fun hpast => ?_⟩⟩
  · rw [exec_hHash, if_pos (State.inRange_of_le hin), State.memRead_eq_map_byteAt]
    exact ⟨_, rfl, onlyX_setX s a _⟩
  · rw [exec_hHash, if_neg (by simp [State.inRange_of_lt hpast])]
    exact ⟨_, rfl, onlyFault_faultEntry s .memRange _⟩

/-- Settles O43: the chunk loop takes whole groups first and the last group as one rotate and add. -/
theorem hashIsRotateAndAdd : Obligations.HashIsRotateAndAdd := by
  refine ⟨hashChunks_nil 0, fun s w hgroups hpos hle => ?_, foldByte_toNat⟩
  rw [hashBytes_append_group hgroups hpos hle, hashMix_eq_sum, List.length_map]
  simp only [getD_map_foldByte]

/-- Settles O15: H.INIT sets the stream and nothing else. -/
theorem hInitStartsAStream : Obligations.HInitStartsAStream :=
  ⟨encode_toNat .hInit, fun s => ⟨_, exec_hInit s, onlyHash_setHash s (0, [])⟩⟩

/-- Settles O17: H.FINAL is one register write, of the finishing value. -/
theorem hFinalReadsTheStream : Obligations.HFinalReadsTheStream := by
  intro a
  refine ⟨encode_toNat (.hFinal a), fun s => ?_⟩
  rw [← hashFinish_eq_sum]
  exact ⟨_, exec_hFinal a s, onlyX_setX s a _⟩

end Sys2Proof.Machine
end

section
/-! SUPPORT. The big-integer unit (42_bignum.md): numbers as byte strings in memory and in the key ROM, the capacity and
its top bit, the square-and-multiply loop, each command's meaning as one equation, then the statements about them. -/

namespace Sys2Proof.Machine

/-! Big-endian strings (00_scope.md R12). -/

/-- `BE` of a string read from memory, as the sum of its bytes' weights (20_memory.md R82). -/
theorem State.beNat_memRead (s : State) (addr n : Nat) :
    beNat (s.memRead addr n) = ∑ k ∈ Finset.range n, (s.byteAt (addr + k)).toNat * 256 ^ (n - 1 - k) := by
  rw [beNat_eq_sum, State.memRead, Memory.length_readBytes]
  refine Finset.sum_congr rfl fun k hk => ?_
  rw [Memory.getD_readBytes _ _ _ _ (Finset.mem_range.mp hk), State.byteAt]

/-- `BE` of a string of fixed length, as the sum of its bytes' weights. -/
theorem beNat_vector {n : Nat} (bs : Vector Byte n) :
    beNat bs.toList = ∑ k : Fin n, (bs[k]).toNat * 256 ^ (n - 1 - k.val) := by
  rw [beNat_eq_sum, Vector.length_toList, Finset.sum_range]
  refine Finset.sum_congr rfl fun k _ => ?_
  rw [List.getD_eq_getElem _ 0 (by simp), Vector.getElem_toList, Fin.getElem_fin]

/-- The big-endian bytes of a number, most significant first. -/
theorem beBytes_eq_map (v n : Nat) :
    beBytes v n = (List.range n).map fun k => BitVec.ofNat 8 (v / 256 ^ (n - 1 - k)) := by
  apply List.ext_getElem (by simp)
  intro k hk hk'
  have hlt : k < n := by rwa [length_beBytes] at hk
  rw [← List.getD_eq_getElem _ 0 hk, beBytes, getD_reverse_byte _ _ (by rwa [length_leBytes]), length_leBytes,
    getD_leBytes _ _ _ (by omega), List.getElem_map, List.getElem_range]

/-- BN.ST's length is the least that is at least `minLen` and holds the value (42_bignum.md R242). -/
theorem bnStoreLength_le_iff (v minLen m : Nat) : bnStoreLength v minLen ≤ m ↔ minLen ≤ m ∧ v < 256 ^ m := by
  rw [bnStoreLength, max_le_iff, lt_256_pow_iff_bytelen_le]

/-- A range past the end of memory, as the condition of a command's `if` (20_memory.md R84). -/
theorem State.not_inRange_of_lt {s : State} {addr n : Nat} (h : s.cfg.memSize < addr + n) :
    ¬ s.inRange addr n = true :=
  fun hin => Nat.not_le.mpr h ((s.inRange_iff addr n).mp hin)

/-! The capacity (R231). -/

/-- What `PK_LEN` bytes hold fits in 20 limbs (R238). -/
theorem lt_capacity_of_lt_pkLen {v limbs : Nat} (hv : v < 256 ^ pkLen) (hlimbs : 20 ≤ limbs) :
    v < 2 ^ (32 * limbs) :=
  calc
    v < (2 ^ 8) ^ pkLen := hv
    _ = 2 ^ (8 * pkLen) := (pow_mul 2 8 pkLen).symm
    _ ≤ 2 ^ (32 * limbs) := Nat.pow_le_pow_right (by decide) (by unfold pkLen; omega)

/-- A word fits in 20 limbs (R235). -/
theorem word_lt_capacity (w : Word) {limbs : Nat} (hlimbs : 20 ≤ limbs) : w.toNat < 2 ^ (32 * limbs) :=
  lt_capacity_of_lt_pkLen (w.isLt.trans (by decide)) hlimbs

/-- Of a number of at most `n + 1` bits, bit `n` is clear exactly when its double has at most `n + 1` bits. -/
theorem testBit_top_eq_false_iff {v n : Nat} (hv : v < 2 ^ (n + 1)) : v.testBit n = false ↔ v + v < 2 ^ (n + 1) := by
  have hclear : v.testBit n = false ↔ v < 2 ^ n := by
    refine ⟨fun hbit => ?_, Nat.testBit_lt_two_pow⟩
    by_contra hge
    rw [Nat.testBit_of_two_pow_le_and_two_pow_add_one_gt (Nat.le_of_not_lt hge) hv] at hbit
    cases hbit
  rw [hclear, Nat.pow_succ]
  omega

theorem writeFitting_of_lt {v : Nat} {s : State} (h : v < 2 ^ (32 * s.cfg.bnLimbs)) (a : BReg) :
    writeFitting a v s = .next (s.setB a v).advance :=
  if_pos ((s.fits_iff v).mpr h)

theorem writeFitting_of_le {v : Nat} {s : State} (h : 2 ^ (32 * s.cfg.bnLimbs) ≤ v) (a : BReg) :
    writeFitting a v s = .next (s.faultEntry .bnOverflow 0) :=
  if_neg fun hfits => Nat.not_lt.mpr h ((s.fits_iff v).mp hfits)

/-! Square and multiply (R264). -/

/-- The loop's invariant: the result is `acc * base ^ e` modulo `m` where the rounds left suffice for `e`'s bits. -/
theorem modExpLoop_eq (m n acc base e : Nat) (he : e < 2 ^ n) : modExpLoop m n acc base e = acc * base ^ e % m := by
  induction n generalizing acc base e with
  | zero =>
    obtain rfl : e = 0 := by simpa using he
    rw [modExpLoop, pow_zero, mul_one]
  | succ n ih =>
    rw [modExpLoop]
    by_cases hzero : e = 0
    · rw [if_pos hzero, hzero, pow_zero, mul_one]
    have hhalf : e / 2 < 2 ^ n := by rw [Nat.pow_succ] at he; omega
    have hsquare : (base * base % m) ^ (e / 2) ≡ base ^ (2 * (e / 2)) [MOD m] := by
      rw [pow_mul, pow_two]
      exact (Nat.mod_modEq _ m).pow _
    rw [if_neg hzero, ih _ _ _ hhalf]
    rcases Nat.mod_two_eq_zero_or_one e with heven | hodd
    · rw [if_neg (by omega)]
      calc acc * (base * base % m) ^ (e / 2) % m
          = acc * base ^ (2 * (e / 2)) % m := hsquare.mul_left acc
        _ = acc * base ^ e % m := by rw [show 2 * (e / 2) = e by omega]
    · rw [if_pos hodd]
      calc acc * base % m * (base * base % m) ^ (e / 2) % m
          = acc * base * base ^ (2 * (e / 2)) % m := (Nat.mod_modEq _ m).mul hsquare
        _ = acc * base ^ (2 * (e / 2) + 1) % m := by rw [pow_succ', mul_assoc]
        _ = acc * base ^ e % m := by rw [show 2 * (e / 2) + 1 = e by omega]

/-- `ModExp` is the power modulo `m`. -/
theorem modExp_eq_pow_mod (b e m : Nat) : modExp b e m = b ^ e % m := by
  rw [modExp, modExpLoop_eq _ _ _ _ _ ((lt_two_pow_iff_bitlen_le e _).mpr le_rfl), one_mul]

/-! What each command does. -/

theorem exec_bnLd (a : BReg) (b c : XReg) (s : State) :
    exec (.bnLd a b c) s =
      if s.inRange (s.natX b) (s.natX c) then writeFitting a (beNat (s.memRead (s.natX b) (s.natX c))) s
      else .next (s.faultEntry .memRange (s.getX b)) := rfl

theorem exec_bnLdi (a : BReg) (imm : Word) (s : State) :
    exec (.bnLdi a imm) s = .next (s.setB a imm.toNat).advance := rfl

theorem exec_bnLdk_modulus (a : BReg) (s : State) :
    exec (.bnLdk a 0) s = .next (s.setB a (beNat s.cfg.pkModulus.toList)).advance := rfl

theorem exec_bnLdk_exponent (a : BReg) (s : State) :
    exec (.bnLdk a 1) s = .next (s.setB a s.cfg.pkExponent.toNat).advance := rfl

theorem exec_bnSt (a : BReg) (b c d : XReg) (s : State) :
    exec (.bnSt a b c d) s =
      if s.inRange (s.natX b) (bnStoreLength (s.getB a) (s.natX c)) then
        .next ((s.memWrite (s.natX b) (beBytes (s.getB a) (bnStoreLength (s.getB a) (s.natX c)))).setX d
          (word (bnStoreLength (s.getB a) (s.natX c)))).advance
      else .next (s.faultEntry .memRange (s.getX b)) := rfl

theorem exec_bnCmp (a : XReg) (b c : BReg) (s : State) :
    exec (.bnCmp a b c) s = .next (s.setX a (compareResult (s.getB b) (s.getB c))).advance := rfl

theorem exec_bnSub (a b c : BReg) (s : State) :
    exec (.bnSub a b c) s =
      if s.getB b < s.getB c then .next (s.faultEntry .bnUnderflow 0)
      else .next (s.setB a (s.getB b - s.getB c)).advance := rfl

theorem exec_bnMul (a b c : BReg) (s : State) :
    exec (.bnMul a b c) s = writeFitting a (s.getB b * s.getB c) s := rfl

theorem exec_bnShl (a b : BReg) (s : State) : exec (.bnShl a b) s = writeFitting a (s.getB b + s.getB b) s := by
  rw [← two_mul]
  rfl

theorem exec_bnShr (a b : BReg) (s : State) : exec (.bnShr a b) s = .next (s.setB a (s.getB b / 2)).advance := rfl

theorem exec_bnPar (a : XReg) (b : BReg) (s : State) :
    exec (.bnPar a b) s = .next (s.setX a (word (s.getB b % 2))).advance := rfl

theorem exec_bnMod (a b c : BReg) (s : State) :
    exec (.bnMod a b c) s =
      if s.getB c = 0 then .next (s.faultEntry .bnZeroModulus 0)
      else .next (s.setB a (s.getB b % s.getB c)).advance := rfl

theorem exec_bnModexp (a b c d : BReg) (s : State) :
    exec (.bnModexp a b c d) s =
      if s.getB d = 0 then .next (s.faultEntry .bnZeroModulus 0)
      else .next (s.setB a (s.getB b ^ s.getB c % s.getB d)).advance := by
  rw [← modExp_eq_pow_mod]
  rfl

/-- The word of BN.LDK with another selector than 0 and 1 does not decode (30_encoding.md R118). -/
theorem decodeWord_encode_bnLdk_ne_ok (a : BReg) {imm : Word} (h0 : imm ≠ 0) (h1 : imm ≠ 1) (i : Instr) :
    decodeWord (encode (.bnLdk a imm)) ≠ .ok i := by
  have hnumber : (encode (.bnLdk a imm)).toNat = 0x22 + 2 ^ 8 * a.val + 2 ^ 32 * imm.toNat :=
    encode_toNat (.bnLdk a imm)
  have hsel : 2 ≤ imm.toNat := by bv_omega
  exact decodeWord_ne_ok_of_selector (by omega) (by omega) i

/-! The statements. -/

/-- Settles O30: the loop gives the power, and its value is written whatever the capacity. -/
theorem bnModexpGivesThePower : Obligations.BnModexpGivesThePower := by
  intro a b c d
  refine ⟨encode_toNat (.bnModexp a b c d), fun s => ⟨fun hmod => ?_, fun hzero => ?_⟩⟩
  · rw [exec_bnModexp, if_neg hmod]
    exact ⟨_, rfl, onlyB_setB s a _⟩
  · rw [exec_bnModexp, if_pos hzero]
    exact ⟨_, rfl, onlyFault_faultEntry s .bnZeroModulus 0⟩

/-- Settles O22: the length is the least that serves; inside memory BN.ST writes the bytes and the count, outside it is
fault entry. -/
theorem bnStStoresBigEndian : Obligations.BnStStoresBigEndian := by
  intro a b c d
  refine ⟨encode_toNat (.bnSt a b c d), fun s => ?_⟩
  intro v n
  have hleast : ∀ m, n ≤ m ↔ s.natX c ≤ m ∧ v < 256 ^ m := bnStoreLength_le_iff v (s.natX c)
  obtain ⟨hlong, hholds⟩ := (hleast n).mp le_rfl
  refine ⟨⟨hlong, hholds, fun m hm hv => (hleast m).mpr ⟨hm, hv⟩⟩, fun hin => ?_, fun hpast => ?_⟩
  · rw [exec_bnSt, if_pos (State.inRange_of_le hin), ← beBytes_eq_map]
    exact ⟨_, rfl, onlyMemX_memWrite s _ _ d _⟩
  · rw [exec_bnSt, if_neg (State.not_inRange_of_lt hpast)]
    exact ⟨_, rfl, onlyFault_faultEntry s .memRange _⟩

/-- Settles O19: outside memory BN.LD is fault entry, inside it is `writeFitting` of the bytes' number. -/
theorem bnLdLoadsBigEndian : Obligations.BnLdLoadsBigEndian := by
  intro a b c
  refine ⟨encode_toNat (.bnLd a b c), fun s => ?_⟩
  intro n v
  have hexec : s.natX b + n ≤ s.cfg.memSize → exec (.bnLd a b c) s = writeFitting a v s := fun hin => by
    rw [exec_bnLd, if_pos (State.inRange_of_le hin), State.beNat_memRead]
  refine ⟨fun hpast => ?_, fun hin hfits => ?_, fun hin hover => ?_⟩
  · rw [exec_bnLd, if_neg (State.not_inRange_of_lt hpast)]
    exact ⟨_, rfl, onlyFault_faultEntry s .memRange _⟩
  · rw [hexec hin, writeFitting_of_lt hfits]
    exact ⟨_, rfl, onlyB_setB s a v⟩
  · rw [hexec hin, writeFitting_of_le hover]
    exact ⟨_, rfl, onlyFault_faultEntry s .bnOverflow 0⟩

/-- Settles O21: the two selectors are one register write each; any other makes a word that does not decode. -/
theorem bnLdkLoadsTheKey : Obligations.BnLdkLoadsTheKey := by
  intro a
  refine ⟨fun imm => ⟨encode_toNat (.bnLdk a imm), fun h0 h1 => ?_⟩, fun s => ?_⟩
  · cases hdecode : decodeWord (encode (.bnLdk a imm)) with
    | error e => exact ⟨e, rfl⟩
    | ok i => exact absurd hdecode (decodeWord_encode_bnLdk_ne_ok a h0 h1 i)
  · intro m
    have hm : beNat s.cfg.pkModulus.toList = m := beNat_vector s.cfg.pkModulus
    refine ⟨⟨_, exec_bnLdk_modulus a s, hm ▸ onlyB_setB s a _⟩, ⟨_, exec_bnLdk_exponent a s, onlyB_setB s a _⟩,
      fun hlimbs => ⟨?_, word_lt_capacity _ hlimbs⟩⟩
    have hlt := beNat_lt s.cfg.pkModulus.toList
    rw [hm, Vector.length_toList] at hlt
    exact lt_capacity_of_lt_pkLen hlt hlimbs

/-- Settles O24: subtraction is exact where it does not underflow. -/
theorem bnSubSubtractsOrUnderflows : Obligations.BnSubSubtractsOrUnderflows := by
  intro a b c
  refine ⟨encode_toNat (.bnSub a b c), fun s => ⟨fun hle => ?_, fun hlt => ?_⟩⟩
  · rw [exec_bnSub, if_neg (Nat.not_lt.mpr hle)]
    exact ⟨_, _, rfl, onlyB_setB s a _, Nat.sub_add_cancel hle⟩
  · rw [exec_bnSub, if_pos hlt]
    exact ⟨_, rfl, onlyFault_faultEntry s .bnUnderflow 0⟩

/-- Settles O25: BN.MUL is `writeFitting` of the product. -/
theorem bnMulMultipliesOrOverflows : Obligations.BnMulMultipliesOrOverflows := by
  intro a b c
  refine ⟨encode_toNat (.bnMul a b c), fun s => ⟨fun hfits => ?_, fun hover => ?_⟩⟩
  · exact ⟨_, writeFitting_of_lt hfits a, onlyB_setB s a _⟩
  · exact ⟨_, writeFitting_of_le hover a, onlyFault_faultEntry s .bnOverflow 0⟩

/-- Settles O26: the double of a register below its capacity fits exactly when the top bit is clear. -/
theorem bnShlDoublesOrOverflows : Obligations.BnShlDoublesOrOverflows := by
  intro a b
  refine ⟨encode_toNat (.bnShl a b), fun s hlimbs hcap => ?_⟩
  have hbits : 32 * s.cfg.bnLimbs - 1 + 1 = 32 * s.cfg.bnLimbs := by omega
  have htop := testBit_top_eq_false_iff (hbits.symm ▸ hcap)
  rw [hbits] at htop
  rw [exec_bnShl]
  refine ⟨fun hclear => ?_, fun hset => ?_⟩
  · exact ⟨_, writeFitting_of_lt (htop.mp hclear) a, onlyB_setB s a _⟩
  · have hover : ¬ s.getB b + s.getB b < 2 ^ (32 * s.cfg.bnLimbs) := by simp [← htop, hset]
    exact ⟨_, writeFitting_of_le (Nat.not_lt.mp hover) a, onlyFault_faultEntry s .bnOverflow 0⟩

/-- Settles O29: quotient and remainder of the division by a nonzero modulus. -/
theorem bnModGivesTheRemainder : Obligations.BnModGivesTheRemainder := by
  intro a b c
  refine ⟨encode_toNat (.bnMod a b c), fun s => ⟨fun hmod => ?_, fun hzero => ?_⟩⟩
  · rw [exec_bnMod, if_neg hmod]
    exact ⟨_, s.getB b / s.getB c, _, rfl, onlyB_setB s a _, (Nat.div_add_mod' _ _).symm,
      Nat.mod_lt _ (Nat.pos_of_ne_zero hmod)⟩
  · rw [exec_bnMod, if_pos hzero]
    exact ⟨_, rfl, onlyFault_faultEntry s .bnZeroModulus 0⟩

/-- Settles O20: BN.LDI is one register write, of a word. -/
theorem bnLdiLoadsASmallInteger : Obligations.BnLdiLoadsASmallInteger := fun a imm =>
  ⟨encode_toNat (.bnLdi a imm), fun s => ⟨word_lt_capacity imm, _, exec_bnLdi a imm s, onlyB_setB s a _⟩⟩

/-- Settles O23: one register write, of the comparison's value in each of the three cases. -/
theorem bnCmpComparesThreeWays : Obligations.BnCmpComparesThreeWays := by
  intro a b c
  refine ⟨encode_toNat (.bnCmp a b c), fun s => ?_⟩
  rw [exec_bnCmp, compareResult]
  refine ⟨fun hlt => ?_, fun heq => ?_, fun hgt => ?_⟩
  · rw [if_pos hlt]
    exact ⟨_, rfl, onlyX_setX s a _⟩
  · rw [if_neg heq.not_lt, if_pos heq]
    exact ⟨_, rfl, onlyX_setX s a _⟩
  · rw [if_neg hgt.not_gt, if_neg hgt.ne']
    exact ⟨_, rfl, onlyX_setX s a _⟩

/-- Settles O27: one register write, of the quotient by 2. -/
theorem bnShrHalves : Obligations.BnShrHalves := by
  intro a b
  refine ⟨encode_toNat (.bnShr a b), fun s => ⟨_, _, exec_bnShr a b s, onlyB_setB s a _, ?_, ?_⟩⟩ <;> omega

/-- Settles O28: one register write, of the remainder by 2. -/
theorem bnParTestsParity : Obligations.BnParTestsParity := by
  intro a b
  refine ⟨encode_toNat (.bnPar a b), fun s => ?_⟩
  rw [exec_bnPar]
  refine ⟨fun heven => ?_, fun hodd => ?_⟩
  · rw [Nat.even_iff.mp heven]
    exact ⟨_, rfl, onlyX_setX s a _⟩
  · rw [Nat.odd_iff.mp hodd]
    exact ⟨_, rfl, onlyX_setX s a _⟩

end Sys2Proof.Machine
end

section
/-! SUPPORT. The cipher unit (43_cipher.md): the network as a relation between rounds, a block's two halves, the key
schedule as one chain of 521 encryptions, each command's meaning as one equation, and then the statements about them. -/

namespace Sys2Proof.Machine

/-! The network (R301 to R303). -/

/-- The tables' indices are the bytes of `x`, however they are cut out of it (R301). -/
theorem cipherF_eq_roundFunction (t : CipherTables) (x : Word) : cipherF t.s x = roundFunction t x := by
  simp [cipherF, roundFunction, BitVec.extractLsb'_toNat, Nat.shiftRight_eq_div_pow]

/-- The two halves before round `n` of the network with the subkeys `p`. -/
def halvesBeforeRound (p : Vector Word 18) (t : CipherTables) (lr : Word × Word) (n : Nat) : Word × Word :=
  (p.toList.take n).foldl (cipherRound t.s) lr

/-- One round goes from the halves before it to those before the next (R302). -/
theorem halvesBeforeRound_succ (p : Vector Word 18) (t : CipherTables) (lr : Word × Word) (i : Fin 18) :
    halvesBeforeRound p t lr (i.val + 1) = cipherRound t.s (halvesBeforeRound p t lr i.val) p[i] := by
  rw [halvesBeforeRound, List.take_succ_eq_append_getElem (by simp), List.foldl_append]
  simp [halvesBeforeRound]

theorem cipherNetwork_eq (p : Vector Word 18) (t : CipherTables) (lr : Word × Word) :
    cipherNetwork p t.s lr =
      ((halvesBeforeRound p t lr 16).2 ^^^ p[17], (halvesBeforeRound p t lr 16).1 ^^^ p[16]) := rfl

/-- The network is R302's, with the subkeys in the order `p` has them. -/
theorem feistel_cipherNetwork (p : Vector Word 18) (t : CipherTables) (lr : Word × Word) :
    feistel t (fun i => p[i]) lr (cipherNetwork p t.s lr) := by
  refine ⟨fun n => (halvesBeforeRound p t lr n).1, fun n => (halvesBeforeRound p t lr n).2, rfl, fun i _ => ?_,
    cipherNetwork_eq p t lr⟩
  have hround := halvesBeforeRound_succ p t lr i
  rw [cipherRound, cipherF_eq_roundFunction] at hround
  exact ⟨congrArg Prod.snd hround, congrArg Prod.fst hround⟩

theorem feistel_encWords (t : CipherTables) (lr : Word × Word) :
    feistel t (fun i => t.p[i]) lr (encWords t lr) :=
  feistel_cipherNetwork t.p t lr

/-- Decryption takes the subkeys from the last to the first (R303). -/
theorem feistel_decWords (t : CipherTables) (lr : Word × Word) :
    feistel t (fun i => t.p[i.rev]) lr (decWords t lr) := by
  have hrev : (fun i : Fin 18 => t.p.reverse[i]) = fun i => t.p[i.rev] := by
    funext i
    simp [Fin.val_rev]
  exact hrev ▸ feistel_cipherNetwork t.p.reverse t lr

/-! Blocks and their halves (R304). -/

/-- `BE` of four bytes is below 2^32, so as a word it keeps its value. -/
theorem beWord_toNat {bs : List Byte} (h : bs.length = 4) :
    (beWord bs).toNat = ∑ k ∈ Finset.range 4, (bs.getD k 0).toNat * 256 ^ (3 - k) := by
  have hlt : beNat bs < 2 ^ 32 := by simpa [h] using beNat_lt bs
  rw [beWord, word_toNat_of_lt hlt, beNat_eq_sum, h]

theorem halvesOf_blockHalves {blk : List Byte} (h : blk.length = 8) : halvesOf blk (blockHalves blk) := by
  refine ⟨(beWord_toNat (by simp [h])).trans ?_, (beWord_toNat (by simp [h])).trans ?_⟩ <;>
    refine Finset.sum_congr rfl fun k hk => ?_
  · have hk4 : k < 4 := Finset.mem_range.mp hk
    simp [List.getD_eq_getElem?_getD, hk4]
  · simp [List.getD_eq_getElem?_getD]

theorem beWord_beBytes (w : Word) : beWord (beBytes w.toNat 4) = w := by
  rw [beWord, beNat_beBytes, Nat.mod_eq_of_lt (show w.toNat < 256 ^ 4 from w.isLt), word_toNat]

@[simp] theorem length_halvesBlock (lr : Word × Word) : (halvesBlock lr).length = 8 := by simp [halvesBlock]

theorem blockHalves_halvesBlock (lr : Word × Word) : blockHalves (halvesBlock lr) = lr := by
  have hleft : (halvesBlock lr).take 4 = beBytes lr.1.toNat 4 := List.take_left' (length_beBytes _ _)
  have hright : (halvesBlock lr).drop 4 = beBytes lr.2.toNat 4 := List.drop_left' (length_beBytes _ _)
  rw [blockHalves, hleft, hright, beWord_beBytes, beWord_beBytes]

theorem halvesOf_halvesBlock (lr : Word × Word) : halvesOf (halvesBlock lr) lr := by
  simpa only [blockHalves_halvesBlock] using halvesOf_blockHalves (length_halvesBlock lr)

theorem blockThrough_encBlock (t : CipherTables) {blk : List Byte} (h : blk.length = 8) :
    blockThrough t (fun i => t.p[i]) blk (encBlock t blk) :=
  ⟨_, _, halvesOf_blockHalves h, feistel_encWords t _, halvesOf_halvesBlock _⟩

theorem blockThrough_decBlock (t : CipherTables) {blk : List Byte} (h : blk.length = 8) :
    blockThrough t (fun i => t.p[i.rev]) blk (decBlock t blk) :=
  ⟨_, _, halvesOf_blockHalves h, feistel_decWords t _, halvesOf_halvesBlock _⟩

/-! The key's bytes (R305, first loop). -/

/-- The key word of subkey `i`, as the sum of its bytes' weights. -/
theorem keyWord_eq_sum (key : List Byte) (i : Nat) :
    keyWord key i = BitVec.ofNat 32
      (∑ u ∈ Finset.range 4, (key.getD ((4 * i + u) % key.length) 0).toNat * 256 ^ (3 - u)) := by
  rw [keyWord, beWord, word, beNat_eq_sum, List.length_map, List.length_range]
  refine congrArg _ (Finset.sum_congr rfl fun u hu => ?_)
  have hu4 : u < 4 := Finset.mem_range.mp hu
  simp [List.getD_eq_getElem?_getD, hu4]

theorem keyedTables_p (key : List Byte) (i : Fin 18) :
    (keyedTables key).p[i] = initTables.p[i] ^^^ keyWord key i.val := by
  simp [keyedTables]

theorem keyedTables_s (key : List Byte) : (keyedTables key).s = initTables.s := rfl

/-- The schedule reads the key through the 72 bytes of its cycle only. -/
theorem keySchedule_eq_of_cycled_eq {key key' : List Byte}
    (h : ∀ m, m < 72 → key.getD (m % key.length) 0 = key'.getD (m % key'.length) 0) :
    keySchedule key = keySchedule key' := by
  have hword : ∀ i : Fin 18, keyWord key i.val = keyWord key' i.val := fun i => by
    rw [keyWord_eq_sum, keyWord_eq_sum]
    refine congrArg _ (Finset.sum_congr rfl fun u hu => ?_)
    have hu4 : u < 4 := Finset.mem_range.mp hu
    rw [h (4 * i.val + u) (by omega)]
  have hkeyed : keyedTables key = keyedTables key' := by simp only [keyedTables, hword]
  rw [keySchedule, keySchedule, hkeyed]

/-- A key written twice in a row cycles as the key does. -/
theorem getD_append_self_mod (key : List Byte) (m : Nat) (hpos : 1 ≤ key.length) :
    (key ++ key).getD (m % (key ++ key).length) 0 = key.getD (m % key.length) 0 := by
  rw [List.length_append]
  have hlt : m % (key.length + key.length) < key.length + key.length := Nat.mod_lt _ (by omega)
  have hmod : m % (key.length + key.length) % key.length = m % key.length := Nat.mod_mod_of_dvd _ ⟨2, by omega⟩
  rcases Nat.lt_or_ge (m % (key.length + key.length)) key.length with hfirst | hsecond
  · rw [List.getD_append _ _ _ _ hfirst, ← hmod, Nat.mod_eq_of_lt hfirst]
  · rw [List.getD_append_right _ _ _ _ hsecond, ← hmod, Nat.mod_eq_sub_mod hsecond,
      Nat.mod_eq_of_lt (show m % (key.length + key.length) - key.length < key.length by omega)]

/-! The encryptions (R305, second and third loop). -/

/-- Two neighbouring words of a table written: the pair is the one whose number is half the index. -/
theorem getElem_set_pair {n : Nat} (v : Vector Word n) (lr : Word × Word) (m : Nat) (h0 : 2 * m < n)
    (h1 : 2 * m + 1 < n) (i : Fin n) :
    ((v.set (2 * m) lr.1 h0).set (2 * m + 1) lr.2 h1)[i] =
      if i.val / 2 = m then (if i.val % 2 = 0 then lr.1 else lr.2) else v[i] := by
  simp only [Fin.getElem_fin, Vector.getElem_set]
  by_cases hsecond : 2 * m + 1 = i.val
  · rw [if_pos hsecond, if_pos (by omega), if_neg (by omega)]
  · by_cases hfirst : 2 * m = i.val
    · rw [if_neg hsecond, if_pos hfirst, if_pos (by omega), if_pos (by omega)]
    · rw [if_neg hsecond, if_neg hfirst, if_neg (by omega)]

theorem schedulePair_snd (st : CipherTables × (Word × Word)) (k : Fin 9) :
    (schedulePair st k).2 = encWords st.1 st.2 := rfl

theorem scheduleSPair_snd (j : Fin 4) (st : CipherTables × (Word × Word)) (k : Fin 128) :
    (scheduleSPair j st k).2 = encWords st.1 st.2 := rfl

theorem replacesPair_schedulePair (st : CipherTables × (Word × Word)) (k : Fin 9) :
    replacesPair k.val (encWords st.1 st.2) st.1 (schedulePair st k).1 := by
  refine ⟨fun i => getElem_set_pair st.1.p _ k.val (by omega) (by omega) i, fun j i => ?_⟩
  rw [if_neg (by omega)]
  rfl

theorem replacesPair_scheduleSPair (j : Fin 4) (st : CipherTables × (Word × Word)) (k : Fin 128) :
    replacesPair (9 + 128 * j.val + k.val) (encWords st.1 st.2) st.1 (scheduleSPair j st k).1 := by
  refine ⟨fun i => ?_, fun j' i => ?_⟩
  · rw [if_neg (by omega)]
    rfl
  · by_cases hj : j' = j
    · subst hj
      have hbox : (scheduleSPair j' st k).1.s[j'] =
          (st.1.s[j'].set (2 * k.val) (encWords st.1 st.2).1 (by omega)).set (2 * k.val + 1)
            (encWords st.1 st.2).2 (by omega) := Vector.getElem_set_self _
      rw [hbox, getElem_set_pair]
      simp only [Nat.add_left_cancel_iff]
    · have hbox : (scheduleSPair j st k).1.s[j'] = st.1.s[j'] :=
        Vector.getElem_set_ne j.isLt j'.isLt fun h => hj (Fin.ext h.symm)
      rw [hbox, if_neg (by omega)]

/-- Encryption `m` of the schedule, of the 9 that replace `P` or of the 512 that replace `S`. -/
def scheduleStep (st : CipherTables × (Word × Word)) (m : Nat) : CipherTables × (Word × Word) :=
  if hp : m < 9 then schedulePair st ⟨m, hp⟩
  else if hs : m < 521 then scheduleSPair ⟨(m - 9) / 128, by omega⟩ st ⟨(m - 9) % 128, by omega⟩
  else st

theorem scheduleStep_p (st : CipherTables × (Word × Word)) (k : Fin 9) :
    scheduleStep st k.val = schedulePair st k := dif_pos k.isLt

theorem scheduleStep_s (st : CipherTables × (Word × Word)) (j : Fin 4) (k : Fin 128) :
    scheduleStep st (9 + (128 * j.val + k.val)) = scheduleSPair j st k := by
  have hj : (⟨(9 + (128 * j.val + k.val) - 9) / 128, by omega⟩ : Fin 4) = j := Fin.ext (by simp only; omega)
  have hk : (⟨(9 + (128 * j.val + k.val) - 9) % 128, by omega⟩ : Fin 128) = k := Fin.ext (by simp only; omega)
  rw [scheduleStep, dif_neg (by omega), dif_pos (by omega), hj, hk]

/-- Each of the 521 encryptions is one of the two kinds. -/
theorem scheduleStep_cases (st : CipherTables × (Word × Word)) {m : Nat} (hm : m < 521) :
    (∃ k : Fin 9, m = k.val ∧ scheduleStep st m = schedulePair st k) ∨
    (∃ (j : Fin 4) (k : Fin 128), m = 9 + 128 * j.val + k.val ∧ scheduleStep st m = scheduleSPair j st k) := by
  rcases Nat.lt_or_ge m 9 with hp | hs
  · exact .inl ⟨⟨m, hp⟩, rfl, scheduleStep_p st ⟨m, hp⟩⟩
  · refine .inr ⟨⟨(m - 9) / 128, by omega⟩, ⟨(m - 9) % 128, by omega⟩, by simp only; omega, ?_⟩
    rw [scheduleStep, dif_neg (by omega), dif_pos hm]

/-- Encryption `m` encrypts the running block under the tables as they are, and replaces pair `m` with the result. -/
theorem scheduleStep_spec (st : CipherTables × (Word × Word)) {m : Nat} (hm : m < 521) :
    (scheduleStep st m).2 = encWords st.1 st.2 ∧
      replacesPair m (encWords st.1 st.2) st.1 (scheduleStep st m).1 := by
  obtain ⟨k, rfl, hstep⟩ | ⟨j, k, rfl, hstep⟩ := scheduleStep_cases st hm
  · rw [hstep]
    exact ⟨schedulePair_snd st k, replacesPair_schedulePair st k⟩
  · rw [hstep]
    exact ⟨scheduleSPair_snd j st k, replacesPair_scheduleSPair j st k⟩

theorem foldl_range_add {α : Type} (g : α → Nat → α) (st : α) (a b : Nat) :
    (List.range (a + b)).foldl g st = (List.range b).foldl (fun st k => g st (a + k)) ((List.range a).foldl g st) := by
  rw [List.range_add, List.foldl_append, List.foldl_map]

/-- A nested loop is one loop over all its rounds. -/
theorem foldl_range_mul {α : Type} (g : α → Nat → α) (st : α) (a b : Nat) :
    (List.range (b * a)).foldl g st =
      (List.range a).foldl (fun st j => (List.range b).foldl (fun st k => g st (b * j + k)) st) st := by
  induction a with
  | zero => rfl
  | succ a ih => rw [Nat.mul_succ, foldl_range_add, ih, List.range_succ, List.foldl_append]; rfl

theorem foldl_finRange {α : Type} {n : Nat} (g : α → Nat → α) (st : α) :
    (List.finRange n).foldl (fun st (k : Fin n) => g st k.val) st = (List.range n).foldl g st := by
  rw [← List.map_coe_finRange_eq_range, List.foldl_map]

/-- The tables and the running block before encryption `m` of the schedule. -/
def scheduleBefore (key : List Byte) (m : Nat) : CipherTables × (Word × Word) :=
  (List.range m).foldl scheduleStep (keyedTables key, (0, 0))

theorem scheduleBefore_succ (key : List Byte) (m : Nat) :
    scheduleBefore key (m + 1) = scheduleStep (scheduleBefore key m) m := by
  rw [scheduleBefore, List.range_succ, List.foldl_concat, scheduleBefore]

/-- The schedule's loops are one chain of 9 + 4 * 128 encryptions. -/
theorem keySchedule_eq_scheduleBefore (key : List Byte) : keySchedule key = (scheduleBefore key 521).1 := by
  rw [scheduleBefore, show 521 = 9 + 128 * 4 from rfl, foldl_range_add, foldl_range_mul, ← foldl_finRange (n := 9),
    ← foldl_finRange (n := 4)]
  simp only [← foldl_finRange (n := 128), scheduleStep_p, scheduleStep_s]
  rfl

/-! What each command does. -/

theorem exec_bfKey (a b : XReg) (s : State) :
    exec (.bfKey a b) s =
      if s.natX b < 1 ∨ 56 < s.natX b then .next (s.faultEntry .bfKeylen (s.getX b))
      else if s.inRange (s.natX a) (s.natX b) then
        .next { s.advance with tables := keySchedule (s.memRead (s.natX a) (s.natX b)), keyed := true }
      else .next (s.faultEntry .memRange (s.getX a)) := rfl

theorem exec_bfEnc (a b : XReg) (s : State) : exec (.bfEnc a b) s = cryptBuffer encBlock a b s := rfl

theorem exec_bfDec (a b : XReg) (s : State) : exec (.bfDec a b) s = cryptBuffer decBlock a b s := rfl

section
variable {f : CipherTables → List Byte → List Byte} {a b : XReg} {s : State}

theorem cryptBuffer_of_not_keyed (hkeyed : s.keyed = false) :
    cryptBuffer f a b s = .next (s.faultEntry .bfNokey 0) := if_pos hkeyed

theorem cryptBuffer_of_partial_block (hkeyed : s.keyed = true) (hlen : s.natX b % 8 ≠ 0) :
    cryptBuffer f a b s = .next (s.faultEntry .bfBlocklen (s.getX b)) := by
  rw [cryptBuffer, if_neg (by simp [hkeyed]), if_pos hlen, raise_eq]

theorem cryptBuffer_of_lt (hkeyed : s.keyed = true) (hlen : s.natX b % 8 = 0)
    (hpast : s.cfg.memSize < s.natX a + s.natX b) :
    cryptBuffer f a b s = .next (s.faultEntry .memRange (s.getX a)) := by
  rw [cryptBuffer, if_neg (by simp [hkeyed]), if_neg (not_not.mpr hlen), if_neg (State.not_inRange_of_lt hpast),
    raise_eq]

theorem cryptBuffer_of_le (hkeyed : s.keyed = true) (hlen : s.natX b % 8 = 0)
    (hin : s.natX a + s.natX b ≤ s.cfg.memSize) :
    cryptBuffer f a b s =
      .next { s.advance with mem := cryptBlocks (f s.tables) (s.natX b / 8) (s.natX a) s.mem } := by
  rw [cryptBuffer, if_neg (by simp [hkeyed]), if_neg (not_not.mpr hlen), if_pos (State.inRange_of_le hin)]

end

/-- What BF.ENC and BF.DEC share (R312, R314), of a command `i` over the buffer in `X[a]` and `X[b]` with the block
function `f` and its subkeys in their order of use. -/
def cryptsInPlace (i : Instr) (f : CipherTables → List Byte → List Byte) (key : CipherTables → Fin 18 → Word)
    (a b : XReg) : Prop :=
  ∀ s : State,
    (s.keyed = false → ∃ t, exec i s = .next t ∧ onlyFault 9 0 s t) ∧
    (s.keyed = true → s.natX b % 8 ≠ 0 → ∃ t, exec i s = .next t ∧ onlyFault 10 (s.getX b) s t) ∧
    (s.keyed = true → s.natX b % 8 = 0 → s.cfg.memSize < s.natX a + s.natX b →
      ∃ t, exec i s = .next t ∧ onlyFault 4 (s.getX a) s t) ∧
    (s.keyed = true → s.natX b % 8 = 0 → s.natX a + s.natX b ≤ s.cfg.memSize →
      ∃ t, exec i s = .next t ∧
        keepsX s t ∧ keepsB s t ∧ keepsHash s t ∧ keepsCipher s t ∧ continuesAt (s.cp + 8) s t ∧
        (∀ k, k < s.natX b / 8 →
          t.memRead (s.natX a + 8 * k) 8 = f s.tables (s.memRead (s.natX a + 8 * k) 8) ∧
          blockThrough s.tables (key s.tables) (s.memRead (s.natX a + 8 * k) 8) (t.memRead (s.natX a + 8 * k) 8)) ∧
        ∀ n, n < s.natX a ∨ s.natX a + s.natX b ≤ n → t.byteAt n = s.byteAt n)

/-- A command that is `cryptBuffer` of a block function taking each block through the network crypts its buffer in
place. -/
theorem cryptsInPlace_of_exec {i : Instr} {f : CipherTables → List Byte → List Byte}
    {key : CipherTables → Fin 18 → Word} {a b : XReg} (hexec : ∀ s, exec i s = cryptBuffer f a b s)
    (hlength : ∀ t blk, (f t blk).length = 8)
    (hthrough : ∀ t {blk : List Byte}, blk.length = 8 → blockThrough t (key t) blk (f t blk)) :
    cryptsInPlace i f key a b := by
  intro s
  rw [hexec]
  refine ⟨fun hkeyed => ?_, fun hkeyed hlen => ?_, fun hkeyed hlen hpast => ?_, fun hkeyed hlen hin => ?_⟩
  · exact ⟨_, cryptBuffer_of_not_keyed hkeyed, onlyFault_faultEntry s .bfNokey 0⟩
  · exact ⟨_, cryptBuffer_of_partial_block hkeyed hlen, onlyFault_faultEntry s .bfBlocklen _⟩
  · exact ⟨_, cryptBuffer_of_lt hkeyed hlen hpast, onlyFault_faultEntry s .memRange _⟩
  · obtain ⟨hx, hb, -, hhash, hcipher, hcontinues⟩ := onlyCp_advance s
    obtain ⟨hblocks, houtside⟩ :=
      cryptBlocks_read (f s.tables) (hlength s.tables) (s.natX b / 8) (s.natX a) s.mem
    refine ⟨_, cryptBuffer_of_le hkeyed hlen hin, hx, hb, hhash, hcipher, hcontinues, fun k hk => ?_,
      fun n hn => houtside n (by omega)⟩
    have hblock := hblocks k hk
    refine ⟨hblock, ?_⟩
    rw [State.memRead, State.memRead, hblock]
    exact hthrough s.tables (Memory.length_readBytes _ _ _)

theorem cryptsInPlace_bfEnc (a b : XReg) : cryptsInPlace (.bfEnc a b) encBlock (fun t i => t.p[i]) a b :=
  cryptsInPlace_of_exec (exec_bfEnc a b) (fun _ _ => length_halvesBlock _) blockThrough_encBlock

theorem cryptsInPlace_bfDec (a b : XReg) : cryptsInPlace (.bfDec a b) decBlock (fun t i => t.p[i.rev]) a b :=
  cryptsInPlace_of_exec (exec_bfDec a b) (fun _ _ => length_halvesBlock _) blockThrough_decBlock

/-! The statements. -/

/-- Settles O34: the chain of encryptions gives the tables and blocks, and the index `m % key.length` is the walk. -/
theorem keyScheduleCyclesTheKey : Obligations.KeyScheduleCyclesTheKey := by
  refine ⟨by decide +kernel, fun key hpos _ => ?_, fun key key' _ _ _ _ => keySchedule_eq_of_cycled_eq,
    fun key hpos _ => keySchedule_eq_of_cycled_eq fun m _ => getD_append_self_mod key m hpos⟩
  refine ⟨fun m => m % key.length, fun m => (scheduleBefore key m).1, fun m => (scheduleBefore key m).2,
    Nat.zero_mod _, fun m => (Nat.mod_add_mod m _ 1).symm, fun i => ?_, keyedTables_s key, rfl, fun m hm => ?_,
    keySchedule_eq_scheduleBefore key⟩
  · rw [← keyWord_eq_sum, ← keyedTables_p]
    rfl
  · obtain ⟨hblock, hpair⟩ := scheduleStep_spec (scheduleBefore key m) hm
    simp only [scheduleBefore_succ, hblock]
    exact ⟨feistel_encWords _ _, hpair⟩

/-- Settles O32: the block function is encryption, with the subkeys from the first to the last. -/
theorem bfEncEncryptsInPlace : Obligations.BfEncEncryptsInPlace := fun a b =>
  ⟨encode_toNat (.bfEnc a b), cryptsInPlace_bfEnc a b⟩

/-- Settles O33: the block function is decryption, with the subkeys from the last to the first. -/
theorem bfDecDecryptsInPlace : Obligations.BfDecDecryptsInPlace := fun a b =>
  ⟨encode_toNat (.bfDec a b), cryptsInPlace_bfDec a b⟩

/-- Settles O31: BF.KEY's two checks in their order, then the schedule of the bytes. -/
theorem bfKeyKeysTheCipher : Obligations.BfKeyKeysTheCipher := by
  intro a b
  refine ⟨encode_toNat (.bfKey a b), fun s => ?_⟩
  rw [exec_bfKey]
  refine ⟨fun hlen => ?_, fun hpos hle hpast => ?_, fun hpos hle hin => ?_⟩
  · rw [if_pos hlen]
    exact ⟨_, rfl, onlyFault_faultEntry s .bfKeylen _⟩
  · rw [if_neg (by omega), if_neg (State.not_inRange_of_lt hpast)]
    exact ⟨_, rfl, onlyFault_faultEntry s .memRange _⟩
  · rw [if_neg (by omega), if_pos (State.inRange_of_le hin), State.memRead_eq_map_byteAt]
    exact ⟨_, rfl, onlyCipher_key s _⟩

end Sys2Proof.Machine
end

section
/-! SUPPORT. The codec's decoder (44_codec.md R340 to R344): the token forms by their command bytes with the format's own
formulas, what a literal and a back-reference do, the loop over tokens, and then the statements about them. -/

namespace Sys2Proof.Machine

/-! Literals (R341, R344). -/

/-- Bytes that do not all fit fill the output to the capacity. -/
theorem lzPutAll_of_full {cap : Nat} {out xs : List Byte} (hout : out.length ≤ cap)
    (hfull : cap < out.length + xs.length) : lzPutAll cap out xs = (false, out ++ xs.take (cap - out.length)) := by
  induction xs generalizing out with
  | nil => simp only [List.length_nil] at hfull; omega
  | cons x xs ih =>
    simp only [List.length_cons] at hfull
    rw [lzPutAll]
    split_ifs with hcap
    · rw [hcap, Nat.sub_self, List.take_zero, List.append_nil]
    · have hroom : cap - out.length = cap - (out ++ [x]).length + 1 := by simp; omega
      rw [ih (by simp; omega) (by simp; omega), hroom, List.take_succ_cons, List.append_assoc, List.singleton_append]

theorem lzLiteral_of_truncated {count : Nat} {rest : List Byte} (h : rest.length < count) (cap : Nat)
    (out : List Byte) : lzLiteral cap count rest out = .stop (.invalid out) :=
  if_pos h

theorem lzLiteral_of_fits {cap count : Nat} {rest out : List Byte} (hdata : count ≤ rest.length)
    (hfits : out.length + count ≤ cap) :
    lzLiteral cap count rest out = .go (rest.drop count) (out ++ rest.take count) := by
  rw [lzLiteral, if_neg (by omega), lzPutAll_of_fits _ _ _ (by rwa [List.length_take_of_le hdata]), if_pos rfl]

theorem lzLiteral_of_full {cap count : Nat} {rest out : List Byte} (hout : out.length ≤ cap)
    (hdata : count ≤ rest.length) (hfull : cap < out.length + count) :
    lzLiteral cap count rest out = .stop (.small (out ++ rest.take (cap - out.length))) := by
  rw [lzLiteral, if_neg (by omega), lzPutAll_of_full hout (by rwa [List.length_take_of_le hdata]),
    if_neg Bool.false_ne_true, List.take_take, Nat.min_eq_left (by omega)]

theorem lzLiteral_eq_go_iff {cap count : Nat} {rest out rest' out' : List Byte} :
    lzLiteral cap count rest out = .go rest' out' ↔
      count ≤ rest.length ∧ rest.drop count = rest' ∧ lzPutAll cap out (rest.take count) = (true, out') := by
  simp only [lzLiteral]
  split_ifs with htruncated hput
  · exact iff_of_false nofun fun ⟨hdata, _⟩ => by omega
  · simp [Prod.ext_iff, hput, Nat.le_of_not_lt htruncated]
  · simp [Prod.ext_iff, hput]

theorem lzLiteral_ne_stop_ok (cap count : Nat) (rest out out' : List Byte) :
    lzLiteral cap count rest out ≠ .stop (.ok out') := by
  simp only [lzLiteral]
  split_ifs <;> nofun

/-! Back-references (R343, R344). -/

/-- Each byte of `ext`, behind `out`, equals the byte `offset` before it. -/
def copiesBack (offset : Nat) (out ext : List Byte) : Prop :=
  ∀ j, j < ext.length → (out ++ ext).getD (out.length + j) 0 = (out ++ ext).getD (out.length + j - offset) 0

theorem copiesBack_cons {offset : Nat} {out ext : List Byte} (hpos : 1 ≤ offset) (hle : offset ≤ out.length)
    (hext : copiesBack offset (out ++ [out.getD (out.length - offset) 0]) ext) :
    copiesBack offset out (out.getD (out.length - offset) 0 :: ext) := by
  intro j hj
  cases j with
  | zero =>
    rw [Nat.add_zero, List.getD_append_right _ _ _ _ le_rfl, List.getD_append _ _ _ _ (by omega), Nat.sub_self,
      List.getD_cons_zero]
  | succ j =>
    have h := hext j (Nat.lt_of_succ_lt_succ hj)
    rwa [List.append_assoc, List.singleton_append, List.length_append, List.length_singleton, Nat.add_assoc,
      Nat.add_comm 1 j] at h

/-- The copy goes on until it is done or the output is full, and copies back throughout. -/
theorem lzCopy_spec {cap offset : Nat} (n : Nat) {out : List Byte} (hpos : 1 ≤ offset) (hle : offset ≤ out.length)
    (hout : out.length ≤ cap) :
    ∃ ext, lzCopy cap offset n out = (decide (out.length + n ≤ cap), out ++ ext) ∧
      ext.length = min n (cap - out.length) ∧ copiesBack offset out ext := by
  induction n generalizing out with
  | zero => exact ⟨[], by simp [lzCopy, hout], by simp, nofun⟩
  | succ n ih =>
    rw [lzCopy]
    split_ifs with hcap
    · exact ⟨[], by simp; omega, by simp; omega, nofun⟩
    · obtain ⟨ext, hcopy, hlength, hback⟩ := ih (out := out ++ [out.getD (out.length - offset) 0])
        (by simp; omega) (by simp; omega)
      simp only [List.length_append, List.length_singleton] at hcopy hlength
      refine ⟨_ :: ext, ?_, ?_, copiesBack_cons hpos hle hback⟩
      · rw [hcopy, List.append_assoc, List.singleton_append, Nat.add_assoc, Nat.add_comm 1 n]
      · rw [List.length_cons, hlength]
        omega

theorem lzBackRef_of_badOffset {offset : Nat} {out : List Byte} (h : offset = 0 ∨ out.length < offset)
    (cap count : Nat) (rest : List Byte) : lzBackRef cap count offset rest out = .stop (.invalid out) :=
  if_pos h

theorem lzBackRef_of_fits {cap count offset : Nat} {out : List Byte} (hpos : 1 ≤ offset) (hle : offset ≤ out.length)
    (hfits : out.length + count ≤ cap) (rest : List Byte) :
    ∃ ext, lzBackRef cap count offset rest out = .go rest (out ++ ext) ∧ ext.length = count ∧
      copiesBack offset out ext := by
  obtain ⟨ext, hcopy, hlength, hback⟩ := lzCopy_spec count hpos hle (by omega : out.length ≤ cap)
  refine ⟨ext, ?_, by omega, hback⟩
  rw [lzBackRef, if_neg (by omega), hcopy, if_pos (decide_eq_true hfits)]

theorem lzBackRef_of_full {cap count offset : Nat} {out : List Byte} (hpos : 1 ≤ offset) (hle : offset ≤ out.length)
    (hout : out.length ≤ cap) (hfull : cap < out.length + count) (rest : List Byte) :
    ∃ ext, lzBackRef cap count offset rest out = .stop (.small (out ++ ext)) ∧ (out ++ ext).length = cap ∧
      copiesBack offset out ext := by
  obtain ⟨ext, hcopy, hlength, hback⟩ := lzCopy_spec count hpos hle hout
  refine ⟨ext, ?_, by rw [List.length_append]; omega, hback⟩
  rw [lzBackRef, if_neg (by omega), hcopy, if_neg (by simp; omega)]

theorem lzBackRef_eq_go_iff {cap count offset : Nat} {rest out rest' out' : List Byte} :
    lzBackRef cap count offset rest out = .go rest' out' ↔
      ¬(offset = 0 ∨ out.length < offset) ∧ rest = rest' ∧ lzCopy cap offset count out = (true, out') := by
  simp only [lzBackRef]
  split_ifs with hbad hcopy
  · exact iff_of_false nofun fun ⟨hgood, _⟩ => hgood hbad
  · simp [Prod.ext_iff, hcopy, hbad]
  · simp [Prod.ext_iff, hcopy]

theorem lzBackRef_ne_stop_ok (cap count offset : Nat) (rest out out' : List Byte) :
    lzBackRef cap count offset rest out ≠ .stop (.ok out') := by
  simp only [lzBackRef]
  split_ifs <;> nofun

/-! The token forms by their command bytes (R340). -/

/-- The low six bits, the count field of both literal forms. -/
theorem and_0x3F (k : Nat) : k &&& 0x3F = k % 64 := Nat.and_two_pow_sub_one_eq_mod k 6

/-- A high part beside a low byte is the high part times 256 and the byte. -/
theorem shiftLeft_or_byte (high : Nat) (lo : Byte) : high <<< 8 ||| lo.toNat = high * 256 + lo.toNat := by
  rw [← Nat.shiftLeft_add_eq_or_of_lt lo.isLt, Nat.shiftLeft_eq]

section
variable (cap : Nat) {cmd : Byte} (lo : Byte) (rest out : List Byte)

theorem lzToken_endMarker (h : cmd.toNat = 0) : lzToken cap cmd rest out = .stop (.ok out) := if_pos h

theorem lzToken_shortLiteral (hlow : 0x80 ≤ cmd.toNat) (hhigh : cmd.toNat ≤ 0xBF) :
    lzToken cap cmd rest out = lzLiteral cap ((cmd.toNat &&& 0x3F) + 1) rest out := by
  rw [lzToken.eq_def, if_neg (by omega), if_neg (by omega), if_pos hlow, and_0x3F]

theorem lzToken_longLiteral (h : 0xC0 ≤ cmd.toNat) :
    lzToken cap cmd (lo :: rest) out = lzLiteral cap (((cmd.toNat &&& 0x3F) <<< 8 ||| lo.toNat) + 1) rest out := by
  rw [lzToken, if_neg (by omega), if_pos h, shiftLeft_or_byte, and_0x3F]

theorem lzToken_backRef (hpos : 1 ≤ cmd.toNat) (hhigh : cmd.toNat ≤ 0x7F) :
    lzToken cap cmd (lo :: rest) out =
      lzBackRef cap (((cmd.toNat >>> 4) &&& 0x07) + 3) ((cmd.toNat &&& 0x0F) <<< 8 ||| lo.toNat) rest out := by
  have hcount : (cmd.toNat >>> 4) &&& 0x07 = cmd.toNat / 16 % 8 := by
    rw [Nat.shiftRight_eq_div_pow]
    exact Nat.and_two_pow_sub_one_eq_mod _ 3
  have hoffset : cmd.toNat &&& 0x0F = cmd.toNat % 16 := Nat.and_two_pow_sub_one_eq_mod _ 4
  rw [lzToken, if_neg (by omega), if_neg (by omega), if_neg (by omega), hcount, shiftLeft_or_byte, hoffset]

theorem lzToken_missingLo (h : (1 ≤ cmd.toNat ∧ cmd.toNat ≤ 0x7F) ∨ 0xC0 ≤ cmd.toNat) :
    lzToken cap cmd [] out = .stop (.invalid out) := by
  rcases h with ⟨hpos, hhigh⟩ | hlong
  · rw [lzToken, if_neg (by omega), if_neg (by omega), if_neg (by omega)]
  · rw [lzToken, if_neg (by omega), if_pos hlong]

end

/-- A token is the end marker, lacks its `lo`, or is a literal or a back-reference over what follows its header `pre`,
whatever that is. -/
theorem lzToken_cases (cap : Nat) (cmd : Byte) (rest out : List Byte) :
    (cmd.toNat = 0 ∧ lzToken cap cmd rest out = .stop (.ok out)) ∨
    lzToken cap cmd rest out = .stop (.invalid out) ∨
    (∃ pre data count, rest = pre ++ data ∧
      ∀ data', lzToken cap cmd (pre ++ data') out = lzLiteral cap count data' out) ∨
    (∃ pre data count offset, rest = pre ++ data ∧
      ∀ data', lzToken cap cmd (pre ++ data') out = lzBackRef cap count offset data' out) := by
  have hforms : cmd.toNat = 0 ∨ (0x80 ≤ cmd.toNat ∧ cmd.toNat ≤ 0xBF) ∨
      ((1 ≤ cmd.toNat ∧ cmd.toNat ≤ 0x7F) ∨ 0xC0 ≤ cmd.toNat) := by omega
  rcases hforms with hzero | ⟨hlow, hhigh⟩ | hlo
  · exact .inl ⟨hzero, lzToken_endMarker cap rest out hzero⟩
  · exact .inr (.inr (.inl ⟨[], rest, _, rfl, fun data' => lzToken_shortLiteral cap data' out hlow hhigh⟩))
  · cases rest with
    | nil => exact .inr (.inl (lzToken_missingLo cap out hlo))
    | cons lo rest =>
      rcases hlo with ⟨hpos, hhigh⟩ | hlong
      · exact .inr (.inr (.inr ⟨[lo], rest, _, _, rfl, fun data' => lzToken_backRef cap lo data' out hpos hhigh⟩))
      · exact .inr (.inr (.inl ⟨[lo], rest, _, rfl, fun data' => lzToken_longLiteral cap lo data' out hlong⟩))

/-- A token after which decoding goes on takes the bytes `used` off the input and does so whatever follows them. -/
theorem exists_used_of_lzToken_go {cap : Nat} {cmd : Byte} {rest out rest' out' : List Byte}
    (h : lzToken cap cmd rest out = .go rest' out') :
    ∃ used, rest = used ++ rest' ∧ ∀ tail, lzToken cap cmd (used ++ tail) out = .go tail out' := by
  rcases lzToken_cases cap cmd rest out with ⟨-, hend⟩ | hlo | ⟨pre, data, count, rfl, hlit⟩ |
    ⟨pre, data, count, offset, rfl, href⟩
  · cases h.symm.trans hend
  · cases h.symm.trans hlo
  · obtain ⟨hdata, rfl, hput⟩ := lzLiteral_eq_go_iff.mp ((hlit data).symm.trans h)
    have hlength : (data.take count).length = count := List.length_take_of_le hdata
    refine ⟨pre ++ data.take count, by rw [List.append_assoc, List.take_append_drop], fun tail => ?_⟩
    rw [List.append_assoc, hlit, lzLiteral_eq_go_iff]
    exact ⟨by simp [hdata], List.drop_left' hlength, by rwa [List.take_left' hlength]⟩
  · obtain ⟨hgood, rfl, hcopy⟩ := lzBackRef_eq_go_iff.mp ((href data).symm.trans h)
    exact ⟨pre, rfl, fun tail => (href tail).trans (lzBackRef_eq_go_iff.mpr ⟨hgood, rfl, hcopy⟩)⟩

/-- Only the end marker ends the decoding with success. -/
theorem eq_endMarker_of_lzToken_ok {cap : Nat} {cmd : Byte} {rest out out' : List Byte}
    (h : lzToken cap cmd rest out = .stop (.ok out')) : cmd.toNat = 0 ∧ out = out' := by
  rcases lzToken_cases cap cmd rest out with ⟨hzero, hend⟩ | hlo | ⟨pre, data, count, rfl, hlit⟩ |
    ⟨pre, data, count, offset, rfl, href⟩
  · cases h.symm.trans hend
    exact ⟨hzero, rfl⟩
  · cases h.symm.trans hlo
  · exact absurd ((hlit data).symm.trans h) (lzLiteral_ne_stop_ok cap count data out out')
  · exact absurd ((href data).symm.trans h) (lzBackRef_ne_stop_ok cap count offset data out out')

/-! The loop over tokens (R341, R342). -/

/-- Rounds beyond the length of the input change nothing. -/
theorem lzDecodeLoop_rounds (cap n m : Nat) {src : List Byte} (out : List Byte) (hn : src.length ≤ n)
    (hm : src.length ≤ m) : lzDecodeLoop cap n src out = lzDecodeLoop cap m src out := by
  induction n generalizing m src out with
  | zero =>
    rw [List.eq_nil_of_length_eq_zero (Nat.le_zero.mp hn), lzDecodeLoop, lzDecodeLoop]
  | succ n ih =>
    match src, m with
    | [], _ => rw [lzDecodeLoop, lzDecodeLoop]
    | cmd :: rest, m + 1 =>
      rw [lzDecodeLoop, lzDecodeLoop]
      cases htoken : lzToken cap cmd rest out with
      | stop r => rfl
      | go rest' out' =>
        obtain ⟨used, rfl, -⟩ := exists_used_of_lzToken_go htoken
        simp only [List.length_cons, List.length_append] at hn hm
        exact ih m out' (by omega) (by omega)

/-- The decoder on the rest `src` of the input, with the output `out` so far. -/
def lzDecodeFrom (cap : Nat) (src out : List Byte) : LzResult := lzDecodeLoop cap src.length src out

theorem lzDecode_eq_lzDecodeFrom (src : List Byte) (cap : Nat) : lzDecode src cap = lzDecodeFrom cap src [] := rfl

theorem lzDecodeFrom_nil (cap : Nat) (out : List Byte) : lzDecodeFrom cap [] out = .ok out := by
  rw [lzDecodeFrom, lzDecodeLoop]

theorem lzDecodeFrom_of_stop {cap : Nat} {cmd : Byte} {rest out : List Byte} {r : LzResult}
    (h : lzToken cap cmd rest out = .stop r) : lzDecodeFrom cap (cmd :: rest) out = r := by
  rw [lzDecodeFrom, List.length_cons, lzDecodeLoop, h]

theorem lzDecodeFrom_of_go {cap : Nat} {cmd : Byte} {rest out rest' out' : List Byte}
    (h : lzToken cap cmd rest out = .go rest' out') :
    lzDecodeFrom cap (cmd :: rest) out = lzDecodeFrom cap rest' out' := by
  obtain ⟨used, hrest, -⟩ := exists_used_of_lzToken_go h
  rw [lzDecodeFrom, List.length_cons, lzDecodeLoop, h]
  exact lzDecodeLoop_rounds cap _ _ out' (by rw [hrest, List.length_append]; omega) le_rfl

theorem lzDecodeFrom_endMarker (cap : Nat) (tail out : List Byte) :
    lzDecodeFrom cap (0x00 :: tail) out = .ok out :=
  lzDecodeFrom_of_stop (lzToken_endMarker cap tail out rfl)

/-- Behind a stream that decodes, an end marker and anything after it change nothing. -/
theorem lzDecodeFrom_append_endMarker {cap : Nat} {src out out' : List Byte}
    (h : lzDecodeFrom cap src out = .ok out') (tail : List Byte) :
    lzDecodeFrom cap (src ++ 0x00 :: tail) out = .ok out' := by
  match src with
  | [] => rwa [List.nil_append, lzDecodeFrom_endMarker, ← lzDecodeFrom_nil cap]
  | cmd :: rest =>
    rw [List.cons_append]
    cases htoken : lzToken cap cmd rest out with
    | stop r =>
      rw [lzDecodeFrom_of_stop htoken] at h
      obtain ⟨hzero, rfl⟩ := eq_endMarker_of_lzToken_ok (htoken.trans (congrArg LzToken.stop h))
      exact lzDecodeFrom_of_stop (lzToken_endMarker cap _ out hzero)
    | go rest' out1 =>
      obtain ⟨used, hrest, hused⟩ := exists_used_of_lzToken_go htoken
      have hshorter : rest'.length ≤ rest.length := by rw [hrest, List.length_append]; omega
      rw [lzDecodeFrom_of_go htoken] at h
      rw [hrest, List.append_assoc, lzDecodeFrom_of_go (hused _)]
      exact lzDecodeFrom_append_endMarker h tail
termination_by src.length

/-! The statements. -/

/-- Settles O37: each form is a literal or a back-reference, and those append their bytes where they fit. -/
theorem lzTokensFollowTheFormat : Obligations.LzTokensFollowTheFormat := by
  intro cap cmd lo rest out
  refine ⟨lzToken_endMarker cap rest out, fun hlow hhigh hdata hfits => ?_, fun hlong hdata hfits => ?_,
    fun hpos hhigh => ?_⟩
  · rw [lzToken_shortLiteral cap rest out hlow hhigh, lzLiteral_of_fits hdata hfits]
  · rw [lzToken_longLiteral cap lo rest out hlong, lzLiteral_of_fits hdata hfits]
  · rw [lzToken_backRef cap lo rest out hpos hhigh]
    refine ⟨fun hbad => lzBackRef_of_badOffset hbad cap _ rest, fun hoffset hle hfits => ?_⟩
    obtain ⟨ext, hgo, hlength, hback⟩ := lzBackRef_of_fits hoffset hle hfits rest
    exact ⟨ext, hgo, hlength, fun j hj => hback j (hlength.symm ▸ hj)⟩

/-- Settles O38: the same forms where `lo`, data bytes or room in the output are missing. -/
theorem lzTokenErrors : Obligations.LzTokenErrors := by
  intro cap cmd lo rest out hout
  refine ⟨lzToken_missingLo cap out, fun hlow hhigh => ?_, fun hlong => ?_, fun hpos hhigh => ?_⟩
  · rw [lzToken_shortLiteral cap rest out hlow hhigh]
    exact ⟨fun h => lzLiteral_of_truncated h cap out, lzLiteral_of_full hout⟩
  · rw [lzToken_longLiteral cap lo rest out hlong]
    exact ⟨fun h => lzLiteral_of_truncated h cap out, lzLiteral_of_full hout⟩
  · rw [lzToken_backRef cap lo rest out hpos hhigh]
    exact ⟨fun hbad => lzBackRef_of_badOffset hbad cap _ rest,
      fun hoffset hle hfull => lzBackRef_of_full hoffset hle hout hfull rest⟩

/-- Settles O39: the loop's equations, and the induction over the tokens for a stream with an end marker behind it. -/
theorem lzDecoderStops : Obligations.LzDecoderStops := fun cap =>
  ⟨lzDecodeFrom_nil cap [], fun tail => lzDecodeFrom_endMarker cap tail [],
    fun _ _ hok tail => lzDecodeFrom_append_endMarker hok tail, fun src => lzDecode_eq_lzDecodeFrom src cap,
    fun out => ⟨lzDecodeFrom_nil cap out, fun tail => lzDecodeFrom_endMarker cap tail out,
      fun _ _ => ⟨fun _ => lzDecodeFrom_of_stop, fun _ _ => lzDecodeFrom_of_go⟩⟩⟩

end Sys2Proof.Machine
end

section
/-! SUPPORT. What LZ.DEC and LZ.ENC share (44_codec.md R345, R348, R355): the checks in their order, then the codec
function's result, and then the statement about LZ.DEC. -/

namespace Sys2Proof.Machine

theorem rangesOverlap_iff (a m b n : Nat) :
    rangesOverlap a m b n = true ↔ ∃ i, (a ≤ i ∧ i < a + m) ∧ (b ≤ i ∧ i < b + n) := by
  simp only [rangesOverlap, Bool.and_eq_true, decide_eq_true_eq]
  refine ⟨fun h => ⟨max a b, by omega⟩, ?_⟩
  rintro ⟨i, hsrc, hdst⟩
  omega

/-- How an LZ command ends with its function's result `r`: the output is written at `X[d]`, and `X[a]` takes its length on
success only. -/
def codecEnd (a d : XReg) (s : State) (r : LzResult) : Host.Outcome State Fault Refusal :=
  match r with
  | .ok out => .next ((s.memWrite (s.natX d) out).setX a (word out.length)).advance
  | .invalid out => .next ((s.memWrite (s.natX d) out).faultEntry .lzInvalidData (word out.length))
  | .small out => .next ((s.memWrite (s.natX d) out).faultEntry .lzBufferTooSmall (word out.length))

section
variable {f : List Byte → Nat → LzResult} {a b c d e : XReg} {s : State}

theorem codecCommand_of_source_lt (hsrc : s.cfg.memSize < s.natX b + s.natX c) :
    codecCommand f a b c d e s = .next (s.faultEntry .memRange (s.getX b)) := by
  rw [codecCommand, if_pos (by simp [State.inRange_of_lt hsrc]), raise_eq]

theorem codecCommand_of_destination_lt (hsrc : s.natX b + s.natX c ≤ s.cfg.memSize)
    (hdst : s.cfg.memSize < s.natX d + s.natX e) :
    codecCommand f a b c d e s = .next (s.faultEntry .memRange (s.getX d)) := by
  rw [codecCommand, if_neg (by simp [State.inRange_of_le hsrc]), if_pos (by simp [State.inRange_of_lt hdst]), raise_eq]

theorem codecCommand_of_overlap (hsrc : s.natX b + s.natX c ≤ s.cfg.memSize)
    (hdst : s.natX d + s.natX e ≤ s.cfg.memSize)
    (hoverlap : rangesOverlap (s.natX b) (s.natX c) (s.natX d) (s.natX e) = true) :
    codecCommand f a b c d e s = .next (s.faultEntry .lzOverlap 0) := by
  rw [codecCommand, if_neg (by simp [State.inRange_of_le hsrc]), if_neg (by simp [State.inRange_of_le hdst]),
    if_pos hoverlap, raise_eq]

theorem codecCommand_of_disjoint (hsrc : s.natX b + s.natX c ≤ s.cfg.memSize)
    (hdst : s.natX d + s.natX e ≤ s.cfg.memSize)
    (hdisjoint : ¬rangesOverlap (s.natX b) (s.natX c) (s.natX d) (s.natX e) = true) :
    codecCommand f a b c d e s = codecEnd a d s (f (s.memRead (s.natX b) (s.natX c)) (s.natX e)) := by
  rw [codecCommand, if_neg (by simp [State.inRange_of_le hsrc]), if_neg (by simp [State.inRange_of_le hdst]),
    if_neg hdisjoint]
  cases f (s.memRead (s.natX b) (s.natX c)) (s.natX e) <;> rfl

end

/-- The checks in their order and the three results, of a command `i` with the codec function `f` (R345, R346). -/
def runsCodec (i : Instr) (f : List Byte → Nat → LzResult) (a b c d e : XReg) : Prop :=
  ∀ s : State,
    (s.cfg.memSize < s.natX b + s.natX c → ∃ t, exec i s = .next t ∧ onlyFault 4 (s.getX b) s t) ∧
    (s.natX b + s.natX c ≤ s.cfg.memSize → s.cfg.memSize < s.natX d + s.natX e →
      ∃ t, exec i s = .next t ∧ onlyFault 4 (s.getX d) s t) ∧
    (s.natX b + s.natX c ≤ s.cfg.memSize → s.natX d + s.natX e ≤ s.cfg.memSize →
      (∃ k, (s.natX b ≤ k ∧ k < s.natX b + s.natX c) ∧ (s.natX d ≤ k ∧ k < s.natX d + s.natX e)) →
      ∃ t, exec i s = .next t ∧ onlyFault 13 0 s t) ∧
    (s.natX b + s.natX c ≤ s.cfg.memSize → s.natX d + s.natX e ≤ s.cfg.memSize →
      (¬∃ k, (s.natX b ≤ k ∧ k < s.natX b + s.natX c) ∧ (s.natX d ≤ k ∧ k < s.natX d + s.natX e)) → ∀ out,
      let r := f ((List.range (s.natX c)).map fun k => s.byteAt (s.natX b + k)) (s.natX e)
      (r = .ok out → ∃ t, exec i s = .next t ∧ onlyMemX (s.natX d) out a (BitVec.ofNat 32 out.length) s t) ∧
      (r = .invalid out → ∃ t, exec i s = .next t ∧
        entersFault 11 (BitVec.ofNat 32 out.length) s t ∧ writesMem (s.natX d) out s t) ∧
      (r = .small out → ∃ t, exec i s = .next t ∧
        entersFault 12 (BitVec.ofNat 32 out.length) s t ∧ writesMem (s.natX d) out s t))

/-- A command that is `codecCommand` of a function runs that function. -/
theorem runsCodec_of_exec {i : Instr} {f : List Byte → Nat → LzResult} {a b c d e : XReg}
    (hexec : ∀ s, exec i s = codecCommand f a b c d e s) : runsCodec i f a b c d e := by
  intro s
  rw [hexec, ← rangesOverlap_iff, ← State.memRead_eq_map_byteAt]
  refine ⟨fun hsrc => ?_, fun hsrc hdst => ?_, fun hsrc hdst hoverlap => ?_, fun hsrc hdst hdisjoint out => ?_⟩
  · exact ⟨_, codecCommand_of_source_lt hsrc, onlyFault_faultEntry s .memRange _⟩
  · exact ⟨_, codecCommand_of_destination_lt hsrc hdst, onlyFault_faultEntry s .memRange _⟩
  · exact ⟨_, codecCommand_of_overlap hsrc hdst hoverlap, onlyFault_faultEntry s .lzOverlap 0⟩
  · have hwrites := writesMem_memWrite s (s.natX d) out
    rw [codecCommand_of_disjoint hsrc hdst hdisjoint]
    refine ⟨fun hok => ?_, fun hinvalid => ?_, fun hsmall => ?_⟩
    · rw [hok]
      exact ⟨_, rfl, onlyMemX_memWrite s _ out a _⟩
    · rw [hinvalid]
      exact ⟨_, rfl, entersFault_memWrite s _ out .lzInvalidData _, hwrites⟩
    · rw [hsmall]
      exact ⟨_, rfl, entersFault_memWrite s _ out .lzBufferTooSmall _, hwrites⟩

theorem exec_lzDec (a b c d e : XReg) (s : State) :
    exec (.lzDec a b c d e) s = codecCommand lzDecode a b c d e s := rfl

theorem exec_lzEnc (a b c d e : XReg) (s : State) :
    exec (.lzEnc a b c d e) s = codecCommand lzEncode a b c d e s := rfl

theorem runsCodec_lzDec (a b c d e : XReg) : runsCodec (.lzDec a b c d e) lzDecode a b c d e :=
  runsCodec_of_exec (exec_lzDec a b c d e)

theorem runsCodec_lzEnc (a b c d e : XReg) : runsCodec (.lzEnc a b c d e) lzEncode a b c d e :=
  runsCodec_of_exec (exec_lzEnc a b c d e)

/-- Settles O35: the codec function is the decoder. -/
theorem lzDecDecompresses : Obligations.LzDecDecompresses := fun a b c d e =>
  ⟨encode_toNat (.lzDec a b c d e), runsCodec_lzDec a b c d e⟩

end Sys2Proof.Machine
end

section
/-! SUPPORT. The codec's encoder (44_codec.md R351 to R354): the match search finds the longest match, what the loop does at
each position, and then the statement about LZ.ENC. -/

namespace Sys2Proof.Machine

/-! The match search (R351). -/

theorem getD_toArray (src : List Byte) (i : Nat) : src.toArray.getD i 0 = src.getD i 0 := by
  simp [Array.getD_eq_getD_getElem?]

theorem matchesAt_of_le {src : List Byte} {pos off m n : Nat} (h : matchesAt src pos off n) (hle : m ≤ n) :
    matchesAt src pos off m :=
  fun k hk => h k (hk.trans_le hle)

theorem matchesAt_succ {src : List Byte} {pos off n : Nat} :
    matchesAt src pos off (n + 1) ↔
      matchesAt src pos off n ∧ src.getD (pos + n) 0 = src.getD (pos - off + n) 0 :=
  Nat.forall_lt_succ_right

/-- From a match of `m` bytes on, the inner loop counts the longest match of at most `m + n` bytes. -/
theorem le_lzMatchLen_iff {src : List Byte} {pos off m : Nat} (n len : Nat) (h : matchesAt src pos off m) :
    len ≤ lzMatchLen src.toArray pos off n m ↔ len ≤ m + n ∧ matchesAt src pos off len := by
  induction n generalizing m with
  | zero => exact ⟨fun hle => ⟨hle, matchesAt_of_le h hle⟩, And.left⟩
  | succ n ih =>
    rw [lzMatchLen, getD_toArray, getD_toArray]
    split_ifs with heq
    · rw [ih (matchesAt_succ.mpr ⟨h, heq⟩), Nat.add_right_comm, Nat.add_assoc]
    · refine ⟨fun hle => ⟨by omega, matchesAt_of_le h hle⟩, fun ⟨_, hlen⟩ => ?_⟩
      by_contra hgt
      exact heq (matchesAt_succ.mp (matchesAt_of_le hlen (Nat.lt_of_not_le hgt))).2

/-- The outer loop's invariant: `best` is the longest match of at most `maxlen` bytes with an offset below `bound`, of those
the one with the smallest offset, or `(0, 0)`. -/
structure BestBelow (src : List Byte) (pos maxlen bound : Nat) (best : Nat × Nat) : Prop where
  eq_zero : best.1 = 0 → best.2 = 0
  isMatch : 0 < best.1 → 1 ≤ best.2 ∧ best.2 < bound ∧ best.1 ≤ maxlen ∧ matchesAt src pos best.2 best.1
  longest : ∀ off len, 1 ≤ off → off < bound → len ≤ maxlen → matchesAt src pos off len →
    len ≤ best.1 ∧ (0 < best.1 → len = best.1 → best.2 ≤ off)

theorem bestBelow_one (src : List Byte) (pos maxlen : Nat) : BestBelow src pos maxlen 1 (0, 0) where
  eq_zero _ := rfl
  isMatch h := absurd h (Nat.lt_irrefl 0)
  longest _ _ hpos hlt := absurd hpos (Nat.not_le.mpr hlt)

/-- The next offset replaces the best where its match is strictly longer. -/
theorem bestBelow_succ {src : List Byte} {pos maxlen bound : Nat} {best : Nat × Nat} (hpos : 1 ≤ bound)
    (h : BestBelow src pos maxlen bound best) :
    let len := lzMatchLen src.toArray pos bound maxlen 0
    BestBelow src pos maxlen (bound + 1) (if best.1 < len then (len, bound) else best) := by
  intro len
  have hlen : ∀ l, l ≤ len ↔ l ≤ maxlen ∧ matchesAt src pos bound l := fun l => by
    rw [le_lzMatchLen_iff maxlen l fun k hk => absurd hk (Nat.not_lt_zero k), Nat.zero_add]
  split_ifs with hlonger
  · have hmatch := (hlen len).mp le_rfl
    refine ⟨fun hzero => ?_, fun _ => ⟨hpos, Nat.lt_succ_self bound, hmatch⟩, fun off l hoff hlt hmax hl => ?_⟩
    · exact absurd hlonger (by simp only at hzero; omega)
    · rcases Nat.lt_succ_iff_lt_or_eq.mp hlt with hbelow | rfl
      · have hle := (h.longest off l hoff hbelow hmax hl).1
        exact ⟨by simp only; omega, fun _ heq => by simp only at heq; omega⟩
      · exact ⟨(hlen l).mpr ⟨hmax, hl⟩, fun _ _ => le_rfl⟩
  · refine ⟨h.eq_zero, fun hbest => ?_, fun off l hoff hlt hmax hl => ?_⟩
    · obtain ⟨h1, hbound, hmatch⟩ := h.isMatch hbest
      exact ⟨h1, hbound.trans (Nat.lt_succ_self bound), hmatch⟩
    · rcases Nat.lt_succ_iff_lt_or_eq.mp hlt with hbelow | rfl
      · exact h.longest off l hoff hbelow hmax hl
      · have hle := (hlen l).mpr ⟨hmax, hl⟩
        exact ⟨by omega, fun hbest _ => (h.isMatch hbest).2.1.le⟩

theorem bestBelow_lzSearch {src : List Byte} {pos maxlen : Nat} (n : Nat) {bound : Nat} {best : Nat × Nat}
    (hpos : 1 ≤ bound) (h : BestBelow src pos maxlen bound best) :
    BestBelow src pos maxlen (bound + n) (lzSearch src.toArray pos maxlen n bound best) := by
  induction n generalizing bound best with
  | zero => exact h
  | succ n ih =>
    rw [← Nat.add_assoc, Nat.add_right_comm]
    exact ih (Nat.le_succ_of_le hpos) (bestBelow_succ hpos h)

/-- The search answers the longest match of R351. -/
theorem longestMatch_lzLongestMatch (src : List Byte) (pos : Nat) :
    longestMatch src pos (lzLongestMatch src.toArray pos).1 (lzLongestMatch src.toArray pos).2 := by
  simp only [lzLongestMatch, lzMinMatch, lzMaxMatch, lzWindow, List.size_toArray]
  split_ifs with hroom
  · have hbest := bestBelow_lzSearch (min 4095 pos) le_rfl (bestBelow_one src pos (min 10 (src.length - pos)))
    refine ⟨fun hshort => by omega, hbest.eq_zero, fun hlen => ?_, fun off len _ hoff hwindow hpos hmax hend hmatch => ?_⟩
    · obtain ⟨hoff, hbound, hmax, hmatch⟩ := hbest.isMatch hlen
      exact ⟨hoff, by omega, by omega, by omega, by omega, hmatch⟩
    · exact hbest.longest off len hoff (by omega) (by omega) hmatch
  · exact ⟨fun _ => rfl, fun _ => rfl, fun h => absurd h (Nat.lt_irrefl 0),
      fun _ _ hlong => absurd hlong (by omega)⟩

theorem lzTakes_iff (lo : Nat × Nat) : lzTakes lo = true ↔ 3 ≤ lo.1 ∧ ¬(lo.1 = 3 ∧ lo.2 < 256) := by
  unfold lzTakes lzMinMatch
  simp [imp_iff_not_or]

/-! Tokens (R352 to R354). -/

/-- A back-reference token's bytes by the format's own formulas. -/
theorem lzRefToken_eq (len : Nat) {off : Nat} (hwindow : off ≤ 4095) :
    lzRefToken len off =
      [BitVec.ofNat 8 (((len - 3) <<< 4) ||| (off >>> 8)), BitVec.ofNat 8 (off &&& 0xFF)] := by
  have hhigh : off >>> 8 < 2 ^ 4 := by rw [Nat.shiftRight_eq_div_pow]; omega
  have hlow : off &&& 0xFF = off % 256 := Nat.and_two_pow_sub_one_eq_mod off 8
  rw [← Nat.shiftLeft_add_eq_or_of_lt hhigh, Nat.shiftLeft_eq, Nat.shiftRight_eq_div_pow, hlow, lzRefToken]

/-- The output behind the pending run's token, if any (R354's `Flush`). -/
def lzFlush (run out : List Byte) : List Byte :=
  if run = [] then out else out ++ BitVec.ofNat 8 (0x80 ||| (run.length - 1)) :: run

theorem append_lzRunToken {run : List Byte} (hrun : run.length ≤ 63) (out : List Byte) :
    out ++ lzRunToken run = lzFlush run out := by
  match run with
  | [] => exact List.append_nil out
  | x :: xs =>
    have hcount : (x :: xs).length - 1 < 2 ^ 7 := by omega
    rw [lzRunToken, lzFlush, if_neg (List.cons_ne_nil x xs), ← Nat.two_pow_add_eq_or_of_lt hcount 1]
    exact List.cons_ne_nil x xs

/-- A token is emitted and `next` goes on with the output, or the encoder ends SMALL (R354's `Emit`). -/
def lzEmitThen (cap : Nat) (out token : List Byte) (next : List Byte → LzResult) : LzResult :=
  match lzEmit cap out token with
  | none => .small out
  | some out' => next out'

theorem lzEmitThen_of_lt {cap : Nat} {out token : List Byte} (h : cap < (out ++ token).length)
    (next : List Byte → LzResult) : lzEmitThen cap out token next = .small out := by
  rw [lzEmitThen, lzEmit, if_pos (by rwa [← List.length_append])]

theorem lzEmitThen_of_le {cap : Nat} {out token : List Byte} (h : (out ++ token).length ≤ cap)
    (next : List Byte → LzResult) : lzEmitThen cap out token next = next (out ++ token) := by
  rw [lzEmitThen, lzEmit, if_neg (by rwa [← List.length_append, Nat.not_lt])]

theorem lzEmitThen_ne_invalid {cap : Nat} {out token out' : List Byte} {next : List Byte → LzResult}
    (h : ∀ o, next o ≠ .invalid out') : lzEmitThen cap out token next ≠ .invalid out' := by
  rcases Nat.lt_or_ge cap (out ++ token).length with hlt | hle
  · rw [lzEmitThen_of_lt hlt]
    nofun
  · rw [lzEmitThen_of_le hle]
    exact h _

/-! The loop over positions (R354). -/

theorem lzFinish_eq (cap : Nat) (out run : List Byte) :
    lzFinish cap out run = lzEmitThen cap out (lzRunToken run) fun out' => lzEmitThen cap out' [0x00] .ok := rfl

section
variable {s : Array Byte} {pos : Nat} (cap n : Nat) (run out : List Byte)

theorem lzEncodeLoop_end (hend : s.size ≤ pos) : lzEncodeLoop s cap n pos run out = lzFinish cap out run := by
  cases n with
  | zero => rw [lzEncodeLoop]
  | succ n => rw [lzEncodeLoop, if_pos hend]

theorem lzEncodeLoop_match (hpos : pos < s.size) (htakes : lzTakes (lzLongestMatch s pos) = true) :
    lzEncodeLoop s cap (n + 1) pos run out =
      lzEmitThen cap out (lzRunToken run) fun out' =>
        lzEmitThen cap out' (lzRefToken (lzLongestMatch s pos).1 (lzLongestMatch s pos).2)
          (lzEncodeLoop s cap n (pos + (lzLongestMatch s pos).1) []) := by
  rw [lzEncodeLoop, if_neg (Nat.not_le.mpr hpos), if_pos htakes]
  rfl

theorem lzEncodeLoop_literal (hpos : pos < s.size) (hskips : ¬lzTakes (lzLongestMatch s pos) = true) :
    lzEncodeLoop s cap (n + 1) pos run out =
      if (run ++ [s.getD pos 0]).length = 63 then
        lzEmitThen cap out (lzRunToken (run ++ [s.getD pos 0])) (lzEncodeLoop s cap n (pos + 1) [])
      else lzEncodeLoop s cap n (pos + 1) (run ++ [s.getD pos 0]) out := by
  rw [lzEncodeLoop, if_neg (Nat.not_le.mpr hpos), if_neg hskips]
  rfl

end

/-- Rounds beyond the bytes left change nothing. -/
theorem lzEncodeLoop_rounds (s : Array Byte) (cap n m : Nat) {pos : Nat} (run out : List Byte) (hn : s.size - pos ≤ n)
    (hm : s.size - pos ≤ m) : lzEncodeLoop s cap n pos run out = lzEncodeLoop s cap m pos run out := by
  induction n generalizing m pos run out with
  | zero => rw [lzEncodeLoop_end _ _ _ _ (by omega), lzEncodeLoop_end _ _ _ _ (by omega)]
  | succ n ih =>
    rcases Nat.lt_or_ge pos s.size with hpos | hend
    · obtain ⟨m, rfl⟩ : ∃ m', m = m' + 1 := ⟨m - 1, by omega⟩
      have hnext : ∀ {pos'}, pos < pos' → ∀ run',
          lzEncodeLoop s cap n pos' run' = lzEncodeLoop s cap m pos' run' :=
        fun hlt run' => funext fun out' => ih m run' out' (by omega) (by omega)
      by_cases htakes : lzTakes (lzLongestMatch s pos) = true
      · have hlen := ((lzTakes_iff _).mp htakes).1
        rw [lzEncodeLoop_match _ _ _ _ hpos htakes, lzEncodeLoop_match _ _ _ _ hpos htakes, hnext (by omega)]
      · rw [lzEncodeLoop_literal _ _ _ _ hpos htakes, lzEncodeLoop_literal _ _ _ _ hpos htakes,
          hnext (Nat.lt_succ_self pos), hnext (Nat.lt_succ_self pos)]
    · rw [lzEncodeLoop_end _ _ _ _ hend, lzEncodeLoop_end _ _ _ _ hend]

theorem lzFinish_ne_invalid (cap : Nat) (out run out' : List Byte) : lzFinish cap out run ≠ .invalid out' :=
  lzEmitThen_ne_invalid fun _ => lzEmitThen_ne_invalid nofun

/-- The encoder has no data error. -/
theorem lzEncodeLoop_ne_invalid (s : Array Byte) (cap n pos : Nat) (run out out' : List Byte) :
    lzEncodeLoop s cap n pos run out ≠ .invalid out' := by
  induction n generalizing pos run out with
  | zero =>
    rw [lzEncodeLoop]
    exact lzFinish_ne_invalid cap out run out'
  | succ n ih =>
    rcases Nat.lt_or_ge pos s.size with hpos | hend
    · by_cases htakes : lzTakes (lzLongestMatch s pos) = true
      · rw [lzEncodeLoop_match _ _ _ _ hpos htakes]
        exact lzEmitThen_ne_invalid fun _ => lzEmitThen_ne_invalid (ih _ _)
      · rw [lzEncodeLoop_literal _ _ _ _ hpos htakes]
        by_cases hlong : (run ++ [s.getD pos 0]).length = 63
        · rw [if_pos hlong]
          exact lzEmitThen_ne_invalid (ih _ _)
        · rw [if_neg hlong]
          exact ih _ _ _
    · rw [lzEncodeLoop_end _ _ _ _ hend]
      exact lzFinish_ne_invalid cap out run out'

/-- LZ.ENC never raises LZ_INVALID_DATA (R355). -/
theorem lzEncode_ne_invalid (src : List Byte) (cap : Nat) (out : List Byte) : lzEncode src cap ≠ .invalid out :=
  lzEncodeLoop_ne_invalid _ _ _ _ _ _ _

/-- The encoder at position `pos`, with the pending run and the output so far. -/
def lzEncodeFrom (src : List Byte) (cap pos : Nat) (run out : List Byte) : LzResult :=
  lzEncodeLoop src.toArray cap (src.length - pos) pos run out

theorem lzEncode_eq_lzEncodeFrom (src : List Byte) (cap : Nat) : lzEncode src cap = lzEncodeFrom src cap 0 [] [] := rfl

section
variable {src : List Byte} {cap pos : Nat} {run out : List Byte}

theorem lzEncodeLoop_eq_lzEncodeFrom {n : Nat} (hn : src.length - pos ≤ n) :
    lzEncodeLoop src.toArray cap n pos run = lzEncodeFrom src cap pos run :=
  funext fun out' => lzEncodeLoop_rounds src.toArray cap n _ run out' hn le_rfl

theorem lzEncodeFrom_end (hend : src.length ≤ pos) (hrun : run.length ≤ 63) :
    (cap < (lzFlush run out).length → lzEncodeFrom src cap pos run out = .small out) ∧
    ((lzFlush run out).length = cap → lzEncodeFrom src cap pos run out = .small (lzFlush run out)) ∧
    ((lzFlush run out).length < cap → lzEncodeFrom src cap pos run out = .ok (lzFlush run out ++ [0x00])) := by
  rw [lzEncodeFrom, lzEncodeLoop_end _ _ _ _ hend, lzFinish_eq, ← append_lzRunToken hrun out]
  refine ⟨fun hfull => lzEmitThen_of_lt hfull _, fun hfull => ?_, fun hroom => ?_⟩
  · rw [lzEmitThen_of_le hfull.le, lzEmitThen_of_lt (by rw [List.length_append, hfull]; exact Nat.lt_succ_self cap)]
  · rw [lzEmitThen_of_le hroom.le, lzEmitThen_of_le (by rw [List.length_append]; exact hroom)]

theorem lzEncodeFrom_match (hpos : pos < src.length) (hrun : run.length ≤ 63) {len off : Nat}
    (hmatch : lzLongestMatch src.toArray pos = (len, off)) (hlen : 3 ≤ len) (hbyte : ¬(len = 3 ∧ off < 256))
    (hwindow : off ≤ 4095) :
    (cap < (lzFlush run out).length → lzEncodeFrom src cap pos run out = .small out) ∧
    ((lzFlush run out).length ≤ cap → cap < (lzFlush run out).length + 2 →
      lzEncodeFrom src cap pos run out = .small (lzFlush run out)) ∧
    ((lzFlush run out).length + 2 ≤ cap → lzEncodeFrom src cap pos run out =
      lzEncodeFrom src cap (pos + len) [] (lzFlush run out ++
        [BitVec.ofNat 8 (((len - 3) <<< 4) ||| (off >>> 8)), BitVec.ofNat 8 (off &&& 0xFF)])) := by
  have hround : lzEncodeFrom src cap pos run out = lzEmitThen cap out (lzRunToken run) fun out' =>
      lzEmitThen cap out' (lzRefToken len off) (lzEncodeFrom src cap (pos + len) []) := by
    have htakes : lzTakes (lzLongestMatch src.toArray pos) = true := by
      rw [hmatch, lzTakes_iff]
      exact ⟨hlen, hbyte⟩
    obtain ⟨n, hn⟩ : ∃ n, src.length - pos = n + 1 := ⟨src.length - pos - 1, by omega⟩
    rw [lzEncodeFrom, hn, lzEncodeLoop_match _ _ _ _ hpos htakes, hmatch,
      lzEncodeLoop_eq_lzEncodeFrom (by simp only; omega)]
  rw [hround, ← append_lzRunToken hrun out, ← lzRefToken_eq len hwindow]
  have htwo : ∀ o : List Byte, (o ++ lzRefToken len off).length = o.length + 2 := fun o => List.length_append
  refine ⟨fun hfull => lzEmitThen_of_lt hfull _, fun hroom hfull => ?_, fun hroom => ?_⟩
  · rw [lzEmitThen_of_le hroom, lzEmitThen_of_lt (by rwa [htwo])]
  · rw [lzEmitThen_of_le (by omega), lzEmitThen_of_le (by rwa [htwo])]

theorem lzEncodeFrom_literal (hpos : pos < src.length) {len off : Nat}
    (hmatch : lzLongestMatch src.toArray pos = (len, off)) (hskips : len < 3 ∨ (len = 3 ∧ off < 256)) :
    let run' := run ++ [src.getD pos 0]
    (run'.length < 63 → lzEncodeFrom src cap pos run out = lzEncodeFrom src cap (pos + 1) run' out) ∧
    (run'.length = 63 → cap < (lzFlush run' out).length → lzEncodeFrom src cap pos run out = .small out) ∧
    (run'.length = 63 → (lzFlush run' out).length ≤ cap →
      lzEncodeFrom src cap pos run out = lzEncodeFrom src cap (pos + 1) [] (lzFlush run' out)) := by
  intro run'
  have hround : lzEncodeFrom src cap pos run out =
      if run'.length = 63 then lzEmitThen cap out (lzRunToken run') (lzEncodeFrom src cap (pos + 1) [])
      else lzEncodeFrom src cap (pos + 1) run' out := by
    have htakes : ¬lzTakes (lzLongestMatch src.toArray pos) = true := by
      rw [hmatch, lzTakes_iff]
      rintro ⟨hlen, hbyte⟩
      exact hskips.elim (Nat.not_lt.mpr hlen) hbyte
    obtain ⟨n, hn⟩ : ∃ n, src.length - pos = n + 1 := ⟨src.length - pos - 1, by omega⟩
    rw [lzEncodeFrom, hn, lzEncodeLoop_literal _ _ _ _ hpos htakes, lzEncodeLoop_eq_lzEncodeFrom (by omega),
      lzEncodeLoop_eq_lzEncodeFrom (by omega), getD_toArray]
  rw [hround]
  refine ⟨fun hshort => if_neg hshort.ne, fun hlong hfull => ?_, fun hlong hroom => ?_⟩
  · rw [← append_lzRunToken hlong.le] at hfull
    rw [if_pos hlong, lzEmitThen_of_lt hfull]
  · rw [← append_lzRunToken hlong.le] at hroom ⊢
    rw [if_pos hlong, lzEmitThen_of_le hroom]

end

/-! The statement. -/

/-- Settles O36: the loop's three cases with the match the search finds, and the checks with the encoder as function. -/
theorem lzEncCompresses : Obligations.LzEncCompresses := by
  refine ⟨fun src cap => ⟨lzEncode_eq_lzEncodeFrom src cap, fun pos run out hrun _ => ⟨fun hend => ?_, fun hpos => ?_⟩⟩,
    fun a b c d e => ⟨encode_toNat (.lzEnc a b c d e), fun s => ?_⟩⟩
  · exact lzEncodeFrom_end hend (by omega)
  · obtain ⟨hshort, hnone, hmatch, hlongest⟩ := longestMatch_lzLongestMatch src pos
    refine ⟨_, _, ⟨hshort, hnone, hmatch, hlongest⟩, fun hlen hbyte => ?_, fun hskips => ?_⟩
    · obtain ⟨-, hwindow, -⟩ := hmatch (by omega)
      exact lzEncodeFrom_match hpos (by omega) rfl hlen hbyte hwindow
    · exact lzEncodeFrom_literal hpos rfl hskips
  · obtain ⟨hsrc, hdst, hoverlap, hresult⟩ := runsCodec_lzEnc a b c d e s
    refine ⟨hsrc, hdst, hoverlap, fun hin hout hdisjoint out => ?_⟩
    obtain ⟨hok, -, hsmall⟩ := hresult hin hout hdisjoint out
    exact ⟨hok, hsmall, lzEncode_ne_invalid _ _ out⟩

end Sys2Proof.Machine
end

section
/-! SUPPORT. Fault entry, once for every step (60_exceptions.md R402, R410, R411): what it means that an outcome follows a
list of checks, how that is built up check by check, and then each command against its own checks and the step against
all of them. -/

namespace Sys2Proof

open Sys2Proof.Machine

/-- Only BN.LDK's row of the opcode map makes a BN.LDK, with its selector from `imm` (30_encoding.md R116). -/
theorem op_eq_opBnLdk_of_make {op : Byte} {row : OpRow} {f : CmdFields} {a : BReg} {imm : Word}
    (hrow : opcodeMap op = some row) (hmake : row.make f = .bnLdk a imm) : op = opBnLdk ∧ f.imm = imm := by
  unfold opcodeMap at hrow
  split at hrow
  case h_15 hop =>
    cases hrow
    cases hmake
    exact ⟨BitVec.eq_of_toNat_eq hop, rfl⟩
  all_goals cases hrow <;> cases hmake

/-- A BN.LDK that decodes has selector 0 or 1 (R118). -/
theorem selector_of_decodeWord_bnLdk {w : CmdWord} {a : BReg} {imm : Word} (h : decodeWord w = .ok (.bnLdk a imm)) :
    imm = 0 ∨ imm = 1 := by
  obtain ⟨row, hrow, -, hselector, hmake⟩ := (decodeWord_eq_ok_iff w _).mp h
  obtain ⟨hop, rfl⟩ := op_eq_opBnLdk_of_make hrow hmake
  exact hselector hop

end Sys2Proof

namespace Sys2Proof.Machine

/-! The step and its fetch (40_sequencer.md R150, R151). -/

theorem State.fetchInstr_of_misaligned {s : State} (h : s.cp.toNat % 8 ≠ 0) :
    s.fetchInstr = .error (.fetchMisaligned, s.cp) := if_pos h

theorem State.fetchInstr_of_past {s : State} (haligned : s.cp.toNat % 8 = 0) (hpast : s.cfg.memSize < s.cp.toNat + 8) :
    s.fetchInstr = .error (.fetchRange, s.cp) := by
  rw [State.fetchInstr, if_neg (not_not.mpr haligned), if_pos (by simp [State.inRange_of_lt hpast])]

theorem decodeWord_of_fetchInstr_ok {s : State} {i : Instr} (h : s.fetchInstr = .ok i) :
    decodeWord (wordOfBytes (s.memRead s.cp.toNat 8)) = .ok i := by
  rcases s.fetchInstr_cases with ⟨-, herr⟩ | ⟨-, -, herr⟩ | ⟨-, -, ⟨j, hdecode, hok⟩ | ⟨_, -, herr⟩⟩
  · cases herr.symm.trans h
  · cases herr.symm.trans h
  · cases hok.symm.trans h
    exact hdecode
  · cases herr.symm.trans h

theorem step_of_fetchInstr_ok {s : State} {i : Instr} (hturns : s.hostTurns = []) (hbusy : s.busy = true)
    (hfetch : s.fetchInstr = .ok i) : step s = exec i s := by
  simp only [step, turnStep, hturns, sequencerStep, hbusy, if_true, hfetch]

/-- The low half of the command word is the word its first four bytes make: `w[31:0]` of ILLEGAL's info. -/
theorem wordOfBytes_memRead_low (s : State) (addr : Nat) :
    (wordOfBytes (s.memRead addr 8)).extractLsb' 0 32 = leWord (s.memRead addr 4) := by
  apply BitVec.eq_of_toNat_eq
  simp only [wordOfBytes, leWord, word, State.memRead, Memory.readBytes, List.take_succ_cons, List.take_zero, leNat,
    BitVec.extractLsb'_toNat, BitVec.toNat_ofNat, Nat.shiftRight_zero]
  omega

/-! The codec never produces more than the capacity (44_codec.md R341, R344, R354). -/

/-- The output behind a token. -/
def LzToken.out : LzToken → List Byte
  | .stop r => r.out
  | .go _ out => out

theorem length_out_lzLiteral_le {cap : Nat} {out : List Byte} (hout : out.length ≤ cap) (count : Nat)
    (rest : List Byte) : (lzLiteral cap count rest out).out.length ≤ cap := by
  rcases Nat.lt_or_ge rest.length count with htruncated | hdata
  · rw [lzLiteral_of_truncated htruncated]
    exact hout
  · rcases Nat.lt_or_ge cap (out.length + count) with hfull | hfits
    · rw [lzLiteral_of_full hout hdata hfull]
      simp only [LzToken.out, LzResult.out, List.length_append, List.length_take]
      omega
    · rw [lzLiteral_of_fits hdata hfits]
      simp only [LzToken.out, List.length_append, List.length_take]
      omega

theorem length_out_lzBackRef_le {cap : Nat} {out : List Byte} (hout : out.length ≤ cap) (count offset : Nat)
    (rest : List Byte) : (lzBackRef cap count offset rest out).out.length ≤ cap := by
  by_cases hbad : offset = 0 ∨ out.length < offset
  · rw [lzBackRef_of_badOffset hbad]
    exact hout
  · have hpos : 1 ≤ offset := by omega
    have hle : offset ≤ out.length := by omega
    rcases Nat.lt_or_ge cap (out.length + count) with hfull | hfits
    · obtain ⟨ext, hstop, hlength, -⟩ := lzBackRef_of_full hpos hle hout hfull rest
      rw [hstop]
      exact hlength.le
    · obtain ⟨ext, hgo, hlength, -⟩ := lzBackRef_of_fits hpos hle hfits rest
      rw [hgo]
      simp only [LzToken.out, List.length_append]
      omega

theorem length_out_lzToken_le {cap : Nat} {out : List Byte} (hout : out.length ≤ cap) (cmd : Byte) (rest : List Byte) :
    (lzToken cap cmd rest out).out.length ≤ cap := by
  rcases lzToken_cases cap cmd rest out with ⟨-, hend⟩ | hlo | ⟨pre, data, count, rfl, hlit⟩ |
    ⟨pre, data, count, offset, rfl, href⟩
  · rw [hend]
    exact hout
  · rw [hlo]
    exact hout
  · rw [hlit]
    exact length_out_lzLiteral_le hout count data
  · rw [href]
    exact length_out_lzBackRef_le hout count offset data

theorem length_out_lzDecodeLoop_le {cap : Nat} (n : Nat) (src : List Byte) {out : List Byte} (hout : out.length ≤ cap) :
    (lzDecodeLoop cap n src out).out.length ≤ cap := by
  induction n generalizing src out with
  | zero => cases src <;> exact hout
  | succ n ih =>
    cases src with
    | nil => exact hout
    | cons cmd rest =>
      have htoken := length_out_lzToken_le hout cmd rest
      rw [lzDecodeLoop]
      cases h : lzToken cap cmd rest out with
      | stop r => rwa [h] at htoken
      | go rest' out' => exact ih rest' (by rwa [h] at htoken)

theorem length_out_lzDecode_le (src : List Byte) (cap : Nat) : (lzDecode src cap).out.length ≤ cap :=
  length_out_lzDecodeLoop_le src.length src (Nat.zero_le cap)

theorem length_out_lzEmitThen_le {cap : Nat} {out : List Byte} (hout : out.length ≤ cap) (token : List Byte)
    {next : List Byte → LzResult} (hnext : ∀ o, o.length ≤ cap → (next o).out.length ≤ cap) :
    (lzEmitThen cap out token next).out.length ≤ cap := by
  rcases Nat.lt_or_ge cap (out ++ token).length with hfull | hfits
  · rw [lzEmitThen_of_lt hfull]
    exact hout
  · rw [lzEmitThen_of_le hfits]
    exact hnext _ hfits

theorem length_out_lzFinish_le {cap : Nat} {out : List Byte} (hout : out.length ≤ cap) (run : List Byte) :
    (lzFinish cap out run).out.length ≤ cap :=
  length_out_lzEmitThen_le hout _ fun _ hle => length_out_lzEmitThen_le hle _ fun _ h => h

theorem length_out_lzEncodeLoop_le (s : Array Byte) {cap : Nat} (n pos : Nat) (run : List Byte) {out : List Byte}
    (hout : out.length ≤ cap) : (lzEncodeLoop s cap n pos run out).out.length ≤ cap := by
  induction n generalizing pos run out with
  | zero => exact length_out_lzFinish_le hout run
  | succ n ih =>
    rcases Nat.lt_or_ge pos s.size with hpos | hend
    · by_cases htakes : lzTakes (lzLongestMatch s pos) = true
      · rw [lzEncodeLoop_match _ _ _ _ hpos htakes]
        exact length_out_lzEmitThen_le hout _ fun _ hle => length_out_lzEmitThen_le hle _ fun _ => ih _ _
      · rw [lzEncodeLoop_literal _ _ _ _ hpos htakes]
        by_cases hlong : (run ++ [s.getD pos 0]).length = 63
        · rw [if_pos hlong]
          exact length_out_lzEmitThen_le hout _ fun _ => ih _ _
        · rw [if_neg hlong]
          exact ih _ _ hout
    · rw [lzEncodeLoop_end _ _ _ _ hend]
      exact length_out_lzFinish_le hout run

theorem length_out_lzEncode_le (src : List Byte) (cap : Nat) : (lzEncode src cap).out.length ≤ cap :=
  length_out_lzEncodeLoop_le _ _ _ _ (Nat.zero_le cap)

/-! Outcomes that follow a list of checks (R402, R410). -/

/-- `t` is `s` after the precise fault entry that `check` calls for (R410): its code and info word in the record, memory
as it was but for an LZ command's partial output, within the `info` bytes from `X[d]`. -/
def entersPrecisely (check : FaultCheck) (s t : State) : Prop :=
  1 ≤ check.code ∧ check.code ≤ 13 ∧ entersFault check.code check.info s t ∧
    (check.code ≠ 11 → check.code ≠ 12 → keepsMem s t) ∧
    (check.code = 11 ∨ check.code = 12 → ∃ a b c d e,
      (s.fetchInstr = .ok (.lzDec a b c d e) ∨ s.fetchInstr = .ok (.lzEnc a b c d e)) ∧
      ∀ n, n < s.natX d ∨ s.natX d + check.info.toNat ≤ n → t.byteAt n = s.byteAt n)

/-- The outcome `o` from `s` is the fault of the first of `checks` that finds one; where none does, it is no fault. -/
def followsChecks (checks : List FaultCheck) (s : State) (o : Host.Outcome State Fault Refusal) : Prop :=
  (checks.find? (·.found) = none → ∃ t, o = .next t ∧ t.faulted = s.faulted) ∧
    ∀ check, checks.find? (·.found) = some check → ∃ t, o = .next t ∧ entersPrecisely check s t

theorem FaultCause.code_bounds (cause : FaultCause) : 1 ≤ cause.code.toNat ∧ cause.code.toNat ≤ 13 := by
  cases cause <;> decide

/-- The causes whose entry leaves memory as it was: all but the two with a partial output (R410). -/
def FaultCause.keepsMemory (cause : FaultCause) : Bool := cause.code.toNat != 11 && cause.code.toNat != 12

theorem entersPrecisely_faultEntry {cause : FaultCause} (hcause : cause.keepsMemory = true) (info : Word) (s : State) :
    entersPrecisely ⟨true, cause.code.toNat, info⟩ s (s.faultEntry cause info) := by
  obtain ⟨hentry, hmem⟩ := onlyFault_faultEntry s cause info
  simp only [FaultCause.keepsMemory, Bool.and_eq_true, bne_iff_ne] at hcause
  obtain ⟨hinvalid, hsmall⟩ := hcause
  exact ⟨cause.code_bounds.1, cause.code_bounds.2, hentry, fun _ _ => hmem,
    fun hpartial => (hpartial.elim hinvalid hsmall).elim⟩

/-- Fault entry after an LZ command's partial output: what is written ends with the `info` bytes from `X[d]`. -/
theorem entersPrecisely_partialOutput {a b c d e : XReg} {s : State} {out : List Byte} (hlength : out.length < 2 ^ 32)
    (hfetch : s.fetchInstr = .ok (.lzDec a b c d e) ∨ s.fetchInstr = .ok (.lzEnc a b c d e)) {cause : FaultCause}
    (hcause : cause.keepsMemory = false) :
    entersPrecisely ⟨true, cause.code.toNat, word out.length⟩ s
      ((s.memWrite (s.natX d) out).faultEntry cause (word out.length)) := by
  refine ⟨cause.code_bounds.1, cause.code_bounds.2, entersFault_memWrite s _ out cause _,
    fun hinvalid hsmall => absurd hcause (by simp [FaultCause.keepsMemory, hinvalid, hsmall]),
    fun _ => ⟨a, b, c, d, e, hfetch, fun n hn => ?_⟩⟩
  obtain ⟨-, houtside⟩ := writesMem_memWrite s (s.natX d) out
  rw [word_toNat_of_lt hlength] at hn
  exact houtside n hn

section
variable {s : State} {checks : List FaultCheck} {cause : FaultCause} {info : Word}
  {o : Host.Outcome State Fault Refusal}

theorem followsChecks_nil {t : State} (h : t.faulted = s.faulted) : followsChecks [] s (.next t) :=
  ⟨fun _ => ⟨t, rfl, h⟩, nofun⟩

theorem followsChecks_of_found {check : FaultCheck} {t : State} (hfound : check.found = true)
    (h : entersPrecisely check s t) : followsChecks (check :: checks) s (.next t) := by
  rw [followsChecks, List.find?_cons_of_pos hfound]
  exact ⟨nofun, by rintro _ ⟨⟩; exact ⟨t, rfl, h⟩⟩

theorem followsChecks_of_not_found {check : FaultCheck} (hfound : check.found = false)
    (h : followsChecks checks s o) : followsChecks (check :: checks) s o := by
  rwa [followsChecks, List.find?_cons_of_neg (by simp [hfound])]

/-- One check before others: where it finds its fault the outcome is that fault's entry, else the others are followed. -/
theorem followsChecks_cons {found : Bool} (hcause : cause.keepsMemory = true)
    (hfault : found = true → o = .next (s.faultEntry cause info)) (hrest : found = false → followsChecks checks s o) :
    followsChecks (⟨found, cause.code.toNat, info⟩ :: checks) s o := by
  cases found with
  | true => exact hfault rfl ▸ followsChecks_of_found rfl (entersPrecisely_faultEntry hcause info s)
  | false => exact followsChecks_of_not_found rfl (hrest rfl)

theorem followsChecks_cons_decide {p : Prop} [Decidable p] (hcause : cause.keepsMemory = true)
    (hfault : p → o = .next (s.faultEntry cause info)) (hrest : ¬p → followsChecks checks s o) :
    followsChecks (⟨decide p, cause.code.toNat, info⟩ :: checks) s o :=
  followsChecks_cons hcause (fun h => hfault (of_decide_eq_true h)) fun h => hrest (of_decide_eq_false h)

theorem followsChecks_ite {p : Prop} [Decidable p] (hcause : cause.keepsMemory = true) (h : followsChecks checks s o) :
    followsChecks (⟨decide p, cause.code.toNat, info⟩ :: checks) s
      (if p then .next (s.faultEntry cause info) else o) :=
  followsChecks_cons_decide hcause (fun hp => if_pos hp) fun hp => by rwa [if_neg hp]

theorem followsChecks_rangeCheck {addr : Word} {n : Nat}
    (hpast : s.cfg.memSize < addr.toNat + n → o = .next (s.faultEntry .memRange addr))
    (hin : addr.toNat + n ≤ s.cfg.memSize → followsChecks checks s o) :
    followsChecks (rangeCheck s addr n :: checks) s o :=
  followsChecks_cons_decide (cause := .memRange) rfl hpast fun h => hin (Nat.le_of_not_lt h)

theorem followsChecks_ite_inRange {addr : Word} {n : Nat} (h : followsChecks checks s o) :
    followsChecks (rangeCheck s addr n :: checks) s
      (if s.inRange addr.toNat n then o else .next (s.faultEntry .memRange addr)) :=
  followsChecks_rangeCheck (fun hpast => if_neg (State.not_inRange_of_lt hpast))
    fun hin => by rwa [if_pos (State.inRange_of_le hin)]

/-- A command whose only check is a range, and which else goes on. -/
theorem followsChecks_single_range {addr : Word} {n : Nat} {t : State} (h : t.faulted = s.faulted) :
    followsChecks [rangeCheck s addr n] s
      (if s.inRange addr.toNat n then .next t else .next (s.faultEntry .memRange addr)) :=
  followsChecks_ite_inRange (followsChecks_nil h)

end

/-! The shared operations against their checks. -/

theorem followsChecks_writeFitting (a : BReg) (v : Nat) (s : State) :
    followsChecks [overflowCheck s v] s (writeFitting a v s) :=
  followsChecks_cons_decide (cause := .bnOverflow) rfl (fun hover => writeFitting_of_le hover a) fun hfits => by
    rw [writeFitting_of_lt (Nat.lt_of_not_le hfits)]
    exact followsChecks_nil rfl

theorem followsChecks_cryptBuffer (f : CipherTables → List Byte → List Byte) (a b : XReg) (s : State) :
    followsChecks [⟨!s.keyed, 9, 0⟩, ⟨decide (s.natX b % 8 ≠ 0), 10, s.getX b⟩, rangeCheck s (s.getX a) (s.natX b)] s
      (cryptBuffer f a b s) := by
  refine followsChecks_cons (cause := .bfNokey) rfl (fun h => ?_) fun h => ?_
  · exact cryptBuffer_of_not_keyed (by simpa using h)
  have hkeyed : s.keyed = true := by simpa using h
  refine followsChecks_cons_decide (cause := .bfBlocklen) rfl (cryptBuffer_of_partial_block hkeyed) fun h => ?_
  have hlen : s.natX b % 8 = 0 := not_not.mp h
  refine followsChecks_rangeCheck (cryptBuffer_of_lt hkeyed hlen) fun hin => ?_
  rw [cryptBuffer_of_le hkeyed hlen hin]
  exact followsChecks_nil rfl

/-- An LZ command whose function keeps to the capacity follows its checks; so its partial output is shorter than 2^32, and
the info word is its length. -/
theorem followsChecks_codecCommand {f : List Byte → Nat → LzResult} {a b c d e : XReg} {s : State}
    (hfetch : s.fetchInstr = .ok (.lzDec a b c d e) ∨ s.fetchInstr = .ok (.lzEnc a b c d e))
    (hcap : ∀ src cap, (f src cap).out.length ≤ cap) :
    followsChecks (codecChecks s f b c d e) s (codecCommand f a b c d e s) := by
  refine followsChecks_rangeCheck codecCommand_of_source_lt fun hsrc =>
    followsChecks_rangeCheck (codecCommand_of_destination_lt hsrc) fun hdst =>
      followsChecks_cons (cause := .lzOverlap) rfl (codecCommand_of_overlap hsrc hdst) fun hdisjoint => ?_
  have hlength : (f (s.memRead (s.natX b) (s.natX c)) (s.natX e)).out.length < 2 ^ 32 :=
    (hcap _ _).trans_lt (s.getX e).isLt
  rw [codecCommand_of_disjoint hsrc hdst (Bool.eq_false_iff.mp hdisjoint)]
  cases hresult : f (s.memRead (s.natX b) (s.natX c)) (s.natX e) with
  | ok out => exact followsChecks_nil rfl
  | invalid out =>
    rw [hresult] at hlength
    exact followsChecks_of_found rfl
      (entersPrecisely_partialOutput hlength hfetch (cause := .lzInvalidData) rfl)
  | small out =>
    rw [hresult] at hlength
    exact followsChecks_of_found rfl
      (entersPrecisely_partialOutput hlength hfetch (cause := .lzBufferTooSmall) rfl)

/-! Every command, and the step. -/

/-- A fetched command follows its checks (R402's table). -/
theorem followsChecks_exec {i : Instr} {s : State} (hfetch : s.fetchInstr = .ok i) :
    followsChecks (commandChecks s i) s (exec i s) := by
  cases i
  case halt => exact followsChecks_nil rfl
  case nop => exact followsChecks_nil rfl
  case li a imm => exact followsChecks_nil rfl
  case addi a b imm => exact followsChecks_nil rfl
  case bnz a imm =>
    by_cases hzero : s.getX a = 0
    · rw [exec_bnz_of_eq_zero hzero]
      exact followsChecks_nil rfl
    · rw [exec_bnz_of_ne_zero hzero]
      exact followsChecks_nil rfl
  case jmp imm => exact followsChecks_nil rfl
  case ldw a b imm => exact followsChecks_single_range rfl
  case stw a b imm => exact followsChecks_single_range rfl
  case hInit => exact followsChecks_nil rfl
  case hFeed a b => exact followsChecks_single_range rfl
  case hFinal a => exact followsChecks_nil rfl
  case hHash a b c => exact followsChecks_single_range rfl
  case bnLd a b c => exact followsChecks_ite_inRange (followsChecks_writeFitting a _ s)
  case bnLdi a imm => exact followsChecks_nil rfl
  case bnLdk a imm =>
    rcases selector_of_decodeWord_bnLdk (decodeWord_of_fetchInstr_ok hfetch) with rfl | rfl
    · exact followsChecks_nil rfl
    · exact followsChecks_nil rfl
  case bnSt a b c d => exact followsChecks_single_range rfl
  case bnCmp a b c => exact followsChecks_nil rfl
  case bnSub a b c => exact followsChecks_ite (cause := .bnUnderflow) rfl (followsChecks_nil rfl)
  case bnMul a b c => exact followsChecks_writeFitting a _ s
  case bnShl a b => exact followsChecks_writeFitting a _ s
  case bnShr a b => exact followsChecks_nil rfl
  case bnPar a b => exact followsChecks_nil rfl
  case bnMod a b c => exact followsChecks_ite (cause := .bnZeroModulus) rfl (followsChecks_nil rfl)
  case bnModexp a b c d => exact followsChecks_ite (cause := .bnZeroModulus) rfl (followsChecks_nil rfl)
  case bfKey a b => exact followsChecks_ite (cause := .bfKeylen) rfl (followsChecks_single_range rfl)
  case bfEnc a b => exact followsChecks_cryptBuffer encBlock a b s
  case bfDec a b => exact followsChecks_cryptBuffer decBlock a b s
  case lzDec a b c d e => exact followsChecks_codecCommand (.inl hfetch) length_out_lzDecode_le
  case lzEnc a b c d e => exact followsChecks_codecCommand (.inr hfetch) length_out_lzEncode_le

/-- The checks of a step behind those of the fetch's address: ILLEGAL where the word does not decode, else the command's
own. -/
def decodeChecks (s : State) : List FaultCheck :=
  match decodeWord (wordOfBytes (s.memRead s.cp.toNat 8)) with
  | .error _ => [⟨true, 3, (wordOfBytes (s.memRead s.cp.toNat 8)).extractLsb' 0 32⟩]
  | .ok i => commandChecks s i

theorem stepChecks_eq (s : State) :
    stepChecks s =
      ⟨decide (s.cp.toNat % 8 ≠ 0), 1, s.cp⟩ :: ⟨decide (s.cfg.memSize < s.cp.toNat + 8), 2, s.cp⟩ ::
        decodeChecks s := by
  rw [stepChecks, decodeChecks, wordOfBytes_memRead_low, decodeBytes_of_eight _ (by simp [State.memRead])]
  cases decodeWord (wordOfBytes (s.memRead s.cp.toNat 8)) <;> rfl

/-- Where a command can be fetched, the step follows ILLEGAL's check and then the command's own. -/
theorem followsChecks_decodeChecks {s : State} (hturns : s.hostTurns = []) (hbusy : s.busy = true)
    (haligned : s.cp.toNat % 8 = 0) (hin : s.cp.toNat + 8 ≤ s.cfg.memSize) :
    followsChecks (decodeChecks s) s (step s) := by
  rcases s.fetchInstr_cases with ⟨hmisaligned, -⟩ | ⟨-, hpast, -⟩ |
    ⟨-, -, ⟨i, hdecode, hfetch⟩ | ⟨_, hdecode, hfetch⟩⟩
  · exact absurd haligned hmisaligned
  · exact absurd hin (Nat.not_le.mpr hpast)
  · rw [decodeChecks, hdecode, step_of_fetchInstr_ok hturns hbusy hfetch]
    exact followsChecks_exec hfetch
  · rw [decodeChecks, hdecode, step_of_fetchFault hturns hbusy hfetch]
    exact followsChecks_of_found rfl (entersPrecisely_faultEntry (cause := .illegal) rfl _ s)

/-- The step of a busy sequencer follows its checks (R402). -/
theorem followsChecks_step {s : State} (hturns : s.hostTurns = []) (hbusy : s.busy = true) :
    followsChecks (stepChecks s) s (step s) := by
  rw [stepChecks_eq]
  refine followsChecks_cons_decide (cause := .fetchMisaligned) rfl (fun hmisaligned => ?_) fun haligned =>
    followsChecks_cons_decide (cause := .fetchRange) rfl (fun hpast => ?_) fun hin => ?_
  · exact step_of_fetchFault hturns hbusy (State.fetchInstr_of_misaligned hmisaligned)
  · exact step_of_fetchFault hturns hbusy (State.fetchInstr_of_past (not_not.mp haligned) hpast)
  · exact followsChecks_decodeChecks hturns hbusy (not_not.mp haligned) (Nat.le_of_not_lt hin)

/-- After fault entry the interrupt line shows IRQ_EN (R411). -/
theorem irq_of_entersFault {code : Nat} {info : Word} {s t : State} (h : entersFault code info s t) :
    t.irq = s.irqEn := by
  obtain ⟨-, -, -, -, ⟨hirqEn, -⟩, -, -, -, hfaulted, -⟩ := h
  simp [State.irq, hirqEn, hfaulted]

/-- Settles O49: the step follows its checks, and a running sequencer was not `faulted` before. -/
theorem faultsArePrecise : Obligations.FaultsArePrecise := by
  rintro s t hturns ⟨hbusy, -, hclear⟩ hstep hfaulted
  obtain ⟨hnone, hsome⟩ := followsChecks_step hturns hbusy
  cases hfirst : firstFault s with
  | none =>
    obtain ⟨u, hu, hkept⟩ := hnone hfirst
    cases hstep.symm.trans hu
    rw [hfaulted, hclear] at hkept
    cases hkept
  | some check =>
    obtain ⟨u, hu, hlow, hhigh, hentry, hmem, hpartial⟩ := hsome check hfirst
    cases hstep.symm.trans hu
    exact ⟨check, rfl, hlow, hhigh, hentry, irq_of_entersFault hentry, hmem, hpartial⟩

end Sys2Proof.Machine
end

section
/-! SUPPORT. Soft reset as a step of the machine (70_reset_and_hazards.md R452). -/

namespace Sys2Proof.Machine

/-- A write to CTRL with SRST is a soft reset of the state the host's turn leaves, whatever the run state and `w`'s
other bits (R452). -/
theorem step_writeCtrl_of_reset {s : State} {w : Word} {rest : List HostTurn}
    (hturn : s.hostTurns = .act (.writeReg 4 4 w) :: rest) (hreset : w.getLsbD 2 = true) :
    step s = .next (s.takeTurn rest).softReset := by
  rw [step_writeCtrl hturn, State.writeCtrl_of_reset hreset]

@[simp] theorem State.softReset_hostTurns (s : State) : s.softReset.hostTurns = s.hostTurns := rfl

/-- Taking a turn touches none of what soft reset keeps. -/
theorem softlyReset_takeTurn_softReset (s : State) (rest : List HostTurn) :
    softlyReset s (s.takeTurn rest).softReset :=
  softlyReset_softReset (s.takeTurn rest)

/-- Settles O53: the step is `SoftReset()` on the state with the turn taken, in the run state it finds. -/
theorem softResetKeepsOnlyMemory : Obligations.SoftResetKeepsOnlyMemory := by
  intro s w rest hturn hreset
  exact ⟨_, step_writeCtrl_of_reset hturn hreset, softlyReset_takeTurn_softReset s rest,
    State.softReset_hostTurns (s.takeTurn rest)⟩

end Sys2Proof.Machine
end

section
/-! SUPPORT. Encoding against decoding (30_encoding.md sections 1, 3 and 5): what the decoder makes of a row's fields is
encoded to those fields again, and the table's rows are told apart by their opcodes; then the statements about them. -/

namespace Sys2Proof

open Sys2Proof.Machine

/-! From a command to its word and back. -/

/-- BN.LDK's row of the opcode map makes nothing but BN.LDK, so `Instr.wellFormed` bounds its selector (R118). -/
theorem selector_of_make_wellFormed {row : OpRow} {f : CmdFields} (hrow : opcodeMap opBnLdk = some row)
    (hwf : (row.make f).wellFormed = true) : f.imm = 0 ∨ f.imm = 1 := by
  cases hrow
  simpa [Instr.wellFormed] using hwf

theorem decodeWord_encode {i : Instr} (hwf : i.wellFormed = true) : decodeWord (encode i) = .ok i := by
  obtain ⟨row, hrow, hmake, hz, hstray, himm⟩ := Laws.OpcodeRow.all i
  refine (decodeWord_eq_ok_iff _ i).mpr ⟨row, hrow, ⟨hz, hstray, himm⟩, fun hop => ?_, hmake⟩
  exact selector_of_make_wellFormed (hop ▸ hrow) (hmake.symm ▸ hwf)

theorem decodeWord_of_encode_eq {i : Instr} {w : CmdWord} (hword : encode i = w) (hwf : i.wellFormed = true) :
    decodeWord w = .ok i :=
  hword ▸ decodeWord_encode hwf

/-- Eight bytes decode as their word does, whatever follows them. -/
theorem decodeBytes_leBytes_append {w : CmdWord} {i : Instr} (h : decodeWord w = .ok i) (rest : List Byte) :
    decodeBytes (leBytes w.toNat 8 ++ rest) = .ok (i, rest) := by
  have hlong : ¬(leBytes w.toNat 8 ++ rest).length < 8 := by simp
  have hrest : (leBytes w.toNat 8 ++ rest).drop 8 = rest := List.drop_left' (length_leBytes _ _)
  rw [decodeBytes, if_neg hlong, wordOfBytes_leBytes, h, hrest]

/-! From a word to its command and back. -/

/-- The command that a row makes of fields it admits has those fields. -/
theorem instrFields_make {f : CmdFields} {row : OpRow} (hrow : opcodeMap f.op = some row) (h : row.uses.admits f) :
    instrFields (row.make f) = f := by
  obtain ⟨op, a, b, c, d, e, z, imm⟩ := f
  obtain ⟨rfl, hstray, himm⟩ := h
  unfold opcodeMap at hrow
  split at hrow
  case h_30 => cases hrow
  all_goals
    cases hrow
    simp_all [strayField, instrFields, regField_fieldReg, ← BitVec.toNat_inj]

theorem encode_of_decodeWord {w : CmdWord} {i : Instr} (h : decodeWord w = .ok i) : encode i = w := by
  obtain ⟨row, hrow, hadmits, -, rfl⟩ := (decodeWord_eq_ok_iff w i).mp h
  rw [encode, instrFields_make hrow hadmits, packCmd_cmdFields]

theorem wellFormed_of_decodeWord {w : CmdWord} {i : Instr} (h : decodeWord w = .ok i) : i.wellFormed = true := by
  cases i with
  | bnLdk a imm => simpa [Instr.wellFormed] using selector_of_decodeWord_bnLdk h
  | _ => rfl

/-! The table's rows (R116). -/

/-- The opcode a row of the table fixes. -/
def MatchMask.op (row : MatchMask) : Byte := (cmdFields row.pattern).op

theorem matchMaskTable_ops_nodup : (matchMaskTable.map MatchMask.op).Nodup := by decide

theorem exists_row_of_opcodeMap : ∀ op : Byte, (opcodeMap op).isSome = true → ∃ row ∈ matchMaskTable, row.op = op := by
  decide

theorem mnemonic_eq_bnLdk_iff : ∀ row ∈ matchMaskTable, row.mnemonic = "BN.LDK" ↔ row.op = opBnLdk := by
  decide

theorem cmdFields_opWord (op : Byte) : cmdFields (opWord op) = ⟨op, 0, 0, 0, 0, 0, 0, 0⟩ := cmdFields_packCmd _

/-- A word matches a row of the table exactly where the row's opcode is its own and admits its fields. -/
theorem matches_row_iff {row : MatchMask} (hrow : row ∈ matchMaskTable) (w : CmdWord) :
    w &&& row.mask = row.pattern ↔
      (cmdFields w).op = row.op ∧ ∃ r, opcodeMap row.op = some r ∧ r.uses.admits (cmdFields w) := by
  obtain ⟨hpattern, hmask⟩ := matchMaskTable_eq_opcodeMap row hrow
  obtain ⟨r, hr, hmask⟩ := Option.map_eq_some_iff.mp hmask
  have hop : w &&& r.uses.mask = opWord row.op → (cmdFields w).op = row.op := fun h => by
    have hfields := congrArg (fun v => (cmdFields v).op) h
    simpa only [cmdFields_and, cmdFields_opWord, FieldUse.mask, cmdFields_packCmd, BitVec.and_allOnes] using hfields
  rw [hpattern, ← hmask]
  refine ⟨fun h => ⟨hop h, r, hr, ?_⟩, fun ⟨hsame, r', hr', hadmits⟩ => ?_⟩
  · exact (and_mask_eq_opWord_iff w r.uses).mp (hop h ▸ h)
  · cases hr.symm.trans hr'
    exact ((and_mask_eq_opWord_iff w r.uses).mpr hadmits).trans (congrArg opWord hsame)

theorem imm_le_one_iff (w : CmdWord) :
    w.toNat / 2 ^ 32 ≤ 1 ↔ (cmdFields w).imm = 0 ∨ (cmdFields w).imm = 1 := by
  rw [← cmdFields_imm_toNat, ← BitVec.toNat_inj, ← BitVec.toNat_inj]
  exact Nat.le_one_iff_eq_zero_or_eq_one

/-- A word decodes exactly where it matches a row, for BN.LDK with selector 0 or 1 (R116, R118). -/
theorem decodes_iff_matches_row (w : CmdWord) :
    (∃ i, decodeWord w = .ok i) ↔
      ∃ row ∈ matchMaskTable, w &&& row.mask = row.pattern ∧ (row.mnemonic = "BN.LDK" → w.toNat / 2 ^ 32 ≤ 1) := by
  simp only [decodeWord_eq_ok_iff, imm_le_one_iff]
  constructor
  · rintro ⟨_, r, hr, hadmits, hselector, -⟩
    obtain ⟨row, hrow, hop⟩ := exists_row_of_opcodeMap _ (Option.isSome_of_eq_some hr)
    refine ⟨row, hrow, (matches_row_iff hrow w).mpr ⟨hop.symm, r, hop ▸ hr, hadmits⟩, fun hname => hselector ?_⟩
    rw [← hop, (mnemonic_eq_bnLdk_iff row hrow).mp hname]
  · rintro ⟨row, hrow, hmatch, hselector⟩
    obtain ⟨hop, r, hr, hadmits⟩ := (matches_row_iff hrow w).mp hmatch
    refine ⟨_, r, hop ▸ hr, hadmits, fun hldk => hselector ?_, rfl⟩
    exact (mnemonic_eq_bnLdk_iff row hrow).mpr (hop.symm.trans hldk)

/-- No word matches two rows: the opcode tells them apart. -/
theorem row_unique {w : CmdWord} {r1 r2 : MatchMask} (h1 : r1 ∈ matchMaskTable) (h2 : r2 ∈ matchMaskTable)
    (hm1 : w &&& r1.mask = r1.pattern) (hm2 : w &&& r2.mask = r2.pattern) : r1 = r2 := by
  have hop1 := ((matches_row_iff h1 w).mp hm1).1
  have hop2 := ((matches_row_iff h2 w).mp hm2).1
  exact List.inj_on_of_nodup_map matchMaskTable_ops_nodup h1 h2 (hop1.symm.trans hop2)

/-! The statements. -/

/-- Settles O1: the command's own row reads its fields back, and its bytes make its word. -/
theorem decodeInvertsEncode : Obligations.DecodeInvertsEncode := fun _ hwf =>
  ⟨decodeWord_encode hwf, decodeBytes_leBytes_append (decodeWord_encode hwf)⟩

/-- Settles O2: a decoded word's row makes a command of the same fields; the rows of the table are the map's. -/
theorem decodedWordsAreTheTablesRows : Obligations.DecodedWordsAreTheTablesRows := fun w =>
  ⟨fun _ h => ⟨encode_of_decodeWord h, wellFormed_of_decodeWord h⟩, decodes_iff_matches_row w,
    fun _ h1 _ h2 => row_unique h1 h2⟩

/-- Settles O4: each word is the encoding of its command; the last one's selector is neither 0 nor 1. -/
theorem knownCommandWordsDecode : Obligations.KnownCommandWordsDecode :=
  ⟨decodeWord_of_encode_eq (by decide) rfl, decodeWord_of_encode_eq (by decide) rfl,
    decodeWord_of_encode_eq (by decide) rfl, decodeWord_of_encode_eq (by decide) rfl,
    decodeWord_of_encode_eq (by decide) rfl, decodeWord_of_encode_eq (by decide) rfl,
    decodeWord_of_encode_eq (by decide) rfl, rfl⟩

end Sys2Proof
end

section
/-! SUPPORT. What a command can do to the state, said once for all commands (10_state.md sections 2 to 6, 20_memory.md
section 4): the eight effects, and that `exec` has one of them. -/

namespace Sys2Proof.Machine

/-! Memory and the stream after a command. -/

/-- `m` is a memory that the command `i` may leave: outside its store range every byte is the old one, and the canonical
form and the end of memory are kept. -/
structure LeavesMem (i : Instr) (s : State) (m : Memory) : Prop where
  outside : ∀ n, (∀ addr len, storeRange s i = some (addr, len) → n < addr ∨ addr + len ≤ n) → m.read n = s.mem.read n
  canonical : s.mem.wf = true → m.wf = true
  inMemory : s.mem.below s.cfg.memSize = true → m.below s.cfg.memSize = true

theorem leavesMem_same (i : Instr) (s : State) : LeavesMem i s s.mem := ⟨fun _ _ => rfl, id, id⟩

theorem leavesMem_writeBytes {i : Instr} {s : State} {addr len : Nat} {bs : List Byte}
    (hrange : storeRange s i = some (addr, len)) (hlen : bs.length ≤ len) (hin : addr + len ≤ s.cfg.memSize) :
    LeavesMem i s (s.mem.writeBytes addr bs) where
  outside n hn := by
    have hout := hn addr len hrange
    rw [Memory.read_writeBytes, if_neg (by omega)]
  canonical := Memory.wf_writeBytes bs s.mem addr
  inMemory hbelow := Memory.below_writeBytes _ bs s.mem addr hbelow (by omega)

theorem leavesMem_cryptBlocks {i : Instr} {s : State} {addr len : Nat} {f : List Byte → List Byte}
    (hf : ∀ blk, (f blk).length = 8) (hrange : storeRange s i = some (addr, len)) (hin : addr + len ≤ s.cfg.memSize) :
    LeavesMem i s (cryptBlocks f (len / 8) addr s.mem) where
  outside n hn := by
    have hout := hn addr len hrange
    exact (cryptBlocks_read f hf (len / 8) addr s.mem).2 n (by omega)
  canonical := wf_cryptBlocks f _ addr s.mem
  inMemory hbelow := below_cryptBlocks f hf _ _ addr s.mem hbelow (by omega)

theorem foldByte_foldByte (x : Byte) : foldByte (foldByte x) = foldByte x := by
  apply BitVec.eq_of_toNat_eq
  rw [foldByte_toNat (foldByte x), foldByte_toNat x]
  split_ifs <;> omega

/-- What R38 says of `HPEND`: at most three bytes, each folded. -/
def pendingOk (pend : List Byte) : Prop := pend.length ≤ 3 ∧ ∀ x ∈ pend, foldByte x = x

theorem pendingOk_hashAbsorb {st : Word × List Byte} (h : pendingOk st.2) (x : Byte) :
    pendingOk (hashAbsorb st x).2 := by
  obtain ⟨hlen, hfolded⟩ := h
  simp only [hashAbsorb]
  split_ifs with hfull
  · exact ⟨Nat.zero_le 3, nofun⟩
  · refine ⟨?_, fun y hy => ?_⟩
    · simp only [List.length_append, List.length_singleton] at hfull ⊢
      omega
    · rcases List.mem_append.mp hy with hold | hnew
      · exact hfolded y hold
      · rw [List.mem_singleton.mp hnew, foldByte_foldByte]

theorem pendingOk_foldl_hashAbsorb {st : Word × List Byte} (h : pendingOk st.2) (bs : List Byte) :
    pendingOk (bs.foldl hashAbsorb st).2 := by
  induction bs generalizing st with
  | nil => exact h
  | cons x bs ih => exact ih (pendingOk_hashAbsorb h x)

/-! The effects. -/

/-- What the command `i` can make of the state `s`. Bounds that hold of every state with the invariant take it as a
premise. -/
inductive Effect (i : Instr) (s : State) : State → Prop where
  /-- HALT's end of the run. -/
  | halts (h : i = .halt) : Effect i s { s.advance with busy := false, done := true }
  /-- Nothing but `cp` changes. -/
  | movesCp (target : Word) (h : i ≠ .halt) : Effect i s { s with cp := target }
  /-- The X destination is written, behind the bytes stored, if any. -/
  | setsX (a : XReg) (v : Word) {m : Memory} (h : destX i = some a) (hmem : LeavesMem i s m) :
    Effect i s (({ s with mem := m } : State).setX a v).advance
  /-- The B destination is written, with a value that fits. -/
  | setsB (a : BReg) {v : Nat} (h : destB i = some a) (hv : s.Inv → v < s.cfg.bnCapacity) :
    Effect i s (s.setB a v).advance
  /-- Bytes are stored and nothing else is written. -/
  | stores {m : Memory} (h : i ≠ .halt) (hmem : LeavesMem i s m) : Effect i s { s.advance with mem := m }
  /-- The streaming hash is set. -/
  | setsHash (st : Word × List Byte) (h : writesHashState i = true) (hpend : s.Inv → pendingOk st.2) :
    Effect i s (s.setHash st).advance
  /-- The cipher is keyed. -/
  | keys (t : CipherTables) (h : writesCipherState i = true) :
    Effect i s { s.advance with tables := t, keyed := true }
  /-- Fault entry, behind an LZ command's partial output, if any. -/
  | faults (cause : FaultCause) (info : Word) {m : Memory} (h : i ≠ .halt) (hmem : LeavesMem i s m) :
    Effect i s (({ s with mem := m } : State).faultEntry cause info)

/-- The outcome is a next state that `i` can make of `s`. -/
def hasEffect (i : Instr) (s : State) (o : Host.Outcome State Fault Refusal) : Prop :=
  ∃ t, o = .next t ∧ Effect i s t

section
variable {i : Instr} {s t : State} {cause : FaultCause} {info : Word} {o : Host.Outcome State Fault Refusal}

theorem hasEffect_next (h : Effect i s t) : hasEffect i s (.next t) := ⟨t, rfl, h⟩

theorem hasEffect_setX {a : XReg} {v : Word} (h : destX i = some a) : hasEffect i s (.next (s.setX a v).advance) :=
  hasEffect_next (.setsX a v h (leavesMem_same i s))

theorem hasEffect_fault (h : i ≠ .halt) : hasEffect i s (.next (s.faultEntry cause info)) :=
  hasEffect_next (.faults cause info h (leavesMem_same i s))

theorem hasEffect_ite_fault {p : Prop} [Decidable p] (h : i ≠ .halt) (hrest : ¬p → hasEffect i s o) :
    hasEffect i s (if p then .next (s.faultEntry cause info) else o) := by
  split_ifs with hp
  · exact hasEffect_fault h
  · exact hrest hp

/-- A range check before the rest of the command. -/
theorem hasEffect_ite_inRange {addr n : Nat} (h : i ≠ .halt) (hrest : addr + n ≤ s.cfg.memSize → hasEffect i s o) :
    hasEffect i s (if s.inRange addr n then o else .next (s.faultEntry cause info)) := by
  split_ifs with hin
  · exact hrest ((s.inRange_iff addr n).mp hin)
  · exact hasEffect_fault h

/-! The shared operations. -/

theorem hasEffect_writeFitting {a : BReg} (h : destB i = some a) (v : Nat) :
    hasEffect i s (writeFitting a v s) := by
  rcases writeFitting_cases a v s with ⟨hfits, heq⟩ | ⟨-, heq⟩
  · exact heq ▸ hasEffect_next (.setsB a h fun _ => hfits)
  · exact heq ▸ hasEffect_fault (by rintro rfl; cases h)

theorem hasEffect_cryptBuffer {f : CipherTables → List Byte → List Byte} {a b : XReg}
    (hf : ∀ t blk, (f t blk).length = 8) (hhalt : i ≠ .halt) (hrange : storeRange s i = some (s.natX a, s.natX b)) :
    hasEffect i s (cryptBuffer f a b s) := by
  rcases cryptBuffer_cases f a b s with ⟨-, heq⟩ | ⟨-, -, heq⟩ | ⟨-, -, -, heq⟩ | ⟨-, -, hin, heq⟩
  · exact heq ▸ hasEffect_fault hhalt
  · exact heq ▸ hasEffect_fault hhalt
  · exact heq ▸ hasEffect_fault hhalt
  · exact heq ▸ hasEffect_next (.stores hhalt (leavesMem_cryptBlocks (hf s.tables) hrange hin))

theorem hasEffect_codecCommand {f : List Byte → Nat → LzResult} {a b c d e : XReg}
    (hcap : ∀ src cap, (f src cap).out.length ≤ cap) (hhalt : i ≠ .halt) (hdest : destX i = some a)
    (hrange : storeRange s i = some (s.natX d, s.natX e)) : hasEffect i s (codecCommand f a b c d e s) := by
  have hlen := hcap (s.memRead (s.natX b) (s.natX c)) (s.natX e)
  rcases codecCommand_cases f a b c d e s with ⟨-, heq⟩ | ⟨-, -, heq⟩ | ⟨-, -, -, heq⟩ |
    ⟨-, hin, -, ⟨out, hout, heq⟩ | ⟨out, hout, heq⟩ | ⟨out, hout, heq⟩⟩
  · exact heq ▸ hasEffect_fault hhalt
  · exact heq ▸ hasEffect_fault hhalt
  · exact heq ▸ hasEffect_fault hhalt
  all_goals
    rw [hout] at hlen
    have hmem := leavesMem_writeBytes hrange hlen hin
  · exact heq ▸ hasEffect_next (.setsX a _ hdest hmem)
  · exact heq ▸ hasEffect_next (.faults _ _ hhalt hmem)
  · exact heq ▸ hasEffect_next (.faults _ _ hhalt hmem)

end

/-! Values that fit in a B register of every state with the invariant (10_state.md R32). -/

theorem limbs_of_inv {s : State} (h : s.Inv) : 20 ≤ s.cfg.bnLimbs := by
  have hvalid := h.config
  simp only [Config.valid, Bool.and_eq_true, decide_eq_true_eq] at hvalid
  exact hvalid.2

theorem word_lt_bnCapacity {s : State} (h : s.Inv) (w : Word) : w.toNat < s.cfg.bnCapacity :=
  word_lt_capacity w (limbs_of_inv h)

theorem modulus_lt_bnCapacity {s : State} (h : s.Inv) : beNat s.cfg.pkModulus.toList < s.cfg.bnCapacity := by
  have hlt := beNat_lt s.cfg.pkModulus.toList
  rw [Vector.length_toList] at hlt
  exact lt_capacity_of_lt_pkLen hlt (limbs_of_inv h)

/-! Every command. -/

theorem hasEffect_exec (i : Instr) (s : State) : hasEffect i s (exec i s) := by
  cases i
  case halt => exact hasEffect_next (.halts rfl)
  case nop => exact hasEffect_next (.movesCp _ nofun)
  case li a imm => exact hasEffect_setX rfl
  case addi a b imm => exact hasEffect_setX rfl
  case bnz a imm =>
    by_cases hzero : s.getX a = 0
    · exact exec_bnz_of_eq_zero hzero imm ▸ hasEffect_next (.movesCp _ nofun)
    · exact exec_bnz_of_ne_zero hzero imm ▸ hasEffect_next (.movesCp _ nofun)
  case jmp imm => exact hasEffect_next (.movesCp _ nofun)
  case ldw a b imm => exact hasEffect_ite_inRange nofun fun _ => hasEffect_setX rfl
  case stw a b imm =>
    refine hasEffect_ite_inRange nofun fun hin => hasEffect_next (.stores nofun ?_)
    exact leavesMem_writeBytes rfl (length_leBytes _ _).le hin
  case hInit => exact hasEffect_next (.setsHash _ rfl fun _ => ⟨Nat.zero_le 3, nofun⟩)
  case hFeed a b =>
    refine hasEffect_ite_inRange nofun fun _ => hasEffect_next (.setsHash _ rfl fun hinv => ?_)
    exact pendingOk_foldl_hashAbsorb ⟨hinv.pendLength, hinv.pendFolded⟩ _
  case hFinal a => exact hasEffect_setX rfl
  case hHash a b c => exact hasEffect_ite_inRange nofun fun _ => hasEffect_setX rfl
  case bnLd a b c => exact hasEffect_ite_inRange nofun fun _ => hasEffect_writeFitting rfl _
  case bnLdi a imm => exact hasEffect_next (.setsB a rfl fun hinv => word_lt_bnCapacity hinv imm)
  case bnLdk a imm =>
    simp only [exec, execBnLdk, raise_eq]
    split_ifs
    · exact hasEffect_next (.setsB a rfl modulus_lt_bnCapacity)
    · exact hasEffect_next (.setsB a rfl fun hinv => word_lt_bnCapacity hinv _)
    · exact hasEffect_fault nofun
  case bnSt a b c d =>
    refine hasEffect_ite_inRange nofun fun hin => hasEffect_next (.setsX d _ rfl ?_)
    exact leavesMem_writeBytes rfl (length_beBytes _ _).le hin
  case bnCmp a b c => exact hasEffect_setX rfl
  case bnSub a b c =>
    exact hasEffect_ite_fault nofun fun _ => hasEffect_next (.setsB a rfl fun hinv =>
      (Nat.sub_le _ _).trans_lt (hinv.capacity b))
  case bnMul a b c => exact hasEffect_writeFitting rfl _
  case bnShl a b => exact hasEffect_writeFitting rfl _
  case bnShr a b =>
    exact hasEffect_next (.setsB a rfl fun hinv => (Nat.div_le_self _ _).trans_lt (hinv.capacity b))
  case bnPar a b => exact hasEffect_setX rfl
  case bnMod a b c =>
    exact hasEffect_ite_fault nofun fun hmod => hasEffect_next (.setsB a rfl fun hinv =>
      (Nat.mod_lt _ (Nat.pos_of_ne_zero hmod)).trans (hinv.capacity c))
  case bnModexp a b c d =>
    rw [exec_bnModexp]
    exact hasEffect_ite_fault nofun fun hmod => hasEffect_next (.setsB a rfl fun hinv =>
      (Nat.mod_lt _ (Nat.pos_of_ne_zero hmod)).trans (hinv.capacity d))
  case bfKey a b =>
    exact hasEffect_ite_fault nofun fun _ => hasEffect_ite_inRange nofun fun _ => hasEffect_next (.keys _ rfl)
  case bfEnc a b => exact hasEffect_cryptBuffer (fun _ _ => length_halvesBlock _) nofun rfl
  case bfDec a b => exact hasEffect_cryptBuffer (fun _ _ => length_halvesBlock _) nofun rfl
  case lzDec a b c d e => exact hasEffect_codecCommand length_out_lzDecode_le nofun rfl rfl
  case lzEnc a b c d e => exact hasEffect_codecCommand length_out_lzEncode_le nofun rfl rfl

/-- What a command makes of the state is one of its effects. -/
theorem effect_of_exec {i : Instr} {s t : State} (h : exec i s = .next t) : Effect i s t := by
  obtain ⟨u, hu, heffect⟩ := hasEffect_exec i s
  cases hu.symm.trans h
  exact heffect

end Sys2Proof.Machine
end

section
/-! SUPPORT. The machine's invariant (10_state.md sections 3 to 6, 20_memory.md section 1): it holds after reset, every
effect of a command keeps it, and so do the host's port operations; then the statements about it. -/

namespace Sys2Proof.Machine

/-! Reset. -/

/-- Power-on has the invariant whatever the parameters and a canonical memory within them (R66). -/
theorem inv_powerOn {cfg : Config} {mem : Memory} (hcfg : cfg.valid = true) (hwf : mem.wf = true)
    (hbelow : mem.below cfg.memSize = true) (tables : CipherTables) : (State.powerOn cfg mem tables).Inv where
  config := hcfg
  capacity r := by
    rw [State.powerOn_getB]
    exact Nat.two_pow_pos _
  pendLength := Nat.zero_le 3
  pendFolded := nofun
  notBusyDone := nofun
  notBusyFaulted := nofun
  notDoneFaulted := nofun
  recorded := nofun
  unrecorded _ := ⟨rfl, rfl, rfl⟩
  canonical := hwf
  inMemory := hbelow

section
variable {s : State}

/-! Updates that commands are made of. -/

theorem inv_advance (h : s.Inv) : s.advance.Inv := { h with }

theorem inv_setX (h : s.Inv) (a : XReg) (v : Word) : (s.setX a v).Inv := { h with }

theorem inv_setB (h : s.Inv) (a : BReg) {v : Nat} (hv : v < s.cfg.bnCapacity) : (s.setB a v).Inv :=
  { h with
    capacity := fun r => by
      rw [State.getB_setB, State.setB_cfg]
      split_ifs
      · exact hv
      · exact h.capacity r }

theorem inv_setHash (h : s.Inv) {st : Word × List Byte} (hpend : pendingOk st.2) : (s.setHash st).Inv :=
  { h with pendLength := hpend.1, pendFolded := hpend.2 }

theorem inv_mem (h : s.Inv) {m : Memory} (hwf : m.wf = true) (hbelow : m.below s.cfg.memSize = true) :
    ({ s with mem := m } : State).Inv :=
  { h with canonical := hwf, inMemory := hbelow }

theorem inv_leavesMem (h : s.Inv) {i : Instr} {m : Memory} (hmem : LeavesMem i s m) :
    ({ s with mem := m } : State).Inv :=
  inv_mem h (hmem.canonical h.canonical) (hmem.inMemory h.inMemory)

/-- Fault entry of a busy machine: it is not `done`, and the code is one of R400's. -/
theorem inv_faultEntry (h : s.Inv) (hbusy : s.busy = true) (cause : FaultCause) (info : Word) :
    (s.faultEntry cause info).Inv :=
  { h with
    notBusyDone := nofun
    notBusyFaulted := nofun
    notDoneFaulted := fun ⟨hdone, _⟩ => h.notBusyDone ⟨hbusy, hdone⟩
    recorded := fun _ => cause.code_bounds
    unrecorded := nofun }

/-- HALT of a busy machine: it is not `faulted`. -/
theorem inv_halt (h : s.Inv) (hbusy : s.busy = true) :
    ({ s.advance with busy := false, done := true } : State).Inv :=
  { h with
    notBusyDone := nofun
    notBusyFaulted := nofun
    notDoneFaulted := fun ⟨_, hfaulted⟩ => h.notBusyFaulted ⟨hbusy, hfaulted⟩ }

/-- Every effect of a command on a busy machine keeps the invariant. -/
theorem inv_effect {i : Instr} {t : State} (h : s.Inv) (hbusy : s.busy = true) (heffect : Effect i s t) : t.Inv := by
  cases heffect with
  | halts => exact inv_halt h hbusy
  | movesCp target => exact { h with }
  | setsX a v _ hmem => exact inv_advance (inv_setX (inv_leavesMem h hmem) a v)
  | setsB a _ hv => exact inv_advance (inv_setB h a (hv h))
  | stores _ hmem => exact inv_advance (inv_leavesMem h hmem)
  | setsHash st _ hpend => exact inv_advance (inv_setHash h (hpend h))
  | keys => exact { h with }
  | faults cause info _ hmem => exact inv_faultEntry (inv_leavesMem h hmem) hbusy cause info

theorem inv_sequencerStep {t : State} (h : s.Inv) (hstep : sequencerStep s = .next t) : t.Inv := by
  rcases sequencerStep_cases s with ⟨-, heq⟩ | ⟨hbusy, i, -, heq⟩ | ⟨hbusy, cause, info, -, heq⟩
  · cases heq.symm.trans hstep
    exact h
  · exact inv_effect h hbusy (effect_of_exec (heq.symm.trans hstep))
  · cases heq.symm.trans hstep
    exact inv_faultEntry h hbusy cause info

/-! The host's operations. -/

theorem inv_takeTurn (h : s.Inv) (rest : List HostTurn) : (s.takeTurn rest).Inv := { h with }

/-- ACK clears the record together with `faulted` (R61). -/
theorem inv_acknowledge (h : s.Inv) : s.acknowledge.Inv :=
  { h with
    notBusyDone := nofun
    notBusyFaulted := nofun
    notDoneFaulted := nofun
    recorded := nofun
    unrecorded := fun _ => ⟨rfl, rfl, rfl⟩ }

theorem inv_ackIf (h : s.Inv) (ack : Bool) : (s.ackIf ack).Inv := by
  cases ack with
  | false => exact h
  | true => exact inv_acknowledge h

/-- START runs the sequencer only where it is not faulted (R61). -/
theorem inv_start (h : s.Inv) : s.start.Inv := by
  cases hstop : s.busy || s.faulted with
  | true => exact State.start_of_refused hstop ▸ { h with }
  | false =>
    obtain ⟨-, hclear⟩ := Bool.or_eq_false_iff.mp hstop
    rw [State.start_of_accepted hstop]
    exact { h with
      notBusyDone := nofun
      notBusyFaulted := fun ⟨_, hfaulted⟩ => Bool.false_ne_true (hclear.symm.trans hfaulted)
      notDoneFaulted := nofun }

theorem inv_startIf (h : s.Inv) (start : Bool) : (s.startIf start).Inv := by
  cases start with
  | false => exact h
  | true => exact inv_start h

/-- Soft reset is power-on with the memory as it was (70_reset_and_hazards.md R452). -/
theorem inv_softReset (h : s.Inv) : s.softReset.Inv :=
  { inv_powerOn h.config h.canonical h.inMemory s.softReset.tables with }

theorem inv_writeCtrl (h : s.Inv) (w : Word) : (s.writeCtrl w).Inv := by
  rcases Bool.eq_false_or_eq_true (w.getLsbD 2) with hreset | hreset
  · exact State.writeCtrl_of_reset hreset s ▸ inv_softReset h
  · rw [State.writeCtrl_of_noReset hreset]
    have hirq : ({ s with irqEn := w.getLsbD 8 } : State).Inv := { h with }
    exact inv_startIf (inv_ackIf hirq _) _

theorem inv_hostWriteReg (h : s.Inv) (reg : HostReg) (w : Word) : (s.hostWriteReg reg w).Inv := by
  by_cases hctrl : reg = .ctrl
  · rw [hctrl, State.hostWriteReg_ctrl]
    exact inv_writeCtrl h w
  · obtain ⟨err, cp, x, heq⟩ := s.hostWriteReg_eq_update hctrl w
    exact heq ▸ { h with }

/-- What the memory port takes of a write lies inside memory (20_memory.md R90). -/
theorem below_memPortAccepted (h : s.mem.below s.cfg.memSize = true) (addr : Nat) (bs : List Byte) :
    (s.mem.writeBytes addr (s.memPortAccepted addr bs)).below s.cfg.memSize = true := by
  by_cases hpast : s.busy = true ∨ s.cfg.memSize ≤ addr
  · have hnone : s.memPortAccepted addr bs = [] := by
      unfold State.memPortAccepted
      split_ifs with hbusy
      · rfl
      · rw [Nat.sub_eq_zero_of_le (hpast.resolve_left hbusy), List.take_zero]
    rwa [hnone]
  · obtain ⟨hidle, hin⟩ := not_or.mp hpast
    refine Memory.below_writeBytes _ _ _ _ h ?_
    rw [State.memPortAccepted, if_neg hidle, List.length_take]
    omega

theorem inv_hostWriteMem (h : s.Inv) (addr : Nat) (bs : List Byte) : (s.hostWriteMem addr bs).Inv := by
  have hmem := inv_mem h (Memory.wf_writeBytes (s.memPortAccepted addr bs) s.mem addr h.canonical)
    (below_memPortAccepted h.inMemory addr bs)
  exact State.hostWriteMem_eq s addr bs ▸ { hmem with }

theorem inv_hostAct {action : HostAction} {t : State} (h : s.Inv) (hact : hostAct action s = .next t) : t.Inv := by
  cases action with
  | readReg offset bytes =>
    simp only [hostAct, State.hostReadReg_eq] at hact
    split_ifs at hact
    cases hact
    exact { h with }
  | writeReg offset bytes value =>
    simp only [hostAct] at hact
    split_ifs at hact
    cases hact
    exact inv_hostWriteReg h _ value
  | readMem addr n =>
    simp only [hostAct, State.hostReadMem_eq] at hact
    cases hact
    exact { h with }
  | writeMem addr bs =>
    cases hact
    exact inv_hostWriteMem h _ bs

end

/-! The statements. -/

/-- Settles O60: a turn taken keeps the invariant, and then the sequencer's step or the host's action does. -/
theorem everyStepKeepsTheInvariant : Obligations.EveryStepKeepsTheInvariant := by
  intro s t h hstep
  rcases step_cases s with ⟨-, heq⟩ | ⟨rest, -, heq⟩ | ⟨action, rest, -, heq⟩
  · exact inv_sequencerStep h (heq.symm.trans hstep)
  · exact inv_sequencerStep (inv_takeTurn h rest) (heq.symm.trans hstep)
  · exact inv_hostAct (inv_takeTurn h rest) (heq.symm.trans hstep)

/-- Settles O59: the machine after reset is a power-on with allowed parameters and an empty memory. -/
theorem resetHasTheInvariant : Obligations.ResetHasTheInvariant :=
  inv_powerOn rfl rfl rfl CipherTables.zero

end Sys2Proof.Machine
end

section
/-! SUPPORT. What follows from the effects of a command: its frame (20_memory.md section 4, 60_exceptions.md section 6)
and how a step of a running sequencer ends (60_exceptions.md section 2); then the statements about them. -/

namespace Sys2Proof.Machine

section
variable {i : Instr} {s t : State}

/-! The frame. -/

theorem getX_of_effect (h : Effect i s t) {r : XReg} (hr : destX i ≠ some r) : t.getX r = s.getX r := by
  cases h with
  | setsX a v hdest =>
    rw [State.advance_getX, State.getX_setX, if_neg (by rintro rfl; exact hr hdest)]
    rfl
  | _ => rfl

theorem getB_of_effect (h : Effect i s t) {r : BReg} (hr : destB i ≠ some r) : t.getB r = s.getB r := by
  cases h with
  | setsB a hdest => rw [State.advance_getB, State.getB_setB, if_neg (by rintro rfl; exact hr hdest)]
  | _ => rfl

theorem keepsHash_of_effect (h : Effect i s t) (hi : writesHashState i = false) : keepsHash s t := by
  cases h with
  | setsHash st hwrites => exact absurd hi (by simp [hwrites])
  | _ => exact ⟨rfl, rfl⟩

theorem keepsCipher_of_effect (h : Effect i s t) (hi : writesCipherState i = false) : keepsCipher s t := by
  cases h with
  | keys tables hwrites => exact absurd hi (by simp [hwrites])
  | _ => exact ⟨rfl, rfl⟩

theorem byteAt_of_effect (h : Effect i s t) {n : Nat}
    (hn : ∀ addr len, storeRange s i = some (addr, len) → n < addr ∨ addr + len ≤ n) : t.byteAt n = s.byteAt n := by
  cases h with
  | setsX a v _ hmem => exact hmem.outside n hn
  | stores _ hmem => exact hmem.outside n hn
  | faults cause info _ hmem => exact hmem.outside n hn
  | _ => rfl

theorem keepsHost_of_effect (h : Effect i s t) : keepsHost s t := by
  cases h <;> exact ⟨rfl, rfl, rfl, rfl, rfl⟩

theorem hostErr_of_effect (h : Effect i s t) : t.hostErr = s.hostErr := by
  cases h <;> rfl

/-! How a running sequencer's step ends. -/

theorem running_of_keepsRun (hrun : running s) (h : keepsRun s t) : running t := by
  obtain ⟨hbusy, hdone, hfaulted, -⟩ := h
  rwa [running, hbusy, hdone, hfaulted]

theorem endedFaulted_faultEntry (hrun : running s) (cause : FaultCause) (info : Word) :
    endedFaulted (s.faultEntry cause info) := by
  obtain ⟨-, hdone, -⟩ := hrun
  exact ⟨rfl, hdone, rfl⟩

theorem endedDone_halt (hrun : running s) : endedDone { s.advance with busy := false, done := true } := by
  obtain ⟨-, -, hfaulted⟩ := hrun
  exact ⟨rfl, rfl, hfaulted⟩

theorem not_endedDone_of_running (h : running t) : ¬endedDone t := by
  rintro ⟨hidle, -, -⟩
  cases hidle.symm.trans h.1

theorem not_endedDone_of_endedFaulted (h : endedFaulted t) : ¬endedDone t := by
  rintro ⟨-, hdone, -⟩
  cases hdone.symm.trans h.2.1

/-- The three ends of a step, with `halted` the condition of the end by HALT. -/
def endsInOneWay (halted : Prop) (t : State) : Prop :=
  (running t ∨ endedDone t ∨ endedFaulted t) ∧ (endedDone t ↔ halted)

theorem endsInOneWay_of_running {halted : Prop} (h : running t) (hhalt : ¬halted) : endsInOneWay halted t :=
  ⟨.inl h, iff_of_false (not_endedDone_of_running h) hhalt⟩

theorem endsInOneWay_of_faulted {halted : Prop} (h : endedFaulted t) (hhalt : ¬halted) : endsInOneWay halted t :=
  ⟨.inr (.inr h), iff_of_false (not_endedDone_of_endedFaulted h) hhalt⟩

theorem endsInOneWay_of_effect (hrun : running s) (h : Effect i s t) : endsInOneWay (i = .halt) t := by
  cases h with
  | halts hhalt => exact ⟨.inr (.inl (endedDone_halt hrun)), iff_of_true (endedDone_halt hrun) hhalt⟩
  | movesCp target hhalt => exact endsInOneWay_of_running (running_of_keepsRun hrun ⟨rfl, rfl, rfl, rfl⟩) hhalt
  | stores hhalt => exact endsInOneWay_of_running (running_of_keepsRun hrun ⟨rfl, rfl, rfl, rfl⟩) hhalt
  | faults cause info hhalt => exact endsInOneWay_of_faulted (endedFaulted_faultEntry hrun cause info) hhalt
  | setsX _ _ hdest | setsB _ hdest | setsHash _ hdest | keys _ hdest =>
    exact endsInOneWay_of_running (running_of_keepsRun hrun ⟨rfl, rfl, rfl, rfl⟩) (by rintro rfl; cases hdest)

end

/-! The statements. -/

/-- Settles O51: each part of the frame, of every effect. -/
theorem commandsWriteOnlyTheirOwnState : Obligations.CommandsWriteOnlyTheirOwnState := by
  intro i s t hexec
  have h := effect_of_exec hexec
  refine ⟨fun _ => getX_of_effect h, fun _ => getB_of_effect h, keepsHash_of_effect h, keepsCipher_of_effect h,
    fun hnone n => byteAt_of_effect h fun _ _ hsome => ?_,
    fun addr len hrange n hn => byteAt_of_effect h fun _ _ hsome => ?_, keepsHost_of_effect h, hostErr_of_effect h⟩
  · cases hnone.symm.trans hsome
  · cases hrange.symm.trans hsome
    exact hn

/-- Settles O50: the fetched command has an effect, and a fetch or decode fault is fault entry. -/
theorem stepEndsInOneWay : Obligations.StepEndsInOneWay := by
  intro s hturns hrun
  cases hfetch : s.fetchInstr with
  | ok i =>
    obtain ⟨t, hexec, heffect⟩ := hasEffect_exec i s
    refine ⟨t, (step_of_fetchInstr_ok hturns hrun.1 hfetch).trans hexec, ?_⟩
    simp only [Except.ok.injEq]
    exact endsInOneWay_of_effect hrun heffect
  | error e =>
    obtain ⟨cause, info⟩ := e
    exact ⟨_, step_of_fetchFault hturns hrun.1 hfetch,
      endsInOneWay_of_faulted (endedFaulted_faultEntry hrun cause info) nofun⟩

end Sys2Proof.Machine
end

section
/-! SUPPORT. The machine's turns: the sequencer's, with the command that stands at `cp` (40_sequencer.md R150, R151,
R156), and the host's, with what the register port refuses (10_state.md R50) and how a run goes on after a fault
(60_exceptions.md R415); then the statements about them. -/

namespace Sys2Proof.Machine

/-! The sequencer's turn. -/

theorem step_of_idle {s : State} (hturns : s.hostTurns = []) (hidle : s.busy = false) : step s = .next s := by
  simp only [step, turnStep, hturns, sequencerStep, hidle, Bool.false_eq_true, if_false]

/-- A turn that the host gave the sequencer is the sequencer's on the state with the turn taken. -/
theorem step_of_letRun {s : State} {rest : List HostTurn} (hturns : s.hostTurns = .letRun :: rest) :
    step s = sequencerStep (s.takeTurn rest) := by
  simp only [step, turnStep, hturns, State.takeTurn]

theorem sequencerStep_of_fetchInstr_ok {s : State} {i : Instr} (hbusy : s.busy = true)
    (hfetch : s.fetchInstr = .ok i) : sequencerStep s = exec i s := by
  simp only [sequencerStep, hbusy, if_true, hfetch]

theorem State.fetchInstr_of_decodeWord {s : State} {i : Instr} (haligned : s.cp.toNat % 8 = 0)
    (hin : s.cp.toNat + 8 ≤ s.cfg.memSize) (h : decodeWord (wordOfBytes (s.memRead s.cp.toNat 8)) = .ok i) :
    s.fetchInstr = .ok i := by
  rcases s.fetchInstr_cases with ⟨hmisaligned, -⟩ | ⟨-, hpast, -⟩ | ⟨-, -, ⟨j, hdecode, hfetch⟩ | ⟨_, hdecode, -⟩⟩
  · exact absurd haligned hmisaligned
  · exact absurd hin (Nat.not_le.mpr hpast)
  · cases hdecode.symm.trans h
    exact hfetch
  · cases hdecode.symm.trans h

theorem decodeWord_of_decodeBytes {bs rest : List Byte} {i : Instr} (h : decodeBytes bs = .ok (i, rest)) :
    decodeWord (wordOfBytes bs) = .ok i := by
  unfold decodeBytes at h
  split_ifs at h
  cases hdecode : decodeWord (wordOfBytes bs) with
  | error e => simp [hdecode] at h
  | ok j =>
    simp only [hdecode, Except.ok.injEq, Prod.mk.injEq] at h
    rw [h.1]

/-- The command word that the eight bytes at `addr` make, little-endian (30_encoding.md R110). -/
theorem State.wordOfBytes_memRead_of_sum {s : State} {addr : Nat} {w : CmdWord}
    (h : w.toNat = ∑ k ∈ Finset.range 8, (s.byteAt (addr + k)).toNat * 256 ^ k) :
    wordOfBytes (s.memRead addr 8) = w := by
  have htake : (s.memRead addr 8).take 8 = s.memRead addr 8 := List.take_of_length_le (by simp [State.memRead])
  rw [wordOfBytes, htake, State.leNat_memRead, ← h, BitVec.ofNat_toNat, BitVec.setWidth_eq]

theorem exec_jmp (imm : Word) (s : State) : exec (.jmp imm) s = .next { s with cp := s.cp + imm } := rfl

/-! What the register port refuses (10_state.md R50; log 11). -/

theorem portAccessOk_iff (off : Word) (bytes : Nat) :
    portAccessOk off bytes = true ↔ bytes = 4 ∧ off.toNat % 4 = 0 := by
  simp [portAccessOk]

theorem ite_portAccessOk_eq_refused_iff {off : Word} {bytes : Nat} {t : State} {r : Refusal} :
    (if portAccessOk off bytes then .next t else .refused (.hostAccessOutsideProtocol off bytes) :
      Host.Outcome State Fault Refusal) = .refused r ↔
      r = .hostAccessOutsideProtocol off bytes ∧ (bytes ≠ 4 ∨ off.toNat % 4 ≠ 0) := by
  rw [← not_and_or, ← portAccessOk_iff]
  split_ifs with hok
  · simp [hok]
  · simp [hok, eq_comm]

/-- The action is an access to the register port, `bytes` wide at `off`. -/
def HostAction.accesses (off : Word) (bytes : Nat) (action : HostAction) : Prop :=
  action = .readReg off bytes ∨ ∃ w, action = .writeReg off bytes w

theorem hostAct_eq_refused_iff (action : HostAction) (s : State) (r : Refusal) :
    hostAct action s = .refused r ↔
      ∃ off bytes, r = .hostAccessOutsideProtocol off bytes ∧ (bytes ≠ 4 ∨ off.toNat % 4 ≠ 0) ∧
        action.accesses off bytes := by
  cases action with
  | readReg off bytes =>
    refine ite_portAccessOk_eq_refused_iff.trans ⟨fun ⟨hr, hbad⟩ => ⟨off, bytes, hr, hbad, .inl rfl⟩, ?_⟩
    rintro ⟨_, _, hr, hbad, haccess | ⟨_, haccess⟩⟩ <;> cases haccess
    exact ⟨hr, hbad⟩
  | writeReg off bytes w =>
    refine ite_portAccessOk_eq_refused_iff.trans ⟨fun ⟨hr, hbad⟩ => ⟨off, bytes, hr, hbad, .inr ⟨w, rfl⟩⟩, ?_⟩
    rintro ⟨_, _, hr, hbad, haccess | ⟨_, haccess⟩⟩ <;> cases haccess
    exact ⟨hr, hbad⟩
  | readMem addr n =>
    refine iff_of_false nofun ?_
    rintro ⟨_, _, -, -, haccess | ⟨_, haccess⟩⟩ <;> cases haccess
  | writeMem addr bs =>
    refine iff_of_false nofun ?_
    rintro ⟨_, _, -, -, haccess | ⟨_, haccess⟩⟩ <;> cases haccess

theorem sequencerStep_ne_refused (s : State) (r : Refusal) : sequencerStep s ≠ .refused r := by
  obtain ⟨t, ht⟩ := sequencerStep_next s
  rw [ht]
  nofun

theorem step_eq_refused_iff (s : State) (r : Refusal) :
    step s = .refused r ↔ ∃ action rest, s.hostTurns = .act action :: rest ∧
      hostAct action (s.takeTurn rest) = .refused r := by
  rcases step_cases s with ⟨hturns, hstep⟩ | ⟨rest, hturns, hstep⟩ | ⟨action, rest, hturns, hstep⟩
  · exact iff_of_false (hstep ▸ sequencerStep_ne_refused _ r) (by simp [hturns])
  · exact iff_of_false (hstep ▸ sequencerStep_ne_refused _ r) (by simp [hturns])
  · rw [hstep, hturns]
    refine ⟨fun h => ⟨action, rest, rfl, h⟩, ?_⟩
    rintro ⟨_, _, ⟨⟩, h⟩
    exact h

/-! The statements. -/

/-- Settles O5: the fetch's cases in their order, with the word that the eight bytes make. -/
theorem sequencerStepFetchesDecodesExecutes : Obligations.SequencerStepFetchesDecodesExecutes := by
  refine fun s hturns => ⟨step_of_idle hturns, fun hbusy => ⟨fun hmisaligned => ?_, fun haligned hpast => ?_,
    fun haligned hin w hsum => ?_⟩⟩
  · exact ⟨_, step_of_fetchFault hturns hbusy (State.fetchInstr_of_misaligned hmisaligned),
      onlyFault_faultEntry s .fetchMisaligned _⟩
  · exact ⟨_, step_of_fetchFault hturns hbusy (State.fetchInstr_of_past haligned hpast),
      onlyFault_faultEntry s .fetchRange _⟩
  · rw [← State.wordOfBytes_memRead_of_sum hsum]
    refine ⟨fun i hdecode => ?_, fun e hdecode => ?_⟩
    · exact step_of_fetchInstr_ok hturns hbusy (State.fetchInstr_of_decodeWord haligned hin hdecode)
    · have hword : ∀ i, decodeWord (wordOfBytes (s.memRead s.cp.toNat 8)) ≠ .ok i := fun i hok => by
        cases hdecode.symm.trans hok
      exact ⟨_, step_of_undecodable hturns hbusy haligned hin hword, onlyFault_faultEntry s .illegal _⟩

/-- Settles O6: the fetch gives the command that the bytes decode to, on the sequencer's own turn or a given one. -/
theorem stepRunsTheDecodedCommand : Obligations.StepRunsTheDecodedCommand := by
  intro s i hbusy haligned hin hdecode
  have hword := decodeWord_of_decodeBytes hdecode
  refine ⟨fun hturns => ?_, fun rest hturns => ?_⟩
  · exact step_of_fetchInstr_ok hturns hbusy (State.fetchInstr_of_decodeWord haligned hin hword)
  · have hfetch : (s.takeTurn rest).fetchInstr = .ok i := State.fetchInstr_of_decodeWord haligned hin hword
    exact (step_of_letRun hturns).trans (sequencerStep_of_fetchInstr_ok hbusy hfetch)

/-- Settles O11: JMP writes `cp` alone; addition of words is addition mod 2^32. -/
theorem jmpJumpsRelative : Obligations.JmpJumpsRelative := by
  refine fun imm => ⟨encode_toNat (.jmp imm), fun s => ?_⟩
  rw [← BitVec.add_def]
  exact ⟨_, exec_jmp imm s, onlyCp_setCp s _⟩

/-- Settles O56: only the host's turn can refuse, and there only the register port. -/
theorem onlyMalformedHostAccessesAreRefused : Obligations.OnlyMalformedHostAccessesAreRefused := by
  intro s r
  simp only [step_eq_refused_iff, hostAct_eq_refused_iff]
  constructor
  · rintro ⟨action, rest, hturns, off, bytes, hr, hbad, rfl | ⟨w, rfl⟩⟩
    · exact ⟨off, bytes, rest, hr, hbad, .inl hturns⟩
    · exact ⟨off, bytes, rest, hr, hbad, .inr ⟨w, hturns⟩⟩
  · rintro ⟨off, bytes, rest, hr, hbad, hturns | ⟨w, hturns⟩⟩
    · exact ⟨_, rest, hturns, off, bytes, hr, hbad, .inl rfl⟩
    · exact ⟨_, rest, hturns, off, bytes, hr, hbad, .inr ⟨w, rfl⟩⟩

/-- Settles O57: ACK clears what stops START, and without ACK the faulted machine refuses START. -/
theorem hostResumesAfterAFault : Obligations.HostResumesAfterAFault := by
  rintro s w rest ⟨hidle, hdone, hfaulted⟩ hturn hreset hstart
  have hstep := step_writeCtrl hturn
  rw [State.writeCtrl_of_noReset hreset, State.ackIf_eq, State.startIf_eq, hstart] at hstep
  generalize w.getLsbD 1 = ack at hstep ⊢
  refine ⟨_, hstep, rfl, fun _ => rfl, fun _ => rfl, fun _ => rfl, ⟨rfl, rfl⟩, ⟨rfl, rfl⟩, rfl, ?_, ?_⟩
  · rintro rfl
    simp [running, State.acceptsStart, State.takeTurn, hidle]
  · rintro rfl
    simp [endedFaulted, keepsRecord, State.acceptsStart, State.takeTurn, hidle, hdone, hfaulted]

end Sys2Proof.Machine
end

section
/-! SUPPORT. Commands one after another, and the laws of the hash unit that the spec infers (41_hash.md section 3):
streaming a string is hashing it, and the case of letters does not count; then the statements about them. -/

namespace Sys2Proof.Machine

/-! Commands one after another. -/

theorem execSeq_cons_of_next {i : Instr} {s t : State} (h : exec i s = .next t) (is : List Instr) :
    execSeq (i :: is) s = execSeq is t := by
  rw [execSeq, h]

theorem execSeq_append_of_next {is : List Instr} {s t : State} (h : execSeq is s = .next t) (js : List Instr) :
    execSeq (is ++ js) s = execSeq js t := by
  induction is generalizing s with
  | nil =>
    cases h
    rfl
  | cons i is ih =>
    obtain ⟨u, hu⟩ := exec_next i s
    rw [execSeq_cons_of_next hu] at h
    rw [List.cons_append, execSeq_cons_of_next hu, ih h]

theorem State.getX_setX_same (s : State) (a : XReg) (v : Word) : (s.setX a v).getX a = v :=
  (s.getX_setX a a v).trans (if_pos rfl)

/-! The stream (R202, R203, R208). -/

/-- The stream `st` stands behind the bytes `bs`: their whole groups are hashed, and the rest is pending, folded. -/
def streamBehind (bs : List Byte) (st : Word × List Byte) : Prop :=
  ∃ whole rest, bs = whole ++ rest ∧ whole.length % 4 = 0 ∧ rest.length ≤ 3 ∧ st = (hashBytes whole, rest.map foldByte)

theorem streamBehind_nil : streamBehind [] (0, []) := ⟨[], [], rfl, rfl, Nat.zero_le 3, rfl⟩

theorem streamBehind_hashAbsorb {bs : List Byte} {st : Word × List Byte} (h : streamBehind bs st) (x : Byte) :
    streamBehind (bs ++ [x]) (hashAbsorb st x) := by
  obtain ⟨whole, rest, rfl, hgroups, hshort, rfl⟩ := h
  have hpend : rest.map foldByte ++ [foldByte x] = (rest ++ [x]).map foldByte := by simp
  simp only [hashAbsorb, hpend, List.length_map, List.append_assoc]
  split_ifs with hfull
  · refine ⟨whole ++ (rest ++ [x]), [], (List.append_nil _).symm, ?_, Nat.zero_le 3, ?_⟩
    · rw [List.length_append, hfull, Nat.add_mod_right, hgroups]
    · rw [hashBytes_append_group hgroups (by omega) (by omega), List.map_nil]
  · refine ⟨whole, rest ++ [x], rfl, hgroups, ?_, rfl⟩
    simp only [List.length_append, List.length_singleton] at hfull ⊢
    omega

theorem streamBehind_foldl (bs : List Byte) {before : List Byte} {st : Word × List Byte} (h : streamBehind before st) :
    streamBehind (before ++ bs) (bs.foldl hashAbsorb st) := by
  induction bs generalizing before st with
  | nil => rwa [List.append_nil]
  | cons x bs ih => simpa using ih (streamBehind_hashAbsorb h x)

theorem hashFinish_of_streamBehind {bs : List Byte} {st : Word × List Byte} (h : streamBehind bs st) :
    hashFinish st.1 st.2 = hashBytes bs := by
  obtain ⟨whole, rest, rfl, hgroups, hshort, rfl⟩ := h
  simp only [hashFinish, List.length_map]
  split_ifs with hnone
  · rw [List.eq_nil_of_length_eq_zero hnone, List.append_nil]
  · rw [hashBytes_append_group hgroups (by omega) (by omega)]

/-- Absorbing a string from the start and finishing is hashing it. -/
theorem hashFinish_foldl_hashAbsorb (bs : List Byte) :
    hashFinish (bs.foldl hashAbsorb (0, [])).1 (bs.foldl hashAbsorb (0, [])).2 = hashBytes bs :=
  hashFinish_of_streamBehind (streamBehind_foldl bs streamBehind_nil)

/-- The bytes that H.FEED of the piece `p` absorbs. -/
def State.pieceBytes (s : State) (p : XReg × XReg) : List Byte := s.memRead (s.natX p.1) (s.natX p.2)

/-- Feeding pieces of memory is absorbing their bytes in turn. -/
theorem execSeq_hFeeds (pieces : List (XReg × XReg)) {s : State}
    (hin : ∀ p ∈ pieces, s.natX p.1 + s.natX p.2 ≤ s.cfg.memSize) :
    ∃ t, execSeq (pieces.map fun p => .hFeed p.1 p.2) s = .next t ∧
      (t.hacc, t.hpend) = (pieces.map s.pieceBytes).flatten.foldl hashAbsorb (s.hacc, s.hpend) := by
  induction pieces generalizing s with
  | nil => exact ⟨s, rfl, rfl⟩
  | cons p pieces ih =>
    have hfeed : exec (.hFeed p.1 p.2) s =
        .next (s.setHash ((s.pieceBytes p).foldl hashAbsorb (s.hacc, s.hpend))).advance := by
      rw [exec_hFeed, if_pos (State.inRange_of_le (hin p List.mem_cons_self))]
      rfl
    rw [List.map_cons, execSeq_cons_of_next hfeed]
    obtain ⟨t, hrun, hstream⟩ := ih (s := (s.setHash ((s.pieceBytes p).foldl hashAbsorb (s.hacc, s.hpend))).advance)
      fun q hq => hin q (List.mem_cons_of_mem p hq)
    refine ⟨t, hrun, hstream.trans ?_⟩
    rw [List.map_cons, List.flatten_cons, List.foldl_append]
    rfl

/-- Bytes equal but for case are folded to the same byte (R209). -/
theorem foldByte_eq_of_sameButCase {x y : Byte} (h : sameButCase x y) : foldByte x = foldByte y := by
  apply BitVec.eq_of_toNat_eq
  rw [foldByte_toNat, foldByte_toNat]
  rcases h with rfl | ⟨hlow, hhigh, heq⟩ | ⟨hlow, hhigh, heq⟩
  · rfl
  · rw [if_neg (by omega), if_pos (by omega)]
    omega
  · rw [if_pos (by omega), if_neg (by omega)]
    omega

/-! The statements. -/

/-- Settles O44: the stream behind a string depends on the string only, and the commands absorb their pieces in turn. -/
theorem streamingHashIsOneShotHash : Obligations.StreamingHashIsOneShotHash := by
  refine ⟨fun pieces => ?_, fun s pieces dest hin => ?_⟩
  · simp only [← List.foldl_flatten]
    exact hashFinish_foldl_hashAbsorb pieces.flatten
  · obtain ⟨t, hfeeds, hstream⟩ := execSeq_hFeeds pieces (s := (s.setHash (0, [])).advance) hin
    rw [List.append_assoc, List.singleton_append, execSeq_cons_of_next (exec_hInit s),
      execSeq_append_of_next hfeeds, execSeq_cons_of_next (exec_hFinal dest t)]
    refine ⟨_, rfl, ?_⟩
    have hfinish := hashFinish_foldl_hashAbsorb (pieces.map s.pieceBytes).flatten
    rw [State.advance_getX, State.getX_setX_same]
    exact (congrArg (fun st => hashFinish st.1 st.2) hstream).trans hfinish

/-- Settles O45: bytes equal but for case are folded alike, and the hash sees folded bytes only. -/
theorem hashIgnoresAsciiCase : Obligations.HashIgnoresAsciiCase := by
  intro s t h
  have hfolded : s.map foldByte = t.map foldByte := by
    induction h with
    | nil => rfl
    | cons hxy _ ih => rw [List.map_cons, List.map_cons, foldByte_eq_of_sameButCase hxy, ih]
  rw [hashBytes, hashBytes, hfolded]

end Sys2Proof.Machine
end

section
/-! SUPPORT. The laws of the big-integer unit that the spec infers (42_bignum.md R264, R268), then the statements about
them. -/

namespace Sys2Proof.Machine

/-- BN.CMP's results 1 and 0 say that the subtraction does not underflow. -/
theorem le_of_compareResult {u v : Nat} (h : compareResult u v = 1 ∨ compareResult u v = 0) : v ≤ u := by
  by_contra hlt
  rw [compareResult, if_pos (Nat.lt_of_not_le hlt)] at h
  revert h
  decide

theorem exec_bnSub_of_le {b c : BReg} {s : State} (h : s.getB c ≤ s.getB b) (a : BReg) :
    exec (.bnSub a b c) s = .next (s.setB a (s.getB b - s.getB c)).advance := by
  rw [exec_bnSub, if_neg (Nat.not_lt.mpr h)]

theorem State.getB_setB_same (s : State) (a : BReg) (v : Nat) : (s.setB a v).getB a = v :=
  (s.getB_setB a a v).trans (if_pos rfl)

/-! The statements. -/

/-- Settles O46: the loop's invariant at its start. -/
theorem modExpIsThePower : Obligations.ModExpIsThePower := fun b e m _ => modExp_eq_pow_mod b e m

/-- Settles O47: each law by the commands' equations, ModExp's by the power it is. -/
theorem bigIntegerLaws : Obligations.BigIntegerLaws := by
  refine ⟨fun s t x a b c hcmp hge => ?sub, fun b e m _ => ?base, fun b e1 e2 m _ => ?exponent,
    fun s a b hfits => ?shift, fun s x a b => ?parity⟩
  case sub =>
    rw [exec_bnCmp] at hcmp
    cases hcmp
    rw [State.advance_getX, State.getX_setX_same] at hge
    have hle := le_of_compareResult hge
    refine ⟨_, exec_bnSub_of_le (s := (s.setX x _).advance) hle a, rfl, ?_⟩
    rw [State.advance_getB, State.getB_setB_same]
    exact Nat.sub_add_cancel hle
  case base => rw [modExp_eq_pow_mod, modExp_eq_pow_mod, ← Nat.pow_mod]
  case exponent => rw [modExp_eq_pow_mod, modExp_eq_pow_mod, modExp_eq_pow_mod, pow_add, ← Nat.mul_mod]
  case shift =>
    have hshl : exec (.bnShl a b) s = .next (s.setB a (2 * s.getB b)).advance := writeFitting_of_lt hfits a
    refine ⟨_, (execSeq_cons_of_next hshl _).trans (execSeq_cons_of_next (exec_bnShr a a _) []), ?_⟩
    rw [State.advance_getB, State.getB_setB_same, State.advance_getB, State.getB_setB_same]
    exact Nat.mul_div_cancel_left _ Nat.two_pos
  case parity =>
    refine ⟨_, _, exec_bnShr a b s, exec_bnPar x b s, ?_⟩
    have hbit : s.getB b % 2 < 2 ^ 32 := (Nat.mod_lt _ Nat.two_pos).trans (by decide)
    rw [State.advance_getB, State.getB_setB_same, State.advance_getX, State.getX_setX_same, word_toNat_of_lt hbit]
    exact Nat.div_add_mod (s.getB b) 2

end Sys2Proof.Machine
end

section
/-! SUPPORT. The cipher's inverse law (43_cipher.md R316): decryption's rounds take back encryption's, last first; then
the statement about it. -/

namespace Sys2Proof.Machine

/-! The network and its inverse (R303). -/

/-- Decryption's round on a whitened pair takes back encryption's round: what is left is whitened with the next two
subkeys. -/
theorem cipherRound_cipherRound (s : Vector (Vector Word 256) 4) (lr : Word × Word) (k k' k'' : Word) :
    cipherRound s ((cipherRound s lr k).2 ^^^ k'', (cipherRound s lr k).1 ^^^ k') k'' = (lr.2 ^^^ k', lr.1 ^^^ k) := by
  simp only [cipherRound, xor_cancel_right, Prod.mk.injEq, and_true]
  rw [BitVec.xor_assoc lr.2, BitVec.xor_comm (cipherF _ _) k', ← BitVec.xor_assoc, xor_cancel_right]

/-- Behind `n` rounds of decryption stand the halves before round `m = 16 - n` of encryption, whitened. -/
theorem halvesBeforeRound_reverse (p : Vector Word 18) (t : CipherTables) (lr : Word × Word) (n m : Nat)
    (hnm : n + m = 16) :
    halvesBeforeRound p.reverse t (cipherNetwork p t.s lr) n =
      ((halvesBeforeRound p t lr m).2 ^^^ p[m + 1], (halvesBeforeRound p t lr m).1 ^^^ p[m]) := by
  induction n generalizing m with
  | zero =>
    obtain rfl : m = 16 := by omega
    exact cipherNetwork_eq p t lr
  | succ n ih =>
    have hdec := halvesBeforeRound_succ p.reverse t (cipherNetwork p t.s lr) ⟨n, by omega⟩
    have henc := halvesBeforeRound_succ p t lr ⟨m, by omega⟩
    have hkey : p.reverse[n]'(by omega) = p[m + 1 + 1]'(by omega) := by
      rw [Vector.getElem_reverse]
      congr 1
      omega
    simp only [Fin.getElem_fin] at hdec henc
    rw [hdec, ih (m + 1) (by omega), hkey, henc, cipherRound_cipherRound]

/-- The network with the subkeys in reverse order undoes the network (R303). -/
theorem cipherNetwork_reverse_cipherNetwork (p : Vector Word 18) (t : CipherTables) (lr : Word × Word) :
    cipherNetwork p.reverse t.s (cipherNetwork p t.s lr) = lr := by
  rw [cipherNetwork_eq p.reverse, halvesBeforeRound_reverse p t lr 16 0 rfl]
  simp only [Vector.getElem_reverse]
  exact Prod.ext (xor_cancel_right _ _) (xor_cancel_right _ _)

theorem decWords_encWords (t : CipherTables) (lr : Word × Word) : decWords t (encWords t lr) = lr :=
  cipherNetwork_reverse_cipherNetwork t.p t lr

theorem encWords_decWords (t : CipherTables) (lr : Word × Word) : encWords t (decWords t lr) = lr := by
  have h := cipherNetwork_reverse_cipherNetwork t.p.reverse t lr
  rwa [Vector.reverse_reverse] at h

/-! Blocks, buffers and commands (R304, R316). -/

theorem beBytes_beWord {bs : List Byte} (h : bs.length = 4) : beBytes (beWord bs).toNat 4 = bs := by
  have hlt : beNat bs < 2 ^ 32 := by simpa [h] using beNat_lt bs
  rw [beWord, word_toNat_of_lt hlt, ← h, beBytes_beNat]

theorem halvesBlock_blockHalves {blk : List Byte} (h : blk.length = 8) : halvesBlock (blockHalves blk) = blk := by
  rw [halvesBlock, blockHalves, beBytes_beWord (by simp [h]), beBytes_beWord (by simp [h]), List.take_append_drop]

theorem decBlock_encBlock (t : CipherTables) {blk : List Byte} (h : blk.length = 8) :
    decBlock t (encBlock t blk) = blk := by
  rw [decBlock, encBlock, blockHalves_halvesBlock, decWords_encWords, halvesBlock_blockHalves h]

theorem encBlock_decBlock (t : CipherTables) {blk : List Byte} (h : blk.length = 8) :
    encBlock t (decBlock t blk) = blk := by
  rw [encBlock, decBlock, blockHalves_halvesBlock, encWords_decWords, halvesBlock_blockHalves h]

/-- A block function and then its inverse over a buffer leave every byte as it was. -/
theorem read_cryptBlocks_cryptBlocks {f g : List Byte → List Byte} (hf : ∀ blk, (f blk).length = 8)
    (hg : ∀ blk, (g blk).length = 8) (hgf : ∀ blk, blk.length = 8 → g (f blk) = blk) (n addr : Nat) (m : Memory)
    (i : Nat) : (cryptBlocks g n addr (cryptBlocks f n addr m)).read i = m.read i := by
  obtain ⟨hfblocks, hfoutside⟩ := cryptBlocks_read f hf n addr m
  obtain ⟨hgblocks, hgoutside⟩ := cryptBlocks_read g hg n addr (cryptBlocks f n addr m)
  by_cases hi : i < addr ∨ addr + 8 * n ≤ i
  · rw [hgoutside i hi, hfoutside i hi]
  · obtain ⟨k, hk⟩ : ∃ k, k = (i - addr) / 8 := ⟨_, rfl⟩
    obtain ⟨j, hj⟩ : ∃ j, i = addr + 8 * k + j := ⟨i - (addr + 8 * k), by omega⟩
    have hblock : (cryptBlocks g n addr (cryptBlocks f n addr m)).readBytes (addr + 8 * k) 8 =
        m.readBytes (addr + 8 * k) 8 := by
      rw [hgblocks k (by omega), hfblocks k (by omega), hgf _ (Memory.length_readBytes m _ 8)]
    rw [hj, ← Memory.getD_readBytes _ _ 8 j (by omega), hblock, Memory.getD_readBytes _ _ 8 j (by omega)]

/-- The command `j` takes back what `i` did to the buffer in `X[a]` and `X[b]` of the keyed state `s`. -/
def takesBack (i j : Instr) (s : State) : Prop :=
  ∃ t, execSeq [i, j] s = .next t ∧ t.faulted = s.faulted ∧ keepsMem s t

theorem takesBack_of_inverse {i j : Instr} {f g : CipherTables → List Byte → List Byte} {a b : XReg} {s : State}
    (hi : ∀ s, exec i s = cryptBuffer f a b s) (hj : ∀ s, exec j s = cryptBuffer g a b s)
    (hf : ∀ t blk, (f t blk).length = 8) (hg : ∀ t blk, (g t blk).length = 8)
    (hgf : ∀ t {blk : List Byte}, blk.length = 8 → g t (f t blk) = blk) (hkeyed : s.keyed = true)
    (hlen : s.natX b % 8 = 0) (hin : s.natX a + s.natX b ≤ s.cfg.memSize) : takesBack i j s := by
  have hfirst := (hi s).trans (cryptBuffer_of_le hkeyed hlen hin)
  have hsecond := (hj { s.advance with mem := cryptBlocks (f s.tables) (s.natX b / 8) (s.natX a) s.mem }).trans
    (cryptBuffer_of_le hkeyed hlen hin)
  refine ⟨_, (execSeq_cons_of_next hfirst [j]).trans (execSeq_cons_of_next hsecond []), rfl, fun n => ?_⟩
  exact read_cryptBlocks_cryptBlocks (hf s.tables) (hg s.tables) (fun _ => hgf s.tables) _ _ s.mem n

section
variable {a b : XReg} {s : State} (hkeyed : s.keyed = true) (hlen : s.natX b % 8 = 0)
  (hin : s.natX a + s.natX b ≤ s.cfg.memSize)
include hkeyed hlen hin

theorem bfDec_takesBack_bfEnc : takesBack (.bfEnc a b) (.bfDec a b) s :=
  takesBack_of_inverse (exec_bfEnc a b) (exec_bfDec a b) (fun _ _ => length_halvesBlock _)
    (fun _ _ => length_halvesBlock _) decBlock_encBlock hkeyed hlen hin

theorem bfEnc_takesBack_bfDec : takesBack (.bfDec a b) (.bfEnc a b) s :=
  takesBack_of_inverse (exec_bfDec a b) (exec_bfEnc a b) (fun _ _ => length_halvesBlock _)
    (fun _ _ => length_halvesBlock _) encBlock_decBlock hkeyed hlen hin

end

/-- The state that BF.KEY makes with the tables `t`. -/
def State.keyedWith (s : State) (t : CipherTables) : State := { s.advance with tables := t, keyed := true }

theorem exec_bfKey_of_le {k n : XReg} {s : State} (hpos : 1 ≤ s.natX n) (hle : s.natX n ≤ 56)
    (hin : s.natX k + s.natX n ≤ s.cfg.memSize) :
    exec (.bfKey k n) s = .next (s.keyedWith (keySchedule (s.memRead (s.natX k) (s.natX n)))) := by
  rw [exec_bfKey, if_neg (by omega), if_pos (State.inRange_of_le hin)]
  rfl

/-! The statement. -/

/-- Settles O48: decryption's rounds take back encryption's, last first, and the other way round. -/
theorem decryptionUndoesEncryption : Obligations.DecryptionUndoesEncryption := by
  refine ⟨fun s a b hkeyed hlen hin => ⟨bfDec_takesBack_bfEnc hkeyed hlen hin, bfEnc_takesBack_bfDec hkeyed hlen hin⟩,
    fun s k n a b hpos hle hkey hlen hin => ?_⟩
  have hkeys := execSeq_cons_of_next (exec_bfKey_of_le hpos hle hkey)
  rw [hkeys, hkeys]
  exact ⟨bfDec_takesBack_bfEnc (s := s.keyedWith _) rfl hlen hin,
    bfEnc_takesBack_bfDec (s := s.keyedWith _) rfl hlen hin⟩

end Sys2Proof.Machine
end

section
/-! SUPPORT. The codec's bounds and its round trip (44_codec.md sections 2 and 7): how many bytes a token produces, what
the encoder's tokens decode to, and the encoder's loop with the size and the meaning of its output; then the statements
about them. -/

namespace Sys2Proof.Machine

/-! The decoder's output (R363). -/

/-- The input that is left behind a token; nothing is read after a stop. -/
def LzToken.rest : LzToken → List Byte
  | .stop _ => []
  | .go rest _ => rest

/-- The output, and five bytes for each byte of input to come: what decoding cannot raise. -/
def LzToken.potential (token : LzToken) : Nat := token.out.length + 5 * token.rest.length

/-- A literal produces at most one byte for each byte it reads. -/
theorem potential_lzLiteral_le {cap : Nat} {out : List Byte} (hout : out.length ≤ cap) (count : Nat)
    (rest : List Byte) : (lzLiteral cap count rest out).potential ≤ out.length + 5 * rest.length := by
  rcases Nat.lt_or_ge rest.length count with htruncated | hdata
  · rw [lzLiteral_of_truncated htruncated]
    exact Nat.add_le_add_left (Nat.zero_le _) _
  · rcases Nat.lt_or_ge cap (out.length + count) with hfull | hfits
    · rw [lzLiteral_of_full hout hdata hfull]
      simp only [LzToken.potential, LzToken.out, LzToken.rest, LzResult.out, List.length_append, List.length_take,
        List.length_nil]
      omega
    · rw [lzLiteral_of_fits hdata hfits]
      simp only [LzToken.potential, LzToken.out, LzToken.rest, List.length_append, List.length_take, List.length_drop]
      omega

theorem potential_lzBackRef_le {cap : Nat} {out : List Byte} (hout : out.length ≤ cap) (count offset : Nat)
    (rest : List Byte) : (lzBackRef cap count offset rest out).potential ≤ out.length + count + 5 * rest.length := by
  by_cases hbad : offset = 0 ∨ out.length < offset
  · rw [lzBackRef_of_badOffset hbad]
    simp only [LzToken.potential, LzToken.out, LzToken.rest, LzResult.out, List.length_nil]
    omega
  · have hpos : 1 ≤ offset := by omega
    have hle : offset ≤ out.length := by omega
    rcases Nat.lt_or_ge cap (out.length + count) with hfull | hfits
    · obtain ⟨ext, hstop, hlength, -⟩ := lzBackRef_of_full hpos hle hout hfull rest
      rw [hstop]
      simp only [LzToken.potential, LzToken.out, LzToken.rest, LzResult.out, hlength, List.length_nil]
      omega
    · obtain ⟨ext, hgo, hlength, -⟩ := lzBackRef_of_fits hpos hle hfits rest
      rw [hgo]
      simp only [LzToken.potential, LzToken.out, LzToken.rest, List.length_append]
      omega

/-- A token of the command byte `cmd`: a back-reference makes at most ten bytes of its two. -/
theorem potential_lzToken_le {cap : Nat} {out : List Byte} (hout : out.length ≤ cap) (cmd : Byte) (rest : List Byte) :
    (lzToken cap cmd rest out).potential ≤ out.length + 5 * (rest.length + 1) := by
  have hforms : cmd.toNat = 0 ∨ (0x80 ≤ cmd.toNat ∧ cmd.toNat ≤ 0xBF) ∨
      ((1 ≤ cmd.toNat ∧ cmd.toNat ≤ 0x7F) ∨ 0xC0 ≤ cmd.toNat) := by omega
  rcases hforms with hzero | ⟨hlow, hhigh⟩ | hlo
  · rw [lzToken_endMarker cap rest out hzero]
    exact Nat.add_le_add_left (Nat.zero_le _) _
  · rw [lzToken_shortLiteral cap rest out hlow hhigh]
    exact (potential_lzLiteral_le hout _ rest).trans (by omega)
  · cases rest with
    | nil =>
      rw [lzToken_missingLo cap out hlo]
      exact Nat.add_le_add_left (Nat.zero_le _) _
    | cons lo rest =>
      rw [List.length_cons]
      rcases hlo with ⟨hpos, hhigh⟩ | hlong
      · have hcount : (cmd.toNat >>> 4) &&& 0x07 ≤ 7 := Nat.and_le_right
        rw [lzToken_backRef cap lo rest out hpos hhigh]
        exact (potential_lzBackRef_le hout _ _ rest).trans (by omega)
      · rw [lzToken_longLiteral cap lo rest out hlong]
        exact (potential_lzLiteral_le hout _ rest).trans (by omega)

theorem length_out_lzDecodeLoop_le_input {cap : Nat} (n : Nat) (src : List Byte) {out : List Byte}
    (hout : out.length ≤ cap) : (lzDecodeLoop cap n src out).out.length ≤ out.length + 5 * src.length := by
  induction n generalizing src out with
  | zero => cases src <;> exact Nat.le_add_right _ _
  | succ n ih =>
    cases src with
    | nil => exact Nat.le_add_right _ _
    | cons cmd rest =>
      have htoken := potential_lzToken_le hout cmd rest
      have hfits := length_out_lzToken_le hout cmd rest
      rw [lzDecodeLoop, List.length_cons]
      cases h : lzToken cap cmd rest out with
      | stop r =>
        rw [h] at htoken
        exact htoken
      | go rest' out' =>
        rw [h] at htoken hfits
        exact (ih rest' hfits).trans htoken

theorem length_out_lzDecode_le_input (src : List Byte) (cap : Nat) :
    (lzDecode src cap).out.length ≤ 5 * src.length := by
  have h := length_out_lzDecodeLoop_le_input (out := []) src.length src (Nat.zero_le cap)
  rwa [List.length_nil, Nat.zero_add] at h

/-! What the encoder's tokens decode to (R352, R353 against R340). -/

/-- Decoding `out`, whatever follows it, produces `pre` and goes on with what follows. -/
def decodesTo (cap : Nat) (out pre : List Byte) : Prop :=
  ∀ tail, lzDecodeFrom cap (out ++ tail) [] = lzDecodeFrom cap tail pre

theorem decodesTo_nil (cap : Nat) : decodesTo cap [] [] := fun _ => rfl

theorem decodesTo_append {cap : Nat} {out pre token pre' : List Byte} (h : decodesTo cap out pre)
    (htoken : ∀ tail, lzDecodeFrom cap (token ++ tail) pre = lzDecodeFrom cap tail pre') :
    decodesTo cap (out ++ token) pre' := fun tail => by
  rw [List.append_assoc, h, htoken]

/-- A run's token decodes to the run. -/
theorem lzDecodeFrom_lzRunToken {cap : Nat} {run pre : List Byte} (hrun : run.length ≤ 63)
    (hfits : pre.length + run.length ≤ cap) (tail : List Byte) :
    lzDecodeFrom cap (lzRunToken run ++ tail) pre = lzDecodeFrom cap tail (pre ++ run) := by
  cases run with
  | nil => rw [List.append_nil]; rfl
  | cons x xs =>
    have hcmd : (BitVec.ofNat 8 (0x80 + ((x :: xs).length - 1)) : Byte).toNat = 0x80 + ((x :: xs).length - 1) :=
      Nat.mod_eq_of_lt (by omega)
    have hcount : ((0x80 + ((x :: xs).length - 1)) &&& 0x3F) + 1 = (x :: xs).length := by
      simp only [and_0x3F, List.length_cons] at hrun ⊢
      omega
    have htoken : lzToken cap (BitVec.ofNat 8 (0x80 + ((x :: xs).length - 1))) (x :: xs ++ tail) pre =
        .go tail (pre ++ x :: xs) := by
      rw [lzToken_shortLiteral cap _ pre (by omega) (by omega), hcmd, hcount, lzLiteral_of_fits (by simp) hfits,
        List.drop_left, List.take_left]
    exact lzDecodeFrom_of_go htoken

/-- A back-reference token that the encoder takes is read back with its length and offset. -/
theorem lzToken_lzRefToken {len off : Nat} (hlen : 3 ≤ len) (hmax : len ≤ 10) (hwindow : off ≤ 4095)
    (hbyte : ¬(len = 3 ∧ off < 256)) (cap : Nat) (rest out : List Byte) :
    lzToken cap (BitVec.ofNat 8 ((len - 3) * 16 + off / 256)) (BitVec.ofNat 8 (off % 256) :: rest) out =
      lzBackRef cap len off rest out := by
  have hcmd : (BitVec.ofNat 8 ((len - 3) * 16 + off / 256) : Byte).toNat = (len - 3) * 16 + off / 256 :=
    Nat.mod_eq_of_lt (by omega)
  have hlo : (BitVec.ofNat 8 (off % 256) : Byte).toNat = off % 256 := Nat.mod_eq_of_lt (by omega)
  have hcount : (((len - 3) * 16 + off / 256) >>> 4) &&& 0x07 = len - 3 := by
    rw [Nat.shiftRight_eq_div_pow]
    exact (Nat.and_two_pow_sub_one_eq_mod _ 3).trans (by omega)
  have hoffset : ((len - 3) * 16 + off / 256) &&& 0x0F = off / 256 :=
    (Nat.and_two_pow_sub_one_eq_mod _ 4).trans (by omega)
  rw [lzToken_backRef cap _ rest out (by omega) (by omega), shiftLeft_or_byte, hcmd, hlo, hcount, hoffset,
    Nat.sub_add_cancel hlen, Nat.mul_comm, Nat.div_add_mod]

/-- Behind the first bytes of `src`, what is copied back over a match is the bytes of `src` there. -/
theorem append_eq_take_of_copiesBack {src ext : List Byte} {pos off : Nat} (hpos : 1 ≤ off) (hle : off ≤ pos)
    (hend : pos + ext.length ≤ src.length) (hmatch : matchesAt src pos off ext.length)
    (hback : copiesBack off (src.take pos) ext) : src.take pos ++ ext = src.take (pos + ext.length) := by
  have hlength : (src.take pos).length = pos := List.length_take_of_le (by omega)
  have hsame : ∀ i, i < pos + ext.length → (src.take pos ++ ext).getD i 0 = src.getD i 0 := by
    intro i
    induction i using Nat.strong_induction_on with
    | _ i ih =>
      intro hi
      rcases Nat.lt_or_ge i pos with hold | hnew
      · rw [List.getD_append _ _ _ _ (by omega)]
        simp [List.getD_eq_getElem?_getD, hold]
      · obtain ⟨j, rfl⟩ := Nat.exists_eq_add_of_le hnew
        have hcopy := hback j (by omega)
        rw [hlength] at hcopy
        rw [hcopy, ih _ (by omega) (by omega), hmatch j (by omega), Nat.sub_add_comm hle]
  apply List.ext_getElem
  · rw [List.length_append, hlength, List.length_take_of_le hend]
  · intro i hi hi'
    rw [List.length_append, hlength] at hi
    have h := hsame i hi
    rw [List.getD_eq_getElem _ 0 (by rwa [List.length_append, hlength]), List.getD_eq_getElem _ 0 (by omega)] at h
    rw [h, List.getElem_take]

/-- A match's token decodes to the bytes of the match. -/
theorem lzDecodeFrom_lzRefToken {src : List Byte} {pos len off : Nat} (hlen : 3 ≤ len) (hmax : len ≤ 10)
    (hwindow : off ≤ 4095) (hbyte : ¬(len = 3 ∧ off < 256)) (hpos : 1 ≤ off) (hle : off ≤ pos)
    (hend : pos + len ≤ src.length) (hmatch : matchesAt src pos off len) (tail : List Byte) :
    lzDecodeFrom src.length (lzRefToken len off ++ tail) (src.take pos) =
      lzDecodeFrom src.length tail (src.take (pos + len)) := by
  have hlength : (src.take pos).length = pos := List.length_take_of_le (by omega)
  obtain ⟨ext, hgo, rfl, hback⟩ := lzBackRef_of_fits (cap := src.length) (out := src.take pos) (count := len) hpos
    (by omega) (by omega) tail
  rw [← append_eq_take_of_copiesBack hpos hle hend hmatch hback]
  exact lzDecodeFrom_of_go ((lzToken_lzRefToken hlen hmax hwindow hbyte _ tail _).trans hgo)

/-! The encoder's loop (R354, R360, R362). -/

/-- How far the encoder is at position `pos`: `done` bytes are in tokens, the others of the first `pos` are the pending
run; 64 bytes of output for each 63 of input suffice; and the output decodes to the bytes it stands for. -/
structure EncodedTo (src : List Byte) (done pos : Nat) (run out : List Byte) : Prop where
  inside : pos ≤ src.length
  pending : src.take pos = src.take done ++ run
  split : done + run.length = pos
  size : 63 * out.length ≤ 64 * done
  decodes : decodesTo src.length out (src.take done)

/-- The encoder succeeds within the bound, and its output decodes to the input. -/
def encodesWell (src : List Byte) (r : LzResult) : Prop :=
  ∃ out, r = .ok out ∧ out.length ≤ maxCompressedSize src.length ∧ lzDecode out src.length = .ok src

theorem encodedTo_start (src : List Byte) : EncodedTo src 0 0 [] [] :=
  ⟨Nat.zero_le _, rfl, rfl, le_rfl, decodesTo_nil _⟩

section
variable {src run out : List Byte} {done pos : Nat}

/-- One more byte is pending. -/
theorem encodedTo_literal (h : EncodedTo src done pos run out) (hpos : pos < src.length) :
    EncodedTo src done (pos + 1) (run ++ [src.getD pos 0]) out where
  inside := hpos
  pending := by
    rw [List.take_succ_eq_append_getElem hpos, h.pending, List.getD_eq_getElem _ 0 hpos, List.append_assoc]
  split := by rw [List.length_append, List.length_singleton, ← Nat.add_assoc, h.split]
  size := h.size
  decodes := h.decodes

theorem length_lzFlush (run out : List Byte) :
    (lzFlush run out).length = out.length + if run = [] then 0 else run.length + 1 := by
  rw [lzFlush]
  split_ifs <;> simp

theorem length_lzFlush_le (run out : List Byte) : (lzFlush run out).length ≤ out.length + run.length + 1 := by
  rw [length_lzFlush]
  split_ifs <;> omega

/-- The pending run's token decodes to the run, so the flushed output decodes to the first `pos` bytes. -/
theorem decodesTo_lzFlush (h : EncodedTo src done pos run out) (hrun : run.length ≤ 63) :
    decodesTo src.length (lzFlush run out) (src.take pos) := by
  rw [← append_lzRunToken hrun, h.pending]
  refine decodesTo_append h.decodes (lzDecodeFrom_lzRunToken hrun ?_)
  rw [← List.length_append, ← h.pending]
  exact List.length_take_le' pos src

/-- A full run is emitted. -/
theorem encodedTo_fullRun (h : EncodedTo src done pos run out) (hfull : run.length = 63) :
    EncodedTo src pos pos [] (lzFlush run out) where
  inside := h.inside
  pending := (List.append_nil _).symm
  split := rfl
  size := by
    have hflush := length_lzFlush_le run out
    have hsize := h.size
    have hsplit := h.split
    omega
  decodes := decodesTo_lzFlush h hfull.le

/-- The pending run and a match are emitted; the match's token is shorter than the match and pays for the run's. -/
theorem encodedTo_match (h : EncodedTo src done pos run out) (hrun : run.length ≤ 63) {len off : Nat} (hlen : 3 ≤ len)
    (hmax : len ≤ 10) (hwindow : off ≤ 4095) (hbyte : ¬(len = 3 ∧ off < 256)) (hpos : 1 ≤ off) (hle : off ≤ pos)
    (hend : pos + len ≤ src.length) (hmatch : matchesAt src pos off len) :
    EncodedTo src (pos + len) (pos + len) [] (lzFlush run out ++ lzRefToken len off) where
  inside := hend
  pending := (List.append_nil _).symm
  split := rfl
  size := by
    have hflush := length_lzFlush_le run out
    have hsize := h.size
    have hsplit := h.split
    have htwo : (lzFlush run out ++ lzRefToken len off).length = (lzFlush run out).length + 2 := List.length_append
    omega
  decodes := decodesTo_append (decodesTo_lzFlush h hrun)
    (lzDecodeFrom_lzRefToken hlen hmax hwindow hbyte hpos hle hend hmatch)

theorem length_le_of_encodedTo (h : EncodedTo src done pos run out) :
    (lzFlush run out).length + 1 ≤ maxCompressedSize src.length := by
  have hsize := h.size
  have hsplit := h.split
  have hinside := h.inside
  rw [length_lzFlush, maxCompressedSize]
  split_ifs with hnone
  · omega
  · have hpending := List.length_pos_iff.mpr hnone
    omega

/-- At the end of the input the pending run and the end marker are emitted. -/
theorem encodesWell_end (h : EncodedTo src done pos run out) (hrun : run.length ≤ 63) {cap : Nat}
    (hcap : maxCompressedSize src.length ≤ cap) (hend : src.length ≤ pos) :
    encodesWell src (lzEncodeFrom src cap pos run out) := by
  have hsize := length_le_of_encodedTo h
  obtain ⟨-, -, hok⟩ := lzEncodeFrom_end (cap := cap) (out := out) hend hrun
  refine ⟨_, hok (by omega), by rwa [List.length_append], ?_⟩
  rw [lzDecode_eq_lzDecodeFrom, decodesTo_lzFlush h hrun, lzDecodeFrom_endMarker, List.take_of_length_le hend]

end

/-- The rest of the encoding from `pos` is that from a later position, with the loop's invariant there. -/
def encodesOn (src : List Byte) (cap pos : Nat) (r : LzResult) : Prop :=
  ∃ done' pos' run' out', pos < pos' ∧ run'.length < 63 ∧ EncodedTo src done' pos' run' out' ∧
    r = lzEncodeFrom src cap pos' run' out'

section
variable {src run out : List Byte} {done pos cap : Nat} (hcap : maxCompressedSize src.length ≤ cap)
  (h : EncodedTo src done pos run out) (hrun : run.length < 63) (hpos : pos < src.length)
include hcap h hrun hpos

theorem encodesOn_match (htakes : lzTakes (lzLongestMatch src.toArray pos) = true) :
    encodesOn src cap pos (lzEncodeFrom src cap pos run out) := by
  obtain ⟨-, -, hfound, -⟩ := longestMatch_lzLongestMatch src pos
  obtain ⟨⟨len, off⟩, hfind⟩ : ∃ lo, lzLongestMatch src.toArray pos = lo := ⟨_, rfl⟩
  rw [hfind] at hfound htakes
  obtain ⟨hlen, hbyte⟩ := (lzTakes_iff _).mp htakes
  obtain ⟨hoff, hwindow, hle, hmax, hin, hmatch⟩ := hfound (by omega)
  have hnext := encodedTo_match h hrun.le hlen hmax hwindow hbyte hoff hle hin hmatch
  have hroom := length_le_of_encodedTo hnext
  rw [lzFlush, if_pos rfl, List.length_append, lzRefToken_eq _ hwindow] at hroom
  obtain ⟨-, -, hstep⟩ := lzEncodeFrom_match (cap := cap) (out := out) hpos hrun.le hfind hlen hbyte hwindow
  rw [hstep (Nat.le_of_succ_le (hroom.trans hcap)), ← lzRefToken_eq _ hwindow]
  exact ⟨_, _, _, _, by simp only at hlen; omega, by simp, hnext, rfl⟩

theorem encodesOn_literal (hleaves : ¬lzTakes (lzLongestMatch src.toArray pos) = true) :
    encodesOn src cap pos (lzEncodeFrom src cap pos run out) := by
  have hskips : (lzLongestMatch src.toArray pos).1 < 3 ∨
      ((lzLongestMatch src.toArray pos).1 = 3 ∧ (lzLongestMatch src.toArray pos).2 < 256) := by
    rw [lzTakes_iff] at hleaves
    omega
  have hnext := encodedTo_literal h hpos
  obtain ⟨hshort, -, hfull⟩ := lzEncodeFrom_literal (cap := cap) (run := run) (out := out) hpos rfl hskips
  have hlength : (run ++ [src.getD pos 0]).length = run.length + 1 := List.length_append
  rcases Nat.lt_or_ge (run ++ [src.getD pos 0]).length 63 with hlt | hge
  · rw [hshort hlt]
    exact ⟨_, _, _, _, Nat.lt_succ_self pos, hlt, hnext, rfl⟩
  · have hroom := length_le_of_encodedTo hnext
    rw [hfull (by omega) (by omega)]
    exact ⟨_, _, _, _, Nat.lt_succ_self pos, by simp, encodedTo_fullRun hnext (by omega), rfl⟩

end

/-- From every position on, the encoder succeeds within the bound. -/
theorem encodesWell_lzEncodeFrom {src : List Byte} {cap : Nat} (hcap : maxCompressedSize src.length ≤ cap) (left : Nat)
    {done pos : Nat} {run out : List Byte} (h : EncodedTo src done pos run out) (hrun : run.length < 63)
    (hleft : src.length - pos ≤ left) : encodesWell src (lzEncodeFrom src cap pos run out) := by
  induction left generalizing done pos run out with
  | zero => exact encodesWell_end h hrun.le hcap (by omega)
  | succ left ih =>
    rcases Nat.lt_or_ge pos src.length with hpos | hend
    · have hon : encodesOn src cap pos (lzEncodeFrom src cap pos run out) := by
        by_cases htakes : lzTakes (lzLongestMatch src.toArray pos) = true
        · exact encodesOn_match hcap h hrun hpos htakes
        · exact encodesOn_literal hcap h hrun hpos htakes
      obtain ⟨_, pos', _, _, hlater, hrun', hnext, hsame⟩ := hon
      exact hsame ▸ ih hnext hrun' (by omega)
    · exact encodesWell_end h hrun.le hcap hend

theorem encodesWell_lzEncode (src : List Byte) {cap : Nat} (hcap : maxCompressedSize src.length ≤ cap) :
    encodesWell src (lzEncode src cap) :=
  encodesWell_lzEncodeFrom hcap src.length (encodedTo_start src) (by simp) (Nat.sub_le _ _)

/-! The statements. -/

/-- Settles O40: no token raises the potential, and none puts out more than the capacity. -/
theorem lzDecoderOutputIsBounded : Obligations.LzDecoderOutputIsBounded := by
  intro src cap out hresult
  have hout : (lzDecode src cap).out = out := by
    rcases hresult with h | h | h <;> rw [h] <;> rfl
  rw [← hout]
  exact ⟨length_out_lzDecode_le_input src cap, length_out_lzDecode_le src cap⟩

/-- Settles O41: every run but the last is full or followed by a match that pays for its command byte. -/
theorem lzEncoderFitsTheBound : Obligations.LzEncoderFitsTheBound := by
  intro src cap hcap
  obtain ⟨out, hok, hsize, -⟩ := encodesWell_lzEncode src hcap
  exact ⟨out, hok, hsize⟩

/-- Settles O42: throughout the loop the output decodes to the bytes it stands for. -/
theorem lzRoundTrips : Obligations.LzRoundTrips := by
  intro src _
  obtain ⟨out, hok, -, hdecode⟩ := encodesWell_lzEncode src le_rfl
  exact ⟨out, hok, hdecode⟩

end Sys2Proof.Machine
end
